-- ==== Sys2Proof/Word.lean ====
section
/-! DEFINITION. The words of the block (spec/00_scope.md R11, R12): unsigned values of a stated width. -/

namespace Sys2Proof

/-- A byte on the wire, most significant bit first (R11). -/
abbrev Byte := BitVec 8

/-- The width of `shadow[Mode]` and `shadow[Gain]` (R9: `W_MODE`, `W_GAIN`), and of a context's millivolt fields. -/
abbrev Word16 := BitVec 16

/-- The width of `shadow[Filter]` and `shadow[Offset]` (R9), of the read accumulator (R28) and of the operands
`value`, `mask` and `bits` (R83). -/
abbrev Word24 := BitVec 24

/-- The width of a command word and of a response payload (R80). -/
abbrev Word64 := BitVec 64

end Sys2Proof
end

