-- ==== Sys2Proof/Config.lean ====
section
/-! DEFINITION. The parameters of the block (spec/00_scope.md R9), and the two free values of the model: the answers of
the bus environment (spec/20_memory.md R53), and a voltage that leaves the result format (log 22). -/

namespace Sys2Proof

/-- The environment's answer to one `Xfer`: a received byte, or a failure (spec/20_memory.md R53, decision D6). -/
inductive Answer where
  | byte (b : Byte)
  | fail
deriving DecidableEq, Repr, Inhabited

/-- The reading of the bipolar offset term (spec/43_conversion.md R147): identically zero, or the negative reference. -/
inductive OffsetMode where
  | zero
  | refMinus
deriving DecidableEq, Repr

/-- The 3-bit MD code of each operating mode (spec/44_mode_state_machine.md R171). -/
structure MdCodes where
  idle : BitVec 3
  standby : BitVec 3
  convertContinuous : BitVec 3
  convertSingle : BitVec 3
  calInternalZero : BitVec 3
  calInternalFull : BitVec 3
  calSystemZero : BitVec 3
  calSystemFull : BitVec 3
deriving DecidableEq, Repr

/-- The eight codes, in the order of the host ordinals (spec/30_encoding.md R83). -/
def MdCodes.toList (c : MdCodes) : List (BitVec 3) :=
  [c.idle, c.standby, c.convertContinuous, c.convertSingle,
    c.calInternalZero, c.calInternalFull, c.calSystemZero, c.calSystemFull]

/-- The positions of the command byte's fields (spec/30_encoding.md R70, decision D1). The bits that no field covers are
zero. -/
structure CmdLayout where
  /-- `CMD_WEN_POS` -/
  wenPos : Fin 8
  /-- `CMD_RW1_POS` -/
  rw1Pos : Fin 8
  /-- `CMD_RW0_POS` -/
  rw0Pos : Fin 8
  /-- the low end of `CMD_RS_POS`, three bits -/
  rsPos : Fin 8
deriving DecidableEq, Repr

/-- The layout the spec writes: bits 7, 5, 4 and 2:0 (R70). PRESUMED by the spec itself (D1; log 11). -/
def CmdLayout.default : CmdLayout where
  wenPos := 7
  rw1Pos := 5
  rw0Pos := 4
  rsPos := 0

/-- The fields lie apart, in the order "(MSB→LSB)" of R70: WEN, RW1, RW0, RS2 to RS0 (log 16). -/
def CmdLayout.wf (l : CmdLayout) : Bool :=
  decide (l.rsPos.val + 2 < l.rw0Pos.val) && decide (l.rw0Pos < l.rw1Pos) && decide (l.rw1Pos < l.wenPos)

/-- The 3-bit selector code of each register (spec/30_encoding.md R72; parameters by spec/93_implementation_defined.md
U1, U2). -/
structure SelCodes where
  status : BitVec 3
  data : BitVec 3
  mode : BitVec 3
  filter : BitVec 3
  offset : BitVec 3
  gain : BitVec 3
deriving DecidableEq, Repr

/-- The codes of R72. Status's is PRESUMED by the spec itself (D2; log 11). -/
def SelCodes.default : SelCodes where
  status := 0b000
  data := 0b001
  mode := 0b010
  filter := 0b011
  offset := 0b101
  gain := 0b110

/-- The six codes. -/
def SelCodes.toList (c : SelCodes) : List (BitVec 3) := [c.status, c.data, c.mode, c.filter, c.offset, c.gain]

/-- The configuration record of spec/00_scope.md R9: every parameter whose value is a decision of the spec or OPEN (the
four reset values, decision D9). What R9 gives as a width is the width of a type of the model; what it calls fixed by the
document is a constant below. Log 1. -/
structure Cfg where
  /-- `CMD_WEN_POS`, `CMD_RW1_POS`, `CMD_RW0_POS`, `CMD_RS_POS` (decision D1) -/
  cmd : CmdLayout
  /-- `SEL_STATUS` to `SEL_GAIN` (R72, decision D2) -/
  sels : SelCodes
  /-- `RESET_MODE` -/
  resetMode : Word16
  /-- `RESET_FILTER` -/
  resetFilter : Word24
  /-- `RESET_OFFSET` -/
  resetOffset : Word24
  /-- `RESET_GAIN` -/
  resetGain : Word16
  /-- `RANGE_SET`, in millivolts (decision D12) -/
  rangeSet : List Word16
  /-- `REF_NOMINAL_MV` (decision D11) -/
  refNominalMv : Nat
  /-- `PV_PER_MV`: units of the result in a millivolt (decision D13) -/
  pvPerMv : Nat
  /-- `OFFSET_MODE` (decision D14) -/
  offsetMode : OffsetMode
  /-- `MD_LO`; `MD_HI` is two above it (decision D18) -/
  mdLo : Fin 14
  /-- `MD_CODE` (decision D18) -/
  mdCodes : MdCodes
  /-- `ST_RDY_POS` (decision D19) -/
  rdyPos : Fin 8
  /-- `ST_STDY_POS` (decision D19) -/
  stdyPos : Fin 8
  /-- `ST_STBY_POS` (decision D19) -/
  stbyPos : Fin 8
  /-- `ST_NOREF_POS` (decision D19) -/
  norefPos : Fin 8
deriving DecidableEq, Repr

/-- What the spec asks of a configuration: a command byte whose fields lie apart (R70); six different selector codes (R72);
eight positive range steps, 1280 among them (R9, D12; positive and distinct
are DEDUCED, log 16); a nominal reference of at least 1 mV (R151); a unit of
the result (R145); a bijection of MD codes (R171); a reset Mode whose MD
field decodes to Idle (spec/10_state.md R27). -/
def Cfg.wf (c : Cfg) : Bool :=
  c.cmd.wf && decide c.sels.toList.Nodup && c.rangeSet.length == 8 && c.rangeSet.contains 1280#16 && c.rangeSet.all (fun r => decide (0 < r.toNat))
    && decide c.rangeSet.Nodup && decide (1 ≤ c.refNominalMv) && decide (1 ≤ c.pvPerMv)
    && decide c.mdCodes.toList.Nodup
    && c.resetMode.extractLsb' c.mdLo 3 == c.mdCodes.idle

/-- The spec's default parameters. PRESUMED where the spec itself writes from general knowledge (D1, D2, D11, D18,
D19; log 11, log 12, log 13). The four reset values are DESIGN CHOICE zero, unsafe (log 2). -/
def Cfg.default : Cfg where
  cmd := .default
  sels := .default
  resetMode := 0
  resetFilter := 0
  resetOffset := 0
  resetGain := 0
  rangeSet := [10, 20, 40, 80, 160, 320, 640, 1280]
  refNominalMv := 2500
  pvPerMv := 1000000000
  offsetMode := .zero
  mdLo := 13
  mdCodes :=
    { idle := 0b000, standby := 0b011, convertContinuous := 0b001, convertSingle := 0b010
      calInternalZero := 0b100, calInternalFull := 0b101, calSystemZero := 0b110, calSystemFull := 0b111 }
  rdyPos := 7
  stdyPos := 6
  stbyPos := 5
  norefPos := 4

namespace Config

/-- `READ_FILL`: the byte sent while reading (spec/30_encoding.md R78). -/
def readFill : Byte := 0x00

/-- `RESET_BYTE` and `RESET_COUNT` (spec/30_encoding.md R76). -/
def resetByte : Byte := 0xFF
@[inherit_doc resetByte] def resetCount : Nat := 4

/-- FREE VALUE. The bus environment's answer to the `Xfer` of a given number, where no scripted answer stands for it:
"a free input per `Xfer`, under no law" (spec/20_memory.md R53). Log 4. -/
opaque busAnswer : Nat → Answer

/-- FREE VALUE, DESIGN CHOICE. What CONVERT and RDVOLT answer where the voltage does not fit an s64: a value that may depend
on the configuration, the context (as GETCTX gives it) and the code. The spec states none: spec/43_conversion.md R152 shows
that "no saturation or wrap rule is needed" for a unit of 10^9 a millivolt, and another unit is a field of `Cfg`. Log 22. -/
opaque unstatedVoltage : Cfg → Word64 → Nat → Word64

end Config

end Sys2Proof
end

