-- ==== Sys2Proof/Syntax.lean ====
section
/-! DEFINITION. The instructions: one constructor per row of spec/opcode_table.json (spec/30_encoding.md R82, R73, R76),
and the operands they carry (R83). -/

namespace Sys2Proof

/-- The direction of a command byte (spec/30_encoding.md R71, R83). -/
inductive Dir where
  | write
  | read
deriving DecidableEq, Repr

/-- The six registers a selector can name (spec/30_encoding.md R72). -/
inductive Reg where
  | status
  | data
  | mode
  | filter
  | offset
  | gain
deriving DecidableEq, Repr

/-- What a 3-bit selector operand spells: a register, or the lower or the higher of the two codes that name none, `0b100`
and `0b111` with the codes of R72 (spec/30_encoding.md R72, R74). -/
inductive Sel where
  | reg (r : Reg)
  | reservedLow
  | reservedHigh
deriving DecidableEq, Repr

/-- The operating modes (spec/10_state.md R26), in the order of their host ordinals (spec/30_encoding.md R83). -/
inductive ModeState where
  | idle
  | standby
  | convertContinuous
  | convertSingle
  | calInternalZero
  | calInternalFull
  | calSystemZero
  | calSystemFull
deriving DecidableEq, Repr

/-- `ctx.wordLengthBits`: 16 or 24 (spec/10_state.md R24). -/
inductive WordLength where
  | w16
  | w24
deriving DecidableEq, Repr

/-- `ctx.polarity` (spec/10_state.md R24). -/
inductive Polarity where
  | bipolar
  | unipolar
deriving DecidableEq, Repr

/-- The instructions. The first fifteen are the host operations (spec/30_encoding.md R82), their operands in the order of
the assembler (R87). The next twelve are the wire command bytes (R73), the last is the wire reset byte (R76): what the
block itself puts on the wire, byte by byte (log 7, log 8). -/
inductive Instr where
  | encode (dir : Dir) (sel : Sel)
  | wrreg (sel : Sel) (value : Word24)
  | rdreg (sel : Sel)
  | refresh (sel : Sel)
  | setfld (sel : Sel) (bits mask : Word24)
  | setmode (state : ModeState)
  | waitrdy (maxPolls : Nat)
  | rdstat
  | chiprst
  | setctx (range : Word16) (pol : Polarity) (refMinus refPlus : Word16) (wl : WordLength)
  | convert (rawCode : Nat)
  | rdvolt
  | getshd (sel : Sel)
  | getmode
  | getctx
  | cmdWrStatus
  | cmdRdStatus
  | cmdWrData
  | cmdRdData
  | cmdWrMode
  | cmdRdMode
  | cmdWrFilter
  | cmdRdFilter
  | cmdWrOffset
  | cmdRdOffset
  | cmdWrGain
  | cmdRdGain
  | resetByte
deriving DecidableEq, Repr

/-- The instruction that a command byte of the table of spec/30_encoding.md R73 is. -/
def Instr.ofCommand : Dir → Reg → Instr
  | .write, .status => .cmdWrStatus
  | .read, .status => .cmdRdStatus
  | .write, .data => .cmdWrData
  | .read, .data => .cmdRdData
  | .write, .mode => .cmdWrMode
  | .read, .mode => .cmdRdMode
  | .write, .filter => .cmdWrFilter
  | .read, .filter => .cmdRdFilter
  | .write, .offset => .cmdWrOffset
  | .read, .offset => .cmdRdOffset
  | .write, .gain => .cmdWrGain
  | .read, .gain => .cmdRdGain

/-- The direction and register of a wire command byte; none for a host operation and for the reset byte. -/
def Instr.wireCommand : Instr → Option (Dir × Reg)
  | .cmdWrStatus => some (.write, .status)
  | .cmdRdStatus => some (.read, .status)
  | .cmdWrData => some (.write, .data)
  | .cmdRdData => some (.read, .data)
  | .cmdWrMode => some (.write, .mode)
  | .cmdRdMode => some (.read, .mode)
  | .cmdWrFilter => some (.write, .filter)
  | .cmdRdFilter => some (.read, .filter)
  | .cmdWrOffset => some (.write, .offset)
  | .cmdRdOffset => some (.read, .offset)
  | .cmdWrGain => some (.write, .gain)
  | .cmdRdGain => some (.read, .gain)
  | .encode _ _ | .wrreg _ _ | .rdreg _ | .refresh _ | .setfld _ _ _ | .setmode _ | .waitrdy _ | .rdstat | .chiprst
  | .setctx _ _ _ _ _ | .convert _ | .rdvolt | .getshd _ | .getmode | .getctx | .resetByte => none

/-- Is the instruction one the host presents (spec/30_encoding.md R82), and not a byte on the wire? -/
def Instr.isHostOp : Instr → Bool
  | .encode _ _ | .wrreg _ _ | .rdreg _ | .refresh _ | .setfld _ _ _ | .setmode _ | .waitrdy _ | .rdstat | .chiprst
  | .setctx _ _ _ _ _ | .convert _ | .rdvolt | .getshd _ | .getmode | .getctx => true
  | .cmdWrStatus | .cmdRdStatus | .cmdWrData | .cmdRdData | .cmdWrMode | .cmdRdMode | .cmdWrFilter | .cmdRdFilter
  | .cmdWrOffset | .cmdRdOffset | .cmdWrGain | .cmdRdGain | .resetByte => false

end Sys2Proof
end

