-- ==== Sys2Proof/WellFormed.lean ====
section
/-! DEFINITION. Which terms of `Instr` a command word can spell (spec/30_encoding.md R83): the two operands that are
numbers and not bit fields fit their 32-bit fields; every other operand fits by its type. -/

namespace Sys2Proof

/-- The operands fit the fields of their format (spec/30_encoding.md R81, R83): `maxPolls : u32`, `rawCode : u32`. -/
def Instr.wf : Instr → Bool
  | .waitrdy maxPolls => decide (maxPolls < 2 ^ 32)
  | .convert rawCode => decide (rawCode < 2 ^ 32)
  | .encode _ _ | .wrreg _ _ | .rdreg _ | .refresh _ | .setfld _ _ _ | .setmode _ | .rdstat | .chiprst
  | .setctx _ _ _ _ _ | .rdvolt | .getshd _ | .getmode | .getctx
  | .cmdWrStatus | .cmdRdStatus | .cmdWrData | .cmdRdData | .cmdWrMode | .cmdRdMode | .cmdWrFilter | .cmdRdFilter
  | .cmdWrOffset | .cmdRdOffset | .cmdWrGain | .cmdRdGain | .resetByte => true

end Sys2Proof
end

