-- ==== Sys2Proof/Decode.lean ====
section
/-! DEFINITION. The decoder and the encoder of the two encodings of spec/30_encoding.md: the wire command byte (part A)
and the host command word (part B). -/

namespace Sys2Proof

/-- Why bits spell no instruction. For a command word either reason is `IllegalCommand` (spec/30_encoding.md R85); for a
byte the reasons are those of R74 and R75. -/
inductive Reject where
  /-- opcode `0xF` (R85) -/
  | reservedOpcode
  /-- a must-be-zero bit of the opcode's format is set (R85) -/
  | mustBeZero
  /-- a byte with WEN = 1, a bit set that no field covers, or RW1 and RW0 different (R75) -/
  | notCommandByte
  /-- a command byte whose RS field is a reserved code (R74) -/
  | reservedSelector
deriving DecidableEq, Repr

/-- What carries an instruction: a 64-bit word on the host port (R81) or a byte on the wire (R70). -/
inductive Code where
  | host (cw : Word64)
  | wire (b : Byte)
deriving DecidableEq, Repr

/-! ### Operand fields (R72, R83) -/

/-- The selector code of a register (R72). -/
def Reg.code (c : SelCodes) : Reg → BitVec 3
  | .status => c.status
  | .data => c.data
  | .mode => c.mode
  | .filter => c.filter
  | .offset => c.offset
  | .gain => c.gain

/-- The six registers. -/
def allRegs : List Reg := [.status, .data, .mode, .filter, .offset, .gain]

/-- The register a selector code names, if it names one (R72). -/
def regOf (c : SelCodes) (b : BitVec 3) : Option Reg := allRegs.find? fun r => r.code c == b

/-- The codes that name no register, in rising order: two, where the six codes differ (R74). -/
def reservedCodes (c : SelCodes) : List (BitVec 3) := [0, 1, 2, 3, 4, 5, 6, 7].filter fun b => (regOf c b).isNone

/-- The 3-bit selector operand: "same codes as on the wire" (R72, R74, R83). -/
def Sel.code (c : SelCodes) : Sel → BitVec 3
  | .reg r => r.code c
  | .reservedLow => (reservedCodes c).headD 0
  | .reservedHigh => (reservedCodes c).getLastD 0

/-- What a 3-bit selector field spells (R72, R74). -/
def Sel.ofCode (c : SelCodes) (b : BitVec 3) : Sel :=
  match regOf c b with
  | some r => .reg r
  | none => if b = (reservedCodes c).headD 0 then .reservedLow else .reservedHigh

/-- `dir`: 0 = write, 1 = read (R83). -/
def Dir.code : Dir → BitVec 1
  | .write => 0
  | .read => 1

@[inherit_doc Dir.code]
def Dir.ofCode (b : BitVec 1) : Dir := if b = 0 then .write else .read

/-- `state`: the host ordinal of an operating mode (R83). It is not the MD code. -/
def ModeState.ordinal : ModeState → BitVec 3
  | .idle => 0
  | .standby => 1
  | .convertContinuous => 2
  | .convertSingle => 3
  | .calInternalZero => 4
  | .calInternalFull => 5
  | .calSystemZero => 6
  | .calSystemFull => 7

@[inherit_doc ModeState.ordinal]
def ModeState.ofOrdinal (b : BitVec 3) : ModeState :=
  match b.toNat with
  | 0 => .idle
  | 1 => .standby
  | 2 => .convertContinuous
  | 3 => .convertSingle
  | 4 => .calInternalZero
  | 5 => .calInternalFull
  | 6 => .calSystemZero
  | _ => .calSystemFull

/-- `wl`: 0 = 16 bits, 1 = 24 bits (R83). -/
def WordLength.code : WordLength → BitVec 1
  | .w16 => 0
  | .w24 => 1

@[inherit_doc WordLength.code]
def WordLength.ofCode (b : BitVec 1) : WordLength := if b = 0 then .w16 else .w24

/-- `pol`: 0 = bipolar, 1 = unipolar (R83). -/
def Polarity.code : Polarity → BitVec 1
  | .bipolar => 0
  | .unipolar => 1

@[inherit_doc Polarity.code]
def Polarity.ofCode (b : BitVec 1) : Polarity := if b = 0 then .bipolar else .unipolar

/-! ### The wire (part A) -/

/-- The Command Encoder's function `cmd(direction, sel)` (R71): WEN = 0, RW1 = RW0 = 1 for a read and 0 for a write, the
selector in RS2..RS0, each at its place of R70. -/
def cmdByte (cfg : Cfg) (d : Dir) (r : Reg) : Byte :=
  let rw : Byte := d.code.setWidth 8
  ((0 : Byte) <<< cfg.cmd.wenPos.val) ||| (rw <<< cfg.cmd.rw1Pos.val) ||| (rw <<< cfg.cmd.rw0Pos.val)
    ||| (((r.code cfg.sels).setWidth 8 : Byte) <<< cfg.cmd.rsPos.val)

/-- The fields of a byte on the wire (R77): `wen(b)`, `rw(b)`, `rs(b)`. -/
def wireWen (l : CmdLayout) (b : Byte) : Bool := b.getLsbD l.wenPos
@[inherit_doc wireWen]
def wireRw (l : CmdLayout) (b : Byte) : BitVec 2 := BitVec.ofBool (b.getLsbD l.rw1Pos) ++ BitVec.ofBool (b.getLsbD l.rw0Pos)
@[inherit_doc wireWen] def wireRs (l : CmdLayout) (b : Byte) : BitVec 3 := b.extractLsb' l.rsPos 3

/-- The bits of the command byte that some field covers (R70). -/
def fieldBits (l : CmdLayout) : Byte :=
  ((1 : Byte) <<< l.wenPos.val) ||| ((1 : Byte) <<< l.rw1Pos.val) ||| ((1 : Byte) <<< l.rw0Pos.val)
    ||| ((7 : Byte) <<< l.rsPos.val)

/-- The instruction a byte on the wire is: the reset byte (R76), or a command byte read by its fields (R70, R77), every
other byte rejected (R74, R75). -/
def decodeWire (cfg : Cfg) (b : Byte) : Except Reject Instr :=
  if b = Config.resetByte then .ok .resetByte
  else if wireWen cfg.cmd b || b &&& ~~~fieldBits cfg.cmd != 0
      || (wireRw cfg.cmd b != 0b00 && wireRw cfg.cmd b != 0b11) then
    .error .notCommandByte
  else
    match Sel.ofCode cfg.sels (wireRs cfg.cmd b) with
    | .reg r => .ok (Instr.ofCommand (if wireRw cfg.cmd b = 0b11 then .read else .write) r)
    | .reservedLow | .reservedHigh => .error .reservedSelector

/-! ### The host command word (part B) -/

/-- `cw[lo+len-1:lo]`. No operand is scaled or shifted by the decoder (R86). -/
def field (cw : Word64) (lo len : Nat) : BitVec len := cw.extractLsb' lo len

/-- How many of the low bits of the command word the opcode's format assigns (R81, R82); none for `0xF`. The bits from
there up to bit 59 must be zero. -/
def operandBits (op : BitVec 4) : Option Nat :=
  match op.toNat with
  | 0x0 => some 4
  | 0x1 => some 27
  | 0x2 => some 3
  | 0x3 => some 3
  | 0x4 => some 51
  | 0x5 => some 3
  | 0x6 => some 32
  | 0x7 => some 0
  | 0x8 => some 0
  | 0x9 => some 50
  | 0xA => some 32
  | 0xB => some 0
  | 0xC => some 3
  | 0xD => some 0
  | 0xE => some 0
  | _ => none

/-- The operation of an opcode with its operand fields taken from the word (R81, R82, R83, R86). -/
def operation (sels : SelCodes) (op : BitVec 4) (cw : Word64) : Instr :=
  match op.toNat with
  | 0x0 => .encode (Dir.ofCode (field cw 3 1)) (Sel.ofCode sels (field cw 0 3))
  | 0x1 => .wrreg (Sel.ofCode sels (field cw 24 3)) (field cw 0 24)
  | 0x2 => .rdreg (Sel.ofCode sels (field cw 0 3))
  | 0x3 => .refresh (Sel.ofCode sels (field cw 0 3))
  | 0x4 => .setfld (Sel.ofCode sels (field cw 48 3)) (field cw 0 24) (field cw 24 24)
  | 0x5 => .setmode (ModeState.ofOrdinal (field cw 0 3))
  | 0x6 => .waitrdy (field cw 0 32).toNat
  | 0x7 => .rdstat
  | 0x8 => .chiprst
  | 0x9 => .setctx (field cw 32 16) (Polarity.ofCode (field cw 48 1)) (field cw 0 16) (field cw 16 16)
      (WordLength.ofCode (field cw 49 1))
  | 0xA => .convert (field cw 0 32).toNat
  | 0xB => .rdvolt
  | 0xC => .getshd (Sel.ofCode sels (field cw 0 3))
  | 0xD => .getmode
  | _ => .getctx

/-- The operation a command word spells, or why it spells none (R81, R82, R85). -/
def decodeHost (cfg : Cfg) (cw : Word64) : Except Reject Instr :=
  match operandBits (field cw 60 4) with
  | none => .error .reservedOpcode
  | some n => if field cw n (60 - n) = 0 then .ok (operation cfg.sels (field cw 60 4) cw) else .error .mustBeZero

/-- The decoder, total on every command word and every wire byte. The configuration gives it the selector codes and the
layout of the command byte. -/
def decode (cfg : Cfg) : Code → Except Reject Instr
  | .host cw => decodeHost cfg cw
  | .wire b => decodeWire cfg b

/-! ### The encoder -/

/-- A command word: the opcode in bits 63:60, the operands below, zeros between (R81). -/
def hostWord (op : BitVec 4) {n : Nat} (operands : BitVec n) : Code := .host (op ++ operands.setWidth 60)

/-- The words of an instruction, written from the formats of R81 and the bytes of R71 and R76. -/
def encode (cfg : Cfg) : Instr → Code
  | .encode dir sel => hostWord 0x0 (dir.code ++ sel.code cfg.sels)
  | .wrreg sel value => hostWord 0x1 (sel.code cfg.sels ++ value)
  | .rdreg sel => hostWord 0x2 (sel.code cfg.sels)
  | .refresh sel => hostWord 0x3 (sel.code cfg.sels)
  | .setfld sel bits mask => hostWord 0x4 (sel.code cfg.sels ++ mask ++ bits)
  | .setmode state => hostWord 0x5 state.ordinal
  | .waitrdy maxPolls => hostWord 0x6 (BitVec.ofNat 32 maxPolls)
  | .rdstat => hostWord 0x7 (0 : BitVec 0)
  | .chiprst => hostWord 0x8 (0 : BitVec 0)
  | .setctx range pol refMinus refPlus wl => hostWord 0x9 (wl.code ++ pol.code ++ range ++ refPlus ++ refMinus)
  | .convert rawCode => hostWord 0xA (BitVec.ofNat 32 rawCode)
  | .rdvolt => hostWord 0xB (0 : BitVec 0)
  | .getshd sel => hostWord 0xC (sel.code cfg.sels)
  | .getmode => hostWord 0xD (0 : BitVec 0)
  | .getctx => hostWord 0xE (0 : BitVec 0)
  | .cmdWrStatus => .wire (cmdByte cfg .write .status)
  | .cmdRdStatus => .wire (cmdByte cfg .read .status)
  | .cmdWrData => .wire (cmdByte cfg .write .data)
  | .cmdRdData => .wire (cmdByte cfg .read .data)
  | .cmdWrMode => .wire (cmdByte cfg .write .mode)
  | .cmdRdMode => .wire (cmdByte cfg .read .mode)
  | .cmdWrFilter => .wire (cmdByte cfg .write .filter)
  | .cmdRdFilter => .wire (cmdByte cfg .read .filter)
  | .cmdWrOffset => .wire (cmdByte cfg .write .offset)
  | .cmdRdOffset => .wire (cmdByte cfg .read .offset)
  | .cmdWrGain => .wire (cmdByte cfg .write .gain)
  | .cmdRdGain => .wire (cmdByte cfg .read .gain)
  | .resetByte => .wire Config.resetByte

/-- The host's own question: what the decoder reads from a table row's bits, with the default parameters, whose bytes
the table writes. A row of 8 bits is a byte on the wire, a
longer one a command word. -/
def decodeTableWord (nbits w : Nat) : Option Instr :=
  (decode Cfg.default (if nbits ≤ 8 then .wire (BitVec.ofNat 8 w) else .host (BitVec.ofNat 64 w))).toOption

end Sys2Proof
end

