-- ==== Sys2Proof/Machine/State.lean ====
section
/-! DEFINITION. The state of the block (spec/10_state.md R20 to R35), its host port (spec/30_encoding.md R80, R84), the
parameters of its step (R20), and why a step can stop. -/

namespace Sys2Proof.Machine

/-- The machine stops with a fault. -/
inductive Fault where
  /-- Raised by `step` in a sequencer state that no operation reaches: a phase its operation does not have, or no byte
  left to transfer (spec/10_state.md R28). Safe: `Safety.StateOk` rules it out. Log 15. -/
  | malformedSequencer
deriving DecidableEq, Repr

/-- The model gives no meaning. -/
inductive Refusal where
  /-- An arm of `exec` without a meaning. No arm has it. Safe. -/
  | notModelled (mnemonic : String)
  /-- Raised by a host operation while another is in progress: "this spec gives such a run no meaning (a model refuses
  it)" (spec/70_reset_and_hazards.md R224). Safe. -/
  | commandWhileBusy
  /-- Raised by a wire byte that the operation in progress is not about to send (spec/30_encoding.md R75). Safe. Log 8. -/
  | wireByteNotDue
deriving DecidableEq, Repr

/-- The errors of spec/60_exceptions.md R190. An error is a response, not a stop (R198). -/
inductive Err where
  | invalidRegister
  | busError
  | timeout
  | precisionViolation
  | invalidContext
  | illegalCommand
deriving DecidableEq, Repr

/-- A response (spec/30_encoding.md R84): OK with its payload, or an error, which carries no value (log 14). -/
inductive Response where
  | ok (data : Word64)
  | error (e : Err)
deriving DecidableEq, Repr

/-- One event of the bus (spec/20_memory.md R52): `Begin`, `Xfer(out)` with the environment's answer, `End`. -/
inductive BusEvent where
  | txBegin
  | xfer (out : Byte) (answer : Answer)
  | txEnd
deriving DecidableEq, Repr

/-- The phase of an operation in progress (spec/10_state.md R28). -/
inductive Phase where
  /-- the command byte is not yet sent -/
  | cmd
  /-- data bytes are being sent or received -/
  | data
  /-- reset bytes are being sent -/
  | fill
deriving DecidableEq, Repr

/-- `Run(op, phase, i, acc, polls)` (spec/10_state.md R28): the operation with its operands, its phase, the data or fill
bytes still to transfer, the read accumulator, the Status polls completed. -/
structure Run where
  op : Instr
  phase : Phase
  i : Nat
  acc : Word24
  polls : Nat
deriving DecidableEq, Repr

/-- The sequencer state (spec/10_state.md R28). -/
inductive Seq where
  | idle
  | run (r : Run)
deriving DecidableEq, Repr

/-- The conversion context (spec/10_state.md R24). The references are two's complement millivolts. -/
structure Ctx where
  valid : Bool
  wordLength : WordLength
  polarity : Polarity
  range : Word16
  refMinus : Word16
  refPlus : Word16
deriving DecidableEq, Repr

/-- How an operation is run (spec/10_state.md R29): as one atomic transition, or byte by byte. Log 6. -/
inductive Grain where
  | operation
  | byte
deriving DecidableEq, Repr

/-- What the host does next (spec/30_encoding.md R80, spec/70_reset_and_hazards.md R210, R224). Log 5, log 18. -/
inductive HostEvent where
  /-- presents a command word as soon as the block is ready for one -/
  | command (grain : Grain) (cw : Word64)
  /-- presents a command word now, ready or not -/
  | intrude (cw : Word64)
  /-- asserts `rst` now -/
  | reset
  /-- does nothing for one step of the block -/
  | quiet
deriving DecidableEq, Repr

/-- The state. The first six fields are the block's own (spec/10_state.md R20); `hostIn` and `response` are its host
port (spec/30_encoding.md R80); the rest are the parameters of its step and the record of its bus (log 1, 4, 10). -/
structure State where
  /-- `shadow[Mode]` (R21) -/
  mode : Word16
  /-- `shadow[Filter]` (R21) -/
  filter : Word24
  /-- `shadow[Offset]` (R21) -/
  offset : Word24
  /-- `shadow[Gain]` (R21) -/
  gain : Word16
  /-- the conversion context (R24) -/
  ctx : Ctx
  /-- the sequencer (R28) -/
  seq : Seq
  /-- the last response given, none while none has been given to the operation in progress or since reset (log 9) -/
  response : Option Response
  /-- what the host does next (log 5) -/
  hostIn : List HostEvent
  /-- the configuration (R9), which no step changes (log 1) -/
  cfg : Cfg
  /-- the scripted answers of the bus environment, by the number of the `Xfer` (log 4) -/
  answers : List Answer
  /-- the number of `Xfer`s made so far (log 4) -/
  xfers : Nat
  /-- the bus events since the block was reset (log 10) -/
  trace : List BusEvent
deriving DecidableEq, Repr

/-- The context after block reset: `valid` is 0 (spec/70_reset_and_hazards.md R211); the other fields are unspecified
there and unreadable: DESIGN CHOICE, log 3. -/
def Ctx.reset : Ctx where
  valid := false
  wordLength := .w16
  polarity := .bipolar
  range := 0
  refMinus := 0
  refPlus := 0

/-- The block right after reset (spec/10_state.md R35, spec/70_reset_and_hazards.md R211), built with a configuration. -/
def State.resetWith (cfg : Cfg) : State where
  mode := cfg.resetMode
  filter := cfg.resetFilter
  offset := cfg.resetOffset
  gain := cfg.resetGain
  ctx := Ctx.reset
  seq := .idle
  response := none
  hostIn := []
  cfg := cfg
  answers := []
  xfers := 0
  trace := []

/-- The block right after reset, with the default configuration (log 1, log 2). -/
def State.reset : State := State.resetWith Cfg.default

end Sys2Proof.Machine
end

