-- ==== Sys2Proof/Machine/Operands.lean ====
section
/-! DEFINITION. The operand forms: which selectors an operation accepts, how wide a register is, how a value is taken
apart into wire bytes and assembled from them, and the MD field of Mode (spec/20_memory.md R55 to R58,
spec/41_register_protocol.md R110, spec/42_shadow_store.md R130, R132, spec/44_mode_state_machine.md R170, R171). -/

namespace Sys2Proof

/-- `ctx.wordLengthBits` as a number (spec/10_state.md R24). -/
def WordLength.bits : WordLength → Nat
  | .w16 => 16
  | .w24 => 24

namespace Machine

/-- The four shadowed registers (spec/10_state.md R21). -/
inductive ShadowReg where
  | mode
  | filter
  | offset
  | gain
deriving DecidableEq, Repr

/-- The register of the chip that a shadow copies (R21). -/
def ShadowReg.reg : ShadowReg → Reg
  | .mode => .mode
  | .filter => .filter
  | .offset => .offset
  | .gain => .gain

/-- `W_r` (R21). -/
def ShadowReg.width : ShadowReg → Nat
  | .mode => 16
  | .filter => 24
  | .offset => 24
  | .gain => 16

/-- The shadow of a register; none for Status and Data, which "are not cached" (spec/41_register_protocol.md R110). -/
def shadowOf : Reg → Option ShadowReg
  | .status => none
  | .data => none
  | .mode => some .mode
  | .filter => some .filter
  | .offset => some .offset
  | .gain => some .gain

/-- `valid(sel)` (spec/41_register_protocol.md R110), checked: a reserved code is `InvalidRegister`
(spec/30_encoding.md R74). -/
def validReg : Sel → Except Err Reg
  | .reg r => .ok r
  | .reservedLow | .reservedHigh => .error .invalidRegister

/-- `shadowed(sel)` (spec/41_register_protocol.md R110), checked: Status, Data and the reserved codes are
`InvalidRegister`. -/
def shadowedReg : Sel → Except Err ShadowReg
  | .reg r =>
    match shadowOf r with
    | some g => .ok g
    | none => .error .invalidRegister
  | .reservedLow | .reservedHigh => .error .invalidRegister

/-- Does an operand fit the register's width (spec/42_shadow_store.md R132)? -/
def fits (g : ShadowReg) (v : Word24) : Bool := decide (v.toNat < 2 ^ g.width)

/-- `nbytes(sel)` (spec/20_memory.md R55): Data's is the context's word length, never a bit of Mode (D10). The spec defines
it for a loaded context only, and every operation on Data checks for one first; with none loaded this is the word length
that stands in the context, which only a read of Data placed by `placeWire` meets (log 23). -/
def nbytes (ctx : Ctx) : Reg → Nat
  | .status => 1
  | .data => ctx.wordLength.bits / 8
  | .mode => 2
  | .filter => 3
  | .offset => 3
  | .gain => 2

/-- The low `n` bytes of a value, most significant first (spec/20_memory.md R56, R58). -/
def wireBytes (v : Word24) : Nat → List Byte
  | 0 => []
  | n + 1 => v.extractLsb' (8 * n) 8 :: wireBytes v n

/-- One received byte shifted into the accumulator: `(acc << 8) | b` (spec/20_memory.md R57). -/
def shiftIn (acc : Word24) (b : Byte) : Word24 := (acc <<< 8) ||| b.setWidth 24

/-- The masked update `(old & ~mask) | (bits & mask)` (spec/42_shadow_store.md R130). On a 16-bit register the operands
have passed the width check, so the complement within 24 bits and within 16 agree. -/
def merge {w : Nat} (old bits mask : BitVec w) : BitVec w := (old &&& ~~~mask) ||| (bits &&& mask)

/-- `MD_MASK` (spec/44_mode_state_machine.md R170): three ones at the MD field. -/
def mdMask (cfg : Cfg) : Word16 := (7 : Word16) <<< (cfg.mdLo : Nat)

/-- `MD_CODE(state)` (R171). -/
def mdCode (c : MdCodes) : ModeState → BitVec 3
  | .idle => c.idle
  | .standby => c.standby
  | .convertContinuous => c.convertContinuous
  | .convertSingle => c.convertSingle
  | .calInternalZero => c.calInternalZero
  | .calInternalFull => c.calInternalFull
  | .calSystemZero => c.calSystemZero
  | .calSystemFull => c.calSystemFull

/-- `MD_CODE(state) << MD_LO`: SETMODE's field bits (spec/30_encoding.md R86). -/
def mdBits (cfg : Cfg) (m : ModeState) : Word16 := ((mdCode cfg.mdCodes m).setWidth 16 : Word16) <<< (cfg.mdLo : Nat)

/-- The modes in the order of their ordinals. -/
def allModes : List ModeState :=
  [.idle, .standby, .convertContinuous, .convertSingle, .calInternalZero, .calInternalFull, .calSystemZero, .calSystemFull]

/-- `MD_DECODE` (R171): the mode whose code the field is. The codes of a well-formed configuration are a bijection, so
there is exactly one; the last alternative serves no well-formed configuration (log 17). -/
def mdDecode (c : MdCodes) (f : BitVec 3) : ModeState :=
  match allModes.find? (fun m => mdCode c m == f) with
  | some m => m
  | none => .idle

/-- The ModeState: a view of `shadow[Mode]`, not storage (spec/10_state.md R26). -/
def modeState (cfg : Cfg) (mode : Word16) : ModeState := mdDecode cfg.mdCodes (mode.extractLsb' cfg.mdLo 3)

end Machine

end Sys2Proof
end

