-- ==== Sys2Proof/Machine/Flags.lean ====
section
/-! DEFINITION. The Status flags and the numbers of the response port. The block has no flags register: the flags are
decoded from one Status byte and never kept (spec/10_state.md R30). -/

namespace Sys2Proof.Machine

/-- `ready` is true when the bit is 0: "chip convention: 0 = ready" (spec/44_mode_state_machine.md R175, conflict C4). -/
def ready (cfg : Cfg) (st : Byte) : Bool := !st.getLsbD cfg.rdyPos

/-- `stdy`, `stby` and `noref` are the raw bits (R175). -/
def stdy (cfg : Cfg) (st : Byte) : Bool := st.getLsbD cfg.stdyPos
@[inherit_doc stdy] def stby (cfg : Cfg) (st : Byte) : Bool := st.getLsbD cfg.stbyPos
@[inherit_doc stdy] def noref (cfg : Cfg) (st : Byte) : Bool := st.getLsbD cfg.norefPos

/-- RDSTAT's payload: `st | (ready << 8) | (stdy << 9) | (stby << 10) | (noref << 11)` (R175). -/
def statusPayload (cfg : Cfg) (st : Byte) : Word64 :=
  (BitVec.ofBool (noref cfg st) ++ BitVec.ofBool (stby cfg st) ++ BitVec.ofBool (stdy cfg st)
    ++ BitVec.ofBool (ready cfg st) ++ st).setWidth 64

/-- WAITRDY's payload: `(polls << 32) | st` (R176). -/
def pollPayload (polls : Nat) (st : Byte) : Word64 := (BitVec.ofNat 64 polls <<< 32) ||| st.setWidth 64

/-- The error numbers (spec/30_encoding.md R84). -/
def Err.code : Err → BitVec 4
  | .invalidRegister => 1
  | .busError => 2
  | .timeout => 3
  | .precisionViolation => 4
  | .invalidContext => 5
  | .illegalCommand => 6

/-- `rsp_status` (spec/30_encoding.md R84). -/
def Response.status : Response → BitVec 4
  | .ok _ => 0
  | .error e => e.code

/-- `rsp_data`, which only an OK response has (spec/30_encoding.md R84; log 14). -/
def Response.data : Response → Option Word64
  | .ok v => some v
  | .error _ => none

end Sys2Proof.Machine
end

