-- ==== Sys2Proof/Machine/Ops.lean ====
section
/-! DEFINITION. The shared operations: shadow access, the bus primitives and the two access primitives of
spec/20_memory.md (R52 to R57), the response, raising an error (spec/60_exceptions.md R198), and the two resets
(spec/41_register_protocol.md R116, spec/70_reset_and_hazards.md R210, R211). -/

namespace Sys2Proof.Machine

/-! ### Shadow registers -/

/-- `shadow[r]` (spec/00_scope.md R12), zero-extended to the widest register. -/
def readShadow (g : ShadowReg) (s : State) : Word24 :=
  match g with
  | .mode => s.mode.setWidth 24
  | .filter => s.filter
  | .offset => s.offset
  | .gain => s.gain.setWidth 24

/-- `shadow[r] <- v` for a `v` that fits the register (spec/00_scope.md R12, spec/42_shadow_store.md R132). -/
def writeShadow (g : ShadowReg) (v : Word24) (s : State) : State :=
  match g with
  | .mode => { s with mode := v.setWidth 16 }
  | .filter => { s with filter := v }
  | .offset => { s with offset := v }
  | .gain => { s with gain := v.setWidth 16 }

/-! ### Responding -/

/-- The operation responds: the response stands on the port and the sequencer is idle (spec/10_state.md R28). -/
def respond (r : Response) (s : State) : State := { s with seq := .idle, response := some r }

/-- `return v` (spec/00_scope.md R12). -/
def reply (v : Word64) (s : State) : State := respond (.ok v) s

/-- `raise e`: the operation ends at once with that error; what has changed stays changed, nothing is saved and control
goes nowhere (spec/00_scope.md R12, spec/60_exceptions.md R198, R199). -/
def raise (e : Err) (s : State) : State := respond (.error e) s

/-- A host operation runs on an idle block. A second operation while one is in progress has no meaning
(spec/70_reset_and_hazards.md R224). -/
def hostOp (body : State → State) (s : State) : Host.Outcome State Fault Refusal :=
  match s.seq with
  | .idle => .next (body s)
  | .run _ => .refused .commandWhileBusy

/-! ### The bus -/

/-- The oracle (spec/20_memory.md R53): the answer to the `Xfer` numbered `n`, scripted or free. Log 4. -/
def State.answer (s : State) (n : Nat) : Answer :=
  match s.answers[n]? with
  | some a => a
  | none => Config.busAnswer n

/-- `Begin` (spec/20_memory.md R52). It always succeeds (R53). -/
def busBegin (s : State) : State := { s with trace := s.trace ++ [.txBegin] }

/-- `End` (spec/20_memory.md R52). It always succeeds (R53). -/
def busEnd (s : State) : State := { s with trace := s.trace ++ [.txEnd] }

/-- The state after the next `Xfer(out)`; its answer is `s.answer s.xfers` (spec/20_memory.md R52, R53). -/
def xfer (out : Byte) (s : State) : State :=
  { s with xfers := s.xfers + 1, trace := s.trace ++ [.xfer out (s.answer s.xfers)] }

/-- Send bytes, discarding what comes back (decision D30), up to the first failure; true if all were sent (R54). -/
def sendBytes : List Byte → State → Bool × State
  | [], s => (true, s)
  | b :: bs, s =>
    match s.answer s.xfers with
    | .byte _ => sendBytes bs (xfer b s)
    | .fail => (false, xfer b s)

/-- Clock out `n` fill bytes, shifting what comes back into the accumulator, up to the first failure (R57). -/
def receiveBytes : Nat → Word24 → State → Option Word24 × State
  | 0, acc, s => (some acc, s)
  | n + 1, acc, s =>
    match s.answer s.xfers with
    | .byte b => receiveBytes n (shiftIn acc b) (xfer Config.readFill s)
    | .fail => (none, xfer Config.readFill s)

/-- One framed transaction that only sends: `Begin`, the bytes, `End`, also after a failure (R54). -/
def sendFramed (bytes : List Byte) (s : State) : Bool × State :=
  let r := sendBytes bytes (busBegin s)
  (r.1, busEnd r.2)

/-- `MemWrite(sel, n, v)` (R56); true if no `Xfer` failed. It changes no shadow. -/
def memWrite (r : Reg) (n : Nat) (v : Word24) (s : State) : Bool × State :=
  sendFramed (cmdByte s.cfg .write r :: wireBytes v n) s

/-- `MemRead(sel, n)` (R57): the value, or none if an `Xfer` failed. The byte received with the command byte is
discarded. -/
def memRead (r : Reg) (n : Nat) (s : State) : Option Word24 × State :=
  let s1 := busBegin s
  match s1.answer s1.xfers with
  | .fail => (none, busEnd (xfer (cmdByte s.cfg .read r) s1))
  | .byte _ =>
    let t := receiveBytes n 0 (xfer (cmdByte s.cfg .read r) s1)
    (t.1, busEnd t.2)

/-- Store a new value in a shadow and send the whole register: the shadow first, so that it stays changed on `BusError`
(spec/41_register_protocol.md R111, spec/42_shadow_store.md R131, conflict C3). -/
def storeRegister (g : ShadowReg) (v : Word24) (payload : Word64) (s : State) : State :=
  let s1 := writeShadow g v s
  let t := memWrite g.reg (nbytes s1.ctx g.reg) (readShadow g s1) s1
  if t.1 then reply payload t.2 else raise .busError t.2

/-- Read a register and go on with its value, or raise `BusError` (spec/41_register_protocol.md R112). -/
def loadRegister (r : Reg) (k : Word24 → State → State) (s : State) : State :=
  let t := memRead r (nbytes s.ctx r) s
  match t.1 with
  | some acc => k acc t.2
  | none => raise .busError t.2

/-! ### Resets -/

/-- The shadows at `RESET_*` and no context loaded: the first five lines of CHIPRST (spec/41_register_protocol.md R116). -/
def toDefaults (s : State) : State :=
  { s with
    mode := s.cfg.resetMode
    filter := s.cfg.resetFilter
    offset := s.cfg.resetOffset
    gain := s.cfg.resetGain
    ctx := { s.ctx with valid := false } }

/-- Block reset (spec/70_reset_and_hazards.md R210, R211): the state of `State.resetWith`, no response to an operation
in progress, no bus event. The configuration (R213), the environment and what the host does next are not the block's and
stay. Log 10, log 18. -/
def blockReset (s : State) : State :=
  { State.resetWith s.cfg with hostIn := s.hostIn, answers := s.answers, xfers := s.xfers }

end Sys2Proof.Machine
end

