-- ==== Sys2Proof/Machine/CommandEncoder.lean ====
section
/-! DEFINITION. The Command Encoder: ENCODE (spec/40_command_encoder.md). -/

namespace Sys2Proof.Machine

/-- ENCODE on an idle block (R100): the command byte, whether or not the register is writable; no bus event. -/
def doEncode (dir : Dir) (sel : Sel) (s : State) : State :=
  match validReg sel with
  | .error e => raise e s
  | .ok r => reply ((cmdByte s.cfg dir r).setWidth 64) s

/-- ENCODE `dir, sel` (R100). -/
def execEncode (dir : Dir) (sel : Sel) (s : State) : Host.Outcome State Fault Refusal := hostOp (doEncode dir sel) s

end Sys2Proof.Machine
end

