-- ==== Sys2Proof/Machine/Conversion.lean ====
section
/-! DEFINITION. The Conversion Engine: SETCTX, GETCTX, CONVERT, RDVOLT (spec/43_conversion.md). All arithmetic is on
mathematical integers (R151); the one rounding is the floor of a division by a positive number, which is what `/` on
`Int` is for a positive divisor. -/

namespace Sys2Proof.Machine

/-- The context invariant (spec/10_state.md R25), which SETCTX checks (R141). -/
def contextOk (cfg : Cfg) (range refMinus refPlus : Word16) : Bool :=
  cfg.rangeSet.contains range && decide (refMinus.toInt < refPlus.toInt)

/-- SETCTX on an idle block (R141): all of the context, only on success; no bus event. -/
def doSetctx (range : Word16) (pol : Polarity) (refMinus refPlus : Word16) (wl : WordLength) (s : State) : State :=
  if contextOk s.cfg range refMinus refPlus then
    reply 0
      { s with
        ctx := { valid := true, wordLength := wl, polarity := pol, range := range, refMinus := refMinus, refPlus := refPlus } }
  else raise .invalidContext s

/-- SETCTX `range, pol, refMinus, refPlus, wl` (R141). -/
def execSetctx (range : Word16) (pol : Polarity) (refMinus refPlus : Word16) (wl : WordLength) (s : State) :
    Host.Outcome State Fault Refusal :=
  hostOp (doSetctx range pol refMinus refPlus wl) s

/-- GETCTX's payload (R142): 0 with no context loaded, else bit 50 and the fields in SETCTX's places. -/
def contextPayload (x : Ctx) : Word64 :=
  if x.valid then ((1 : BitVec 1) ++ x.wordLength.code ++ x.polarity.code ++ x.range ++ x.refPlus ++ x.refMinus).setWidth 64
  else 0

/-- GETCTX on an idle block (R142). -/
def doGetctx (s : State) : State := reply (contextPayload s.ctx) s

/-- GETCTX (R142). -/
def execGetctx (s : State) : Host.Outcome State Fault Refusal := hostOp doGetctx s

/-- `offset_pV` (R147, conflict C6). -/
def offsetPv (cfg : Cfg) (x : Ctx) : Int :=
  match cfg.offsetMode with
  | .zero => 0
  | .refMinus => x.refMinus.toInt * cfg.pvPerMv

/-- The bipolar transfer function (R146): offset binary, scaled by the reference span over the nominal reference. -/
def bipolarVoltage (cfg : Cfg) (x : Ctx) (rawCode : Nat) : Int :=
  let half : Int := 2 ^ (x.wordLength.bits - 1)
  let s : Int := rawCode - half
  let span : Int := x.refPlus.toInt - x.refMinus.toInt
  let num : Int := s * x.range.toNat * span * cfg.pvPerMv
  let den : Int := half * cfg.refNominalMv
  num / den + offsetPv cfg x

/-- The unipolar transfer function (R148): no reference and no offset; the divisor is `2^W - 1`. -/
def unipolarVoltage (cfg : Cfg) (x : Ctx) (rawCode : Nat) : Int :=
  let num : Int := rawCode * x.range.toNat * cfg.pvPerMv
  let den : Int := 2 ^ x.wordLength.bits - 1
  num / den

/-- `toVoltage(rawCode, ctx)`, in picovolts (R143, R145). -/
def toVoltage (cfg : Cfg) (x : Ctx) (rawCode : Nat) : Int :=
  match x.polarity with
  | .bipolar => bipolarVoltage cfg x rawCode
  | .unipolar => unipolarVoltage cfg x rawCode

/-- An exact voltage is an s64 (R145). With the spec's `PV_PER_MV` of 10^9 every voltage is one (R152). -/
def fitsS64 (v : Int) : Bool := decide (-2 ^ 63 ≤ v) && decide (v < 2 ^ 63)

/-- The voltage as the s64 payload (R145; spec/30_encoding.md R84). Where a unit of the result other than the spec's takes
the voltage out of s64, the payload is a free value: R152 gives no saturation or wrap rule. DESIGN CHOICE, log 22. -/
def voltagePayload (cfg : Cfg) (x : Ctx) (rawCode : Nat) : Word64 :=
  if fitsS64 (toVoltage cfg x rawCode) then BitVec.ofInt 64 (toVoltage cfg x rawCode)
  else Config.unstatedVoltage cfg (contextPayload x) rawCode

/-- CONVERT's checks, in this order (R143): a context is loaded, then the code is in range (R144). -/
def checkConvert (x : Ctx) (rawCode : Nat) : Except Err Unit :=
  if !x.valid then .error .invalidContext
  else if 2 ^ x.wordLength.bits ≤ rawCode then .error .precisionViolation
  else .ok ()

/-- CONVERT on an idle block (R143). -/
def doConvert (rawCode : Nat) (s : State) : State :=
  match checkConvert s.ctx rawCode with
  | .error e => raise e s
  | .ok _ => reply (voltagePayload s.cfg s.ctx rawCode) s

/-- CONVERT `rawCode` (R143). -/
def execConvert (rawCode : Nat) (s : State) : Host.Outcome State Fault Refusal := hostOp (doConvert rawCode) s

/-- RDVOLT on an idle block (R150): the read of Data, then the conversion of what was read. -/
def doRdvolt (s : State) : State :=
  if s.ctx.valid then loadRegister .data (fun acc t => reply (voltagePayload t.cfg t.ctx acc.toNat) t) s
  else raise .invalidContext s

/-- RDVOLT (R150). -/
def execRdvolt (s : State) : Host.Outcome State Fault Refusal := hostOp doRdvolt s

end Sys2Proof.Machine
end

