-- ==== Sys2Proof/Machine/ShadowStore.lean ====
section
/-! DEFINITION. The Shadow Register Store: SETFLD (spec/42_shadow_store.md). -/

namespace Sys2Proof.Machine

/-- SETFLD's checks, before any effect (R131, R132): the selector, the mask's width, the bits' width. -/
def checkSetfld (sel : Sel) (bits mask : Word24) : Except Err ShadowReg :=
  match shadowedReg sel with
  | .error e => .error e
  | .ok g =>
    if !fits g mask then .error .invalidRegister
    else if !fits g bits then .error .invalidRegister
    else .ok g

/-- The masked update of a shadow and the write of the whole register (R131): also with an empty mask. -/
def updateField (g : ShadowReg) (bits mask : Word24) (s : State) : State :=
  let new := merge (readShadow g s) bits mask
  storeRegister g new (new.setWidth 64) s

/-- SETFLD on an idle block (R131). -/
def doSetfld (sel : Sel) (bits mask : Word24) (s : State) : State :=
  match checkSetfld sel bits mask with
  | .error e => raise e s
  | .ok g => updateField g bits mask s

/-- SETFLD `sel, bits, mask` (R131). -/
def execSetfld (sel : Sel) (bits mask : Word24) (s : State) : Host.Outcome State Fault Refusal :=
  hostOp (doSetfld sel bits mask) s

end Sys2Proof.Machine
end

