-- ==== Sys2Proof/Machine/ModeMachine.lean ====
section
/-! DEFINITION. The Mode State Machine: SETMODE, GETMODE, RDSTAT, WAITRDY (spec/44_mode_state_machine.md). -/

namespace Sys2Proof.Machine

/-- SETMODE on an idle block (R172): SETFLD of the MD field of Mode. The transition is requested, not confirmed. -/
def doSetmode (m : ModeState) (s : State) : State :=
  updateField .mode ((mdBits s.cfg m).setWidth 24) ((mdMask s.cfg).setWidth 24) s

/-- SETMODE `state` (R172). -/
def execSetmode (m : ModeState) (s : State) : Host.Outcome State Fault Refusal := hostOp (doSetmode m) s

/-- GETMODE on an idle block (R173): the ordinal of the mode last requested or refreshed. -/
def doGetmode (s : State) : State := reply ((modeState s.cfg s.mode).ordinal.setWidth 64) s

/-- GETMODE (R173). -/
def execGetmode (s : State) : Host.Outcome State Fault Refusal := hostOp doGetmode s

/-- RDSTAT on an idle block (R175). -/
def doRdstat (s : State) : State :=
  loadRegister .status (fun acc t => reply (statusPayload t.cfg (acc.setWidth 8)) t) s

/-- RDSTAT (R175). -/
def execRdstat (s : State) : Host.Outcome State Fault Refusal := hostOp doRdstat s

/-- WAITRDY's loop (R176): polls left, polls completed. One framed read of Status per poll; the first read whose READY
bit is 0 ends the wait; a failed poll ends the operation. -/
def pollLoop : Nat → Nat → State → State
  | 0, _, s => raise .timeout s
  | left + 1, polls, s =>
    loadRegister .status
      (fun acc t =>
        if ready t.cfg (acc.setWidth 8) then reply (pollPayload (polls + 1) (acc.setWidth 8)) t
        else pollLoop left (polls + 1) t)
      s

/-- WAITRDY on an idle block (R176). -/
def doWaitrdy (maxPolls : Nat) (s : State) : State := pollLoop maxPolls 0 s

/-- WAITRDY `maxPolls` (R176). -/
def execWaitrdy (maxPolls : Nat) (s : State) : Host.Outcome State Fault Refusal := hostOp (doWaitrdy maxPolls) s

end Sys2Proof.Machine
end

