-- ==== Sys2Proof/Machine/RegisterProtocol.lean ====
section
/-! DEFINITION. The Register Protocol Engine: WRREG, RDREG, REFRESH, CHIPRST, GETSHD (spec/41_register_protocol.md). -/

namespace Sys2Proof.Machine

/-- WRREG's checks, before any effect (R111): the selector, then the width of the value. -/
def checkWrreg (sel : Sel) (value : Word24) : Except Err ShadowReg :=
  match shadowedReg sel with
  | .error e => .error e
  | .ok g => if fits g value then .ok g else .error .invalidRegister

/-- WRREG on an idle block (R111). -/
def doWrreg (sel : Sel) (value : Word24) (s : State) : State :=
  match checkWrreg sel value with
  | .error e => raise e s
  | .ok g => storeRegister g value 0 s

/-- WRREG `sel, value` (R111). -/
def execWrreg (sel : Sel) (value : Word24) (s : State) : Host.Outcome State Fault Refusal := hostOp (doWrreg sel value) s

/-- RDREG's checks (R112): the selector, then, for Data, that a context gives its width. -/
def checkRdreg (sel : Sel) (ctx : Ctx) : Except Err Reg :=
  match validReg sel with
  | .error e => .error e
  | .ok r => if r = .data && !ctx.valid then .error .invalidContext else .ok r

/-- RDREG on an idle block (R112). No shadow changes. -/
def doRdreg (sel : Sel) (s : State) : State :=
  match checkRdreg sel s.ctx with
  | .error e => raise e s
  | .ok r => loadRegister r (fun acc t => reply (acc.setWidth 64) t) s

/-- RDREG `sel` (R112). -/
def execRdreg (sel : Sel) (s : State) : Host.Outcome State Fault Refusal := hostOp (doRdreg sel) s

/-- REFRESH on an idle block (R114): the shadow takes the value read, only on success. -/
def doRefresh (sel : Sel) (s : State) : State :=
  match shadowedReg sel with
  | .error e => raise e s
  | .ok g => loadRegister g.reg (fun acc t => reply (acc.setWidth 64) (writeShadow g acc t)) s

/-- REFRESH `sel` (R114). -/
def execRefresh (sel : Sel) (s : State) : Host.Outcome State Fault Refusal := hostOp (doRefresh sel) s

/-- CHIPRST on an idle block (R116): the shadows and the context first, then four reset bytes in one transaction. -/
def doChiprst (s : State) : State :=
  let t := sendFramed (List.replicate Config.resetCount Config.resetByte) (toDefaults s)
  if t.1 then reply 0 t.2 else raise .busError t.2

/-- CHIPRST (R116). -/
def execChiprst (s : State) : Host.Outcome State Fault Refusal := hostOp doChiprst s

/-- GETSHD on an idle block (R118). -/
def doGetshd (sel : Sel) (s : State) : State :=
  match shadowedReg sel with
  | .error e => raise e s
  | .ok g => reply ((readShadow g s).setWidth 64) s

/-- GETSHD `sel` (R118). -/
def execGetshd (sel : Sel) (s : State) : Host.Outcome State Fault Refusal := hostOp (doGetshd sel) s

end Sys2Proof.Machine
end

