-- ==== Sys2Proof/Machine/Sequencer.lean ====
section
/-! DEFINITION. The sequencer (spec/10_state.md R28): an operation run byte by byte, the other form R29 allows. An
operation is issued (its checks, its effects before the bus, `Begin`), then each `Xfer` is one step, and the last one
ends the transaction and responds. Log 6. -/

namespace Sys2Proof.Machine

/-- The command byte an operation sends, or, for ENCODE, answers with: its direction and register. None for an operation
that has none, and for a selector it refuses. -/
def commandOf : Instr → Option (Dir × Reg)
  | .encode d (.reg r) => some (d, r)
  | .wrreg (.reg r) _ => (shadowOf r).map fun _ => (.write, r)
  | .rdreg (.reg r) => some (.read, r)
  | .refresh (.reg r) => (shadowOf r).map fun _ => (.read, r)
  | .setfld (.reg r) _ _ => (shadowOf r).map fun _ => (.write, r)
  | .setmode _ => some (.write, .mode)
  | .waitrdy _ => some (.read, .status)
  | .rdstat => some (.read, .status)
  | .rdvolt => some (.read, .data)
  | .encode _ .reservedLow | .encode _ .reservedHigh | .wrreg .reservedLow _ | .wrreg .reservedHigh _
  | .rdreg .reservedLow | .rdreg .reservedHigh | .refresh .reservedLow | .refresh .reservedHigh
  | .setfld .reservedLow _ _ | .setfld .reservedHigh _ _ => none
  | .chiprst | .setctx _ _ _ _ _ | .convert _ | .getshd _ | .getmode | .getctx => none
  | .cmdWrStatus | .cmdRdStatus | .cmdWrData | .cmdRdData | .cmdWrMode | .cmdRdMode | .cmdWrFilter | .cmdRdFilter
  | .cmdWrOffset | .cmdRdOffset | .cmdWrGain | .cmdRdGain | .resetByte => none

/-- Is the operation ENCODE, whose command byte goes to the host and not to the bus (spec/30_encoding.md R73)? -/
def isEncode : Instr → Bool
  | .encode _ _ => true
  | .wrreg _ _ | .rdreg _ | .refresh _ | .setfld _ _ _ | .setmode _ | .waitrdy _ | .rdstat | .chiprst
  | .setctx _ _ _ _ _ | .convert _ | .rdvolt | .getshd _ | .getmode | .getctx
  | .cmdWrStatus | .cmdRdStatus | .cmdWrData | .cmdRdData | .cmdWrMode | .cmdRdMode | .cmdWrFilter | .cmdRdFilter
  | .cmdWrOffset | .cmdRdOffset | .cmdWrGain | .cmdRdGain | .resetByte => false

/-- The operation enters the sequencer; no response stands until it responds. -/
def enter (op : Instr) (phase : Phase) (i polls : Nat) (s : State) : State :=
  { s with seq := .run { op := op, phase := phase, i := i, acc := 0, polls := polls }, response := none }

/-- `Begin`, with the operation about to send the command byte to a register (R28, R54). -/
def openCommand (op : Instr) (r : Reg) (polls : Nat) (s : State) : State :=
  enter op .cmd (nbytes s.ctx r) polls (busBegin s)

/-- Issue a host operation: its checks and its effects before the bus, in the order of its own rule. An operation
without bus events is done at once; ENCODE stands with its command byte built and not yet handed over (log 7). -/
def issue (op : Instr) (s : State) : Host.Outcome State Fault Refusal :=
  match op with
  | .encode _ sel =>
    match validReg sel with
    | .error e => .next (raise e s)
    | .ok _ => .next (enter op .cmd 0 0 s)
  | .wrreg sel value =>
    match checkWrreg sel value with
    | .error e => .next (raise e s)
    | .ok g => .next (openCommand op g.reg 0 (writeShadow g value s))
  | .rdreg sel =>
    match checkRdreg sel s.ctx with
    | .error e => .next (raise e s)
    | .ok r => .next (openCommand op r 0 s)
  | .refresh sel =>
    match shadowedReg sel with
    | .error e => .next (raise e s)
    | .ok g => .next (openCommand op g.reg 0 s)
  | .setfld sel bits mask =>
    match checkSetfld sel bits mask with
    | .error e => .next (raise e s)
    | .ok g => .next (openCommand op g.reg 0 (writeShadow g (merge (readShadow g s) bits mask) s))
  | .setmode m =>
    .next (openCommand op .mode 0
      (writeShadow .mode
        (merge (readShadow .mode s) ((mdBits s.cfg m).setWidth 24) ((mdMask s.cfg).setWidth 24)) s))
  | .waitrdy maxPolls => if maxPolls = 0 then .next (raise .timeout s) else .next (openCommand op .status 0 s)
  | .rdstat => .next (openCommand op .status 0 s)
  | .chiprst => .next (enter op .fill Config.resetCount 0 (busBegin (toDefaults s)))
  | .setctx range pol refMinus refPlus wl => .next (doSetctx range pol refMinus refPlus wl s)
  | .convert rawCode => .next (doConvert rawCode s)
  | .rdvolt => if s.ctx.valid then .next (openCommand op .data 0 s) else .next (raise .invalidContext s)
  | .getshd sel => .next (doGetshd sel s)
  | .getmode => .next (doGetmode s)
  | .getctx => .next (doGetctx s)
  | .cmdWrStatus | .cmdRdStatus | .cmdWrData | .cmdRdData | .cmdWrMode | .cmdRdMode | .cmdWrFilter | .cmdRdFilter
  | .cmdWrOffset | .cmdRdOffset | .cmdWrGain | .cmdRdGain | .resetByte => .refused .wireByteNotDue

/-- An `Xfer` failed: `End`, and the operation responds `BusError` (R54). -/
def abort (s : State) : State := raise .busError (busEnd s)

/-- After the last data byte and its `End`: the operation's effect of what it read, and its response. WAITRDY may open its
next poll instead (spec/44_mode_state_machine.md R176). -/
def complete (r : Run) (s : State) : Host.Outcome State Fault Refusal :=
  match r.op with
  | .wrreg _ _ => .next (reply 0 s)
  | .rdreg _ => .next (reply (r.acc.setWidth 64) s)
  | .refresh sel =>
    match shadowedReg sel with
    | .ok g => .next (reply (r.acc.setWidth 64) (writeShadow g r.acc s))
    | .error _ => .fault .malformedSequencer
  | .setfld sel _ _ =>
    match shadowedReg sel with
    | .ok g => .next (reply ((readShadow g s).setWidth 64) s)
    | .error _ => .fault .malformedSequencer
  | .setmode _ => .next (reply ((readShadow .mode s).setWidth 64) s)
  | .waitrdy maxPolls =>
    let polls := r.polls + 1
    if ready s.cfg (r.acc.setWidth 8) then .next (reply (pollPayload polls (r.acc.setWidth 8)) s)
    else if polls < maxPolls then .next (openCommand r.op .status polls s)
    else .next (raise .timeout s)
  | .rdstat => .next (reply (statusPayload s.cfg (r.acc.setWidth 8)) s)
  | .rdvolt => .next (reply (voltagePayload s.cfg s.ctx r.acc.toNat) s)
  | .chiprst | .encode _ _ | .setctx _ _ _ _ _ | .convert _ | .getshd _ | .getmode | .getctx => .fault .malformedSequencer
  | .cmdWrStatus | .cmdRdStatus | .cmdWrData | .cmdRdData | .cmdWrMode | .cmdRdMode | .cmdWrFilter | .cmdRdFilter
  | .cmdWrOffset | .cmdRdOffset | .cmdWrGain | .cmdRdGain | .resetByte => .fault .malformedSequencer

/-- One data byte has gone out, `left` remain: `End` and the operation's completion, or the next byte (R28, R54). -/
def afterByte (r : Run) (left : Nat) (s : State) : Host.Outcome State Fault Refusal :=
  match left with
  | 0 => complete { r with i := 0 } (busEnd s)
  | n + 1 => .next { s with seq := .run { r with i := n + 1 } }

/-- The data byte that goes out when `left` bytes of a register remain after it: the shadow's own byte, most significant
first (R56). -/
def dataByte (g : ShadowReg) (left : Nat) (s : State) : Byte := (readShadow g s).extractLsb' (8 * left) 8

/-- One data byte of an operation in its data phase (R56, R57). Data bytes have no encoding of their own (R78), so this
is no instruction. -/
def advanceData (r : Run) (s : State) : Host.Outcome State Fault Refusal :=
  match r.i, commandOf r.op with
  | left + 1, some (.write, reg) =>
    match shadowOf reg with
    | none => .fault .malformedSequencer
    | some g =>
      match s.answer s.xfers with
      | .fail => .next (abort (xfer (dataByte g left s) s))
      | .byte _ => afterByte r left (xfer (dataByte g left s) s)
  | left + 1, some (.read, _) =>
    match s.answer s.xfers with
    | .fail => .next (abort (xfer Config.readFill s))
    | .byte b => afterByte { r with acc := shiftIn r.acc b } left (xfer Config.readFill s)
  | 0, some _ => .fault .malformedSequencer
  | _, none => .fault .malformedSequencer

end Sys2Proof.Machine
end

