-- ==== Sys2Proof/Machine/WireBytes.lean ====
section
/-! DEFINITION. The wire bytes as instructions (spec/30_encoding.md R73, R76): what the block does when it puts one on the
wire. Each is one step of the sequencer (spec/10_state.md R28). Log 7, log 8. -/

namespace Sys2Proof.Machine

/-- The command byte leaves the Command Encoder: to the host as ENCODE's payload (spec/40_command_encoder.md R100), or
onto the bus as the first `Xfer` of its transaction, what comes back being discarded (spec/20_memory.md R56, R57). -/
def emitCommand (d : Dir) (g : Reg) (r : Run) (s : State) : State :=
  if isEncode r.op then reply ((cmdByte s.cfg d g).setWidth 64) s
  else
    match s.answer s.xfers with
    | .fail => abort (xfer (cmdByte s.cfg d g) s)
    | .byte _ => { xfer (cmdByte s.cfg d g) s with seq := .run { r with phase := .data } }

/-- A command byte is sent only by an operation that stands at its command phase with that direction and register
(spec/30_encoding.md R75). -/
def sendCommand (d : Dir) (g : Reg) (s : State) : Host.Outcome State Fault Refusal :=
  match s.seq with
  | .idle => .refused .wireByteNotDue
  | .run r =>
    if r.phase = .cmd && commandOf r.op = some (d, g) then .next (emitCommand d g r s) else .refused .wireByteNotDue

/-- CMD_WR_STATUS, `0x00`: produced by ENCODE only, never sent (R73). -/
def execCmdWrStatus (s : State) : Host.Outcome State Fault Refusal := sendCommand .write .status s

/-- CMD_RD_STATUS, `0x30` (R73). -/
def execCmdRdStatus (s : State) : Host.Outcome State Fault Refusal := sendCommand .read .status s

/-- CMD_WR_DATA, `0x01`: produced by ENCODE only, never sent (R73). -/
def execCmdWrData (s : State) : Host.Outcome State Fault Refusal := sendCommand .write .data s

/-- CMD_RD_DATA, `0x31` (R73). -/
def execCmdRdData (s : State) : Host.Outcome State Fault Refusal := sendCommand .read .data s

/-- CMD_WR_MODE, `0x02` (R73). -/
def execCmdWrMode (s : State) : Host.Outcome State Fault Refusal := sendCommand .write .mode s

/-- CMD_RD_MODE, `0x32` (R73). -/
def execCmdRdMode (s : State) : Host.Outcome State Fault Refusal := sendCommand .read .mode s

/-- CMD_WR_FILTER, `0x03` (R73). -/
def execCmdWrFilter (s : State) : Host.Outcome State Fault Refusal := sendCommand .write .filter s

/-- CMD_RD_FILTER, `0x33` (R73). -/
def execCmdRdFilter (s : State) : Host.Outcome State Fault Refusal := sendCommand .read .filter s

/-- CMD_WR_OFFSET, `0x05` (R73). -/
def execCmdWrOffset (s : State) : Host.Outcome State Fault Refusal := sendCommand .write .offset s

/-- CMD_RD_OFFSET, `0x35` (R73). -/
def execCmdRdOffset (s : State) : Host.Outcome State Fault Refusal := sendCommand .read .offset s

/-- CMD_WR_GAIN, `0x06` (R73). -/
def execCmdWrGain (s : State) : Host.Outcome State Fault Refusal := sendCommand .write .gain s

/-- CMD_RD_GAIN, `0x36` (R73). -/
def execCmdRdGain (s : State) : Host.Outcome State Fault Refusal := sendCommand .read .gain s

/-- One reset byte of CHIPRST goes out, `left` remain: the next one, or, after the last, `End` and the response; on a
failure `End` and `BusError` (R76; spec/20_memory.md R54, spec/41_register_protocol.md R116). -/
def sendReset (r : Run) (left : Nat) (s : State) : State :=
  match s.answer s.xfers, left with
  | .fail, _ => abort (xfer Config.resetByte s)
  | .byte _, 0 => reply 0 (busEnd (xfer Config.resetByte s))
  | .byte _, n + 1 => { xfer Config.resetByte s with seq := .run { r with i := n + 1 } }

/-- A reset byte in the fill phase, where one is left to send (R76). -/
def emitReset (r : Run) (s : State) : Host.Outcome State Fault Refusal :=
  match r.i with
  | 0 => .refused .wireByteNotDue
  | left + 1 => .next (sendReset r left s)

/-- RESET_BYTE, `0xFF` (R76): sent only by CHIPRST. -/
def execResetByte (s : State) : Host.Outcome State Fault Refusal :=
  match s.seq with
  | .idle => .refused .wireByteNotDue
  | .run r => if r.phase = .fill && r.op = .chiprst then emitReset r s else .refused .wireByteNotDue

end Sys2Proof.Machine
end

