-- ==== Sys2Proof/Machine/Dispatch.lean ====
section
/-! DEFINITION. The dispatch: one arm per instruction, each one call of its meaning. -/

namespace Sys2Proof.Machine

def exec (i : Instr) (s : State) : Host.Outcome State Fault Refusal :=
  match i with
  | .encode dir sel => Sys2Proof.Machine.execEncode dir sel s
  | .wrreg sel value => Sys2Proof.Machine.execWrreg sel value s
  | .rdreg sel => Sys2Proof.Machine.execRdreg sel s
  | .refresh sel => Sys2Proof.Machine.execRefresh sel s
  | .setfld sel bits mask => Sys2Proof.Machine.execSetfld sel bits mask s
  | .setmode m => Sys2Proof.Machine.execSetmode m s
  | .waitrdy maxPolls => Sys2Proof.Machine.execWaitrdy maxPolls s
  | .rdstat => Sys2Proof.Machine.execRdstat s
  | .chiprst => Sys2Proof.Machine.execChiprst s
  | .setctx range pol refMinus refPlus wl => Sys2Proof.Machine.execSetctx range pol refMinus refPlus wl s
  | .convert rawCode => Sys2Proof.Machine.execConvert rawCode s
  | .rdvolt => Sys2Proof.Machine.execRdvolt s
  | .getshd sel => Sys2Proof.Machine.execGetshd sel s
  | .getmode => Sys2Proof.Machine.execGetmode s
  | .getctx => Sys2Proof.Machine.execGetctx s
  | .cmdWrStatus => Sys2Proof.Machine.execCmdWrStatus s
  | .cmdRdStatus => Sys2Proof.Machine.execCmdRdStatus s
  | .cmdWrData => Sys2Proof.Machine.execCmdWrData s
  | .cmdRdData => Sys2Proof.Machine.execCmdRdData s
  | .cmdWrMode => Sys2Proof.Machine.execCmdWrMode s
  | .cmdRdMode => Sys2Proof.Machine.execCmdRdMode s
  | .cmdWrFilter => Sys2Proof.Machine.execCmdWrFilter s
  | .cmdRdFilter => Sys2Proof.Machine.execCmdRdFilter s
  | .cmdWrOffset => Sys2Proof.Machine.execCmdWrOffset s
  | .cmdRdOffset => Sys2Proof.Machine.execCmdRdOffset s
  | .cmdWrGain => Sys2Proof.Machine.execCmdWrGain s
  | .cmdRdGain => Sys2Proof.Machine.execCmdRdGain s
  | .resetByte => Sys2Proof.Machine.execResetByte s

end Sys2Proof.Machine
end

