-- ==== Sys2Proof/Machine/Fetch.lean ====
section
/-! DEFINITION. Where the next instruction comes from: the host port when the sequencer is idle
(spec/30_encoding.md R80), the sequencer itself when an operation runs byte by byte (spec/10_state.md R28). There is no
instruction memory (spec/20_memory.md R64). -/

namespace Sys2Proof.Machine

/-- What one step is to do. -/
inductive Fetched where
  /-- run an instruction in a state -/
  | instr (i : Instr) (s : State)
  /-- no instruction runs: this is the step's outcome -/
  | settled (o : Host.Outcome State Fault Refusal)

/-- A command word is taken (spec/30_encoding.md R80). One that spells no operation is `IllegalCommand`, before every
other check (R85; spec/60_exceptions.md R197). -/
def serve (grain : Grain) (cw : Word64) (s : State) : Fetched :=
  match decode s.cfg (.host cw) with
  | .error _ => .settled (.next (raise .illegalCommand s))
  | .ok i =>
    match grain with
    | .operation => .instr i s
    | .byte => .settled (issue i s)

/-- A byte that goes out as an instruction is read by the wire decoder. -/
def serveWire (b : Byte) (s : State) : Fetched :=
  match decode s.cfg (.wire b) with
  | .ok i => .instr i s
  | .error _ => .settled (.fault .malformedSequencer)

/-- The next byte of the operation in progress (spec/10_state.md R28): its command byte, a data byte, a reset byte. -/
def nextByte (r : Run) (s : State) : Fetched :=
  match r.phase with
  | .cmd =>
    match commandOf r.op with
    | some (d, g) => serveWire (cmdByte s.cfg d g) s
    | none => .settled (.fault .malformedSequencer)
  | .data => .settled (advanceData r s)
  | .fill =>
    if r.op = .chiprst && 0 < r.i then serveWire Config.resetByte s else .settled (.fault .malformedSequencer)

/-- What the next step does. `rst` acts at once (spec/70_reset_and_hazards.md R210); a command presented without waiting
while an operation runs has no meaning (R224); a command that waits does not disturb the operation; an idle block with
no command stays as it is (spec/30_encoding.md R80). Log 5, log 18. -/
def fetch (s : State) : Fetched :=
  match s.hostIn, s.seq with
  | .reset :: rest, _ => .settled (.next (blockReset { s with hostIn := rest }))
  | .command grain cw :: rest, .idle => serve grain cw { s with hostIn := rest }
  | .intrude cw :: rest, .idle => serve .operation cw { s with hostIn := rest }
  | .quiet :: rest, .idle => .settled (.next { s with hostIn := rest })
  | [], .idle => .settled (.next s)
  | .command _ _ :: _, .run r => nextByte r s
  | .intrude _ :: _, .run _ => .settled (.refused .commandWhileBusy)
  | .quiet :: rest, .run r => nextByte r { s with hostIn := rest }
  | [], .run r => nextByte r s

/-- An operation that is about to send a given command byte: a read of the register, or a write of the shadow's own
value; the two write bytes that are never sent (spec/30_encoding.md R73) are ENCODE's. Log 24. -/
def senderOf (d : Dir) (r : Reg) (s : State) : Instr :=
  match d with
  | .read => .rdreg (.reg r)
  | .write =>
    match shadowOf r with
    | some g => .wrreg (.reg r) (readShadow g s)
    | none => .encode .write (.reg r)

/-- A sequencer that is about to send the byte `b`, and a silent host: what a wire byte needs in order to be the next
instruction. A byte that is no instruction is not placed. The byte of a read of Data opens RDREG Data with the word length
that stands in the context, loaded or not: the spec gives Data no width without a context (spec/20_memory.md R55), and no
host operation begins such a read (R55; spec/41_register_protocol.md R112). DESIGN CHOICE, log 23. The reset byte opens
CHIPRST at its first reset byte with the shadows and the context as they stand, where an issued CHIPRST has reset them before
it sends one (spec/41_register_protocol.md R116): placed where they are not reset, it can answer OK with a context loaded. An
operation in progress is dropped, its transaction not closed, and so is what the host was about to do. DESIGN CHOICE,
log 24. -/
def placeWire (b : Byte) (s : State) : State :=
  match decode s.cfg (.wire b) with
  | .error _ => s
  | .ok i =>
    match i.wireCommand with
    | some (d, r) =>
      let op := senderOf d r s
      let t := if isEncode op then enter op .cmd 0 0 s else openCommand op r 0 s
      { t with hostIn := [] }
    | none => { enter .chiprst .fill Config.resetCount 0 (busBegin s) with hostIn := [] }

/-- A command word on the host port of an idle block. A block that is not idle is made idle: the operation in progress is
dropped with no response, and its transaction is not closed, since the spec gives a second command no meaning
(spec/70_reset_and_hazards.md R224). What the host was about to do is dropped too. DESIGN CHOICE, log 24. -/
def placeHost (cw : Word64) (s : State) : State := { s with seq := .idle, hostIn := [.command .operation cw] }

end Sys2Proof.Machine
end

