-- ==== Sys2Proof/Machine/Step.lean ====
section
/-! DEFINITION. One step of the machine. -/

namespace Sys2Proof.Machine

/-- One step: the fetched instruction runs, or the step is what `fetch` settled. -/
def step (s : State) : Host.Outcome State Fault Refusal :=
  match fetch s with
  | .instr i t => exec i t
  | .settled o => o

/-- The host's placement of an instruction where the next step fetches it: a row of 8 bits is a byte the sequencer is
about to send, a longer one a command word on the host port (log 5). -/
def State.withFetchWord (s : State) (nbits w : Nat) : State :=
  if nbits ≤ 8 then placeWire (BitVec.ofNat 8 w) s else placeHost (BitVec.ofNat 64 w) s

end Sys2Proof.Machine
end

