-- ==== Sys2Proof/Machine/Assembler.lean ====
section
/-! DEFINITION. The textual notation of the host operations (spec/30_encoding.md R87). No part of the machine reads it; it
is the spelling of the spec's own programs: a parser of lines, and a printer of them. Log 21. -/

namespace Sys2Proof

/-- The value of a digit in a base, if it is one. -/
def digitOf (base : Nat) (c : Char) : Option Nat :=
  let v :=
    if '0' ≤ c ∧ c ≤ '9' then c.toNat - '0'.toNat
    else if 'a' ≤ c ∧ c ≤ 'f' then c.toNat - 'a'.toNat + 10
    else if 'A' ≤ c ∧ c ≤ 'F' then c.toNat - 'A'.toNat + 10
    else base
  if v < base then some v else none

/-- Digits in a base, most significant first, after the value of those already read. -/
def digitsFrom (base : Nat) : Nat → List Char → Option Nat
  | acc, [] => some acc
  | acc, c :: cs =>
    match digitOf base c with
    | some d => digitsFrom base (acc * base + d) cs
    | none => none

/-- "Numbers are decimal or `0x` hexadecimal or `0b` binary" (R87). -/
def parseNumber : List Char → Option Nat
  | '0' :: 'x' :: c :: cs => digitsFrom 16 0 (c :: cs)
  | '0' :: 'b' :: c :: cs => digitsFrom 2 0 (c :: cs)
  | c :: cs => digitsFrom 10 0 (c :: cs)
  | [] => none

/-- A number that fits an unsigned field. -/
def parseUnsigned (bits : Nat) (cs : List Char) : Option Nat := (parseNumber cs).filter (· < 2 ^ bits)

/-- A number that fits a two's complement 16-bit field, a minus sign before a negative one (log 21). -/
def parseSigned : List Char → Option Word16
  | '-' :: cs => ((parseNumber cs).filter (· ≤ 2 ^ 15)).map fun n => -BitVec.ofNat 16 n
  | cs => (parseUnsigned 15 cs).map (BitVec.ofNat 16)

/-- A selector: "a register name ... or `#n` for a raw 3-bit code" (R87). -/
def parseSel (sels : SelCodes) (cs : List Char) : Option Sel :=
  match cs with
  | '#' :: n => (parseUnsigned 3 n).map fun k => Sel.ofCode sels (BitVec.ofNat 3 k)
  | _ =>
    match String.ofList cs with
    | "Status" => some (.reg .status)
    | "Data" => some (.reg .data)
    | "Mode" => some (.reg .mode)
    | "Filter" => some (.reg .filter)
    | "Offset" => some (.reg .offset)
    | "Gain" => some (.reg .gain)
    | _ => none

/-- "`dir` is `wr` or `rd`" (R87). -/
def parseDir (cs : List Char) : Option Dir :=
  match String.ofList cs with
  | "wr" => some .write
  | "rd" => some .read
  | _ => none

/-- "`pol` is `bip` or `uni`" (R87). -/
def parsePol (cs : List Char) : Option Polarity :=
  match String.ofList cs with
  | "bip" => some .bipolar
  | "uni" => some .unipolar
  | _ => none

/-- "`wl` written 16 or 24" (R87). -/
def parseWordLength (cs : List Char) : Option WordLength :=
  match parseNumber cs with
  | some 16 => some .w16
  | some 24 => some .w24
  | _ => none

/-- "A ModeState operand is its name" (R87; spec/10_state.md R26). -/
def parseMode (cs : List Char) : Option ModeState :=
  match String.ofList cs with
  | "Idle" => some .idle
  | "Standby" => some .standby
  | "ConvertContinuous" => some .convertContinuous
  | "ConvertSingle" => some .convertSingle
  | "CalInternalZero" => some .calInternalZero
  | "CalInternalFull" => some .calInternalFull
  | "CalSystemZero" => some .calSystemZero
  | "CalSystemFull" => some .calSystemFull
  | _ => none

/-- A mnemonic and its operands, in the order of R87. -/
def parseOperation (sels : SelCodes) (mnemonic : String) (operands : List (List Char)) : Option Instr :=
  match mnemonic, operands with
  | "ENCODE", [d, r] => do return .encode (← parseDir d) (← parseSel sels r)
  | "WRREG", [r, v] => do return .wrreg (← parseSel sels r) (BitVec.ofNat 24 (← parseUnsigned 24 v))
  | "RDREG", [r] => do return .rdreg (← parseSel sels r)
  | "REFRESH", [r] => do return .refresh (← parseSel sels r)
  | "SETFLD", [r, b, m] => do
    return .setfld (← parseSel sels r) (BitVec.ofNat 24 (← parseUnsigned 24 b)) (BitVec.ofNat 24 (← parseUnsigned 24 m))
  | "SETMODE", [m] => do return .setmode (← parseMode m)
  | "WAITRDY", [n] => do return .waitrdy (← parseUnsigned 32 n)
  | "RDSTAT", [] => some .rdstat
  | "CHIPRST", [] => some .chiprst
  | "SETCTX", [r, p, a, b, w] => do
    return .setctx (BitVec.ofNat 16 (← parseUnsigned 16 r)) (← parsePol p) (← parseSigned a) (← parseSigned b)
      (← parseWordLength w)
  | "CONVERT", [c] => do return .convert (← parseUnsigned 32 c)
  | "RDVOLT", [] => some .rdvolt
  | "GETSHD", [r] => do return .getshd (← parseSel sels r)
  | "GETMODE", [] => some .getmode
  | "GETCTX", [] => some .getctx
  | _, _ => none

/-- A blank between the words of a line. -/
def isBlank (c : Char) : Bool := c == ' ' || c == '\t'

/-- Text without the blanks around it. -/
def trimBlanks (cs : List Char) : List Char := ((cs.dropWhile isBlank).reverse.dropWhile isBlank).reverse

/-- The operands of a line, parted by commas; none where the line has none. -/
def splitOperands (cs : List Char) : List (List Char) :=
  if cs = [] then [] else (cs.splitOn ',').map trimBlanks

/-- The operation on a line, "`MNEMONIC operand, operand, ...`; `;` starts a comment" (R87); none where the line holds
none in this notation. -/
def parseLine (cfg : Cfg) (line : String) : Option Instr :=
  let text := trimBlanks (line.toList.takeWhile (· != ';'))
  parseOperation cfg.sels (String.ofList (text.takeWhile (!isBlank ·)))
    (splitOperands (trimBlanks (text.dropWhile (!isBlank ·))))

/-- The command word of a line. -/
def assemble (cfg : Cfg) (line : String) : Option Code := (parseLine cfg line).map (encode cfg)

/-! ### Printing -/

/-- The three ways R87 writes a number. -/
inductive Radix where
  | decimal
  | hexadecimal
  | binary
deriving DecidableEq, Repr

/-- The base of the digits. -/
def Radix.base : Radix → Nat
  | .decimal => 10
  | .hexadecimal => 16
  | .binary => 2

/-- What stands before the digits. -/
def Radix.mark : Radix → List Char
  | .decimal => []
  | .hexadecimal => ['0', 'x']
  | .binary => ['0', 'b']

/-- A digit below 16. -/
def digitChar (d : Nat) : Char := if d < 10 then Char.ofNat ('0'.toNat + d) else Char.ofNat ('a'.toNat + (d - 10))

/-- A number in a base, in at most so many digits, most significant first, without leading zeros. -/
def digitsOf (base : Nat) : Nat → Nat → List Char
  | 0, _ => []
  | k + 1, n => (if n < base then [] else digitsOf base k (n / base)) ++ [digitChar (n % base)]

/-- A number as R87 writes it; 32 digits hold every operand. -/
def numberText (x : Radix) (n : Nat) : List Char := x.mark ++ digitsOf x.base 32 n

/-- A reference in millivolts, a minus sign before a negative one (log 21). -/
def signedText (x : Radix) (v : Word16) : List Char :=
  if v.toInt < 0 then '-' :: numberText x v.toInt.natAbs else numberText x v.toInt.natAbs

/-- The name of a register (R87). -/
def Reg.name : Reg → String
  | .status => "Status"
  | .data => "Data"
  | .mode => "Mode"
  | .filter => "Filter"
  | .offset => "Offset"
  | .gain => "Gain"

/-- A selector operand: a register's name, or `#n` (R87). -/
def selText (sels : SelCodes) (x : Radix) : Sel → List Char
  | .reg r => r.name.toList
  | .reservedLow => '#' :: numberText x (Sel.reservedLow.code sels).toNat
  | .reservedHigh => '#' :: numberText x (Sel.reservedHigh.code sels).toNat

/-- The name of a ModeState (R87; spec/10_state.md R26). -/
def ModeState.name : ModeState → String
  | .idle => "Idle"
  | .standby => "Standby"
  | .convertContinuous => "ConvertContinuous"
  | .convertSingle => "ConvertSingle"
  | .calInternalZero => "CalInternalZero"
  | .calInternalFull => "CalInternalFull"
  | .calSystemZero => "CalSystemZero"
  | .calSystemFull => "CalSystemFull"

/-- `dir`, `pol` and `wl` (R87). -/
def Dir.name : Dir → String
  | .write => "wr"
  | .read => "rd"
@[inherit_doc Dir.name]
def Polarity.name : Polarity → String
  | .bipolar => "bip"
  | .unipolar => "uni"
@[inherit_doc Dir.name]
def WordLength.name : WordLength → String
  | .w16 => "16"
  | .w24 => "24"

/-- The mnemonic and the operands of a host operation, in the order of R87; none for a byte on the wire. -/
def operationText (sels : SelCodes) (x : Radix) : Instr → Option (String × List (List Char))
  | .encode dir sel => some ("ENCODE", [dir.name.toList, selText sels x sel])
  | .wrreg sel value => some ("WRREG", [selText sels x sel, numberText x value.toNat])
  | .rdreg sel => some ("RDREG", [selText sels x sel])
  | .refresh sel => some ("REFRESH", [selText sels x sel])
  | .setfld sel bits mask => some ("SETFLD", [selText sels x sel, numberText x bits.toNat, numberText x mask.toNat])
  | .setmode state => some ("SETMODE", [state.name.toList])
  | .waitrdy maxPolls => some ("WAITRDY", [numberText x maxPolls])
  | .rdstat => some ("RDSTAT", [])
  | .chiprst => some ("CHIPRST", [])
  | .setctx range pol refMinus refPlus wl =>
    some ("SETCTX",
      [numberText x range.toNat, pol.name.toList, signedText x refMinus, signedText x refPlus, wl.name.toList])
  | .convert rawCode => some ("CONVERT", [numberText x rawCode])
  | .rdvolt => some ("RDVOLT", [])
  | .getshd sel => some ("GETSHD", [selText sels x sel])
  | .getmode => some ("GETMODE", [])
  | .getctx => some ("GETCTX", [])
  | .cmdWrStatus | .cmdRdStatus | .cmdWrData | .cmdRdData | .cmdWrMode | .cmdRdMode | .cmdWrFilter | .cmdRdFilter
  | .cmdWrOffset | .cmdRdOffset | .cmdWrGain | .cmdRdGain | .resetByte => none

/-- Operands parted by a comma and a blank. -/
def joinOperands : List (List Char) → List Char
  | [] => []
  | [a] => a
  | a :: b :: rest => a ++ ',' :: ' ' :: joinOperands (b :: rest)

/-- The line of a host operation, "`MNEMONIC operand, operand, ...`" (R87); none for a byte on the wire. -/
def lineText (cfg : Cfg) (x : Radix) (i : Instr) : Option (List Char) :=
  (operationText cfg.sels x i).map fun p =>
    p.1.toList ++ (if p.2 = [] then [] else ' ' :: joinOperands p.2)

end Sys2Proof
end

