-- ==== Sys2Proof/Safety.lean ====
section
/-! DEFINITION. What counts as a safe run of the block: the framing of the bus (spec/20_memory.md R54), the invariant of
the state, the bus record of one transaction, and the perfect loopback environment (spec/20_memory.md R66). -/

namespace Sys2Proof.Machine

/-! ### Framing of the bus -/

/-- Where the bus stands after a sequence of events. -/
inductive BusPhase where
  /-- no transaction is open -/
  | closed
  /-- `Begin` and no `Xfer` yet -/
  | fresh
  /-- a command byte was sent -/
  | inside
  /-- this many reset bytes were sent -/
  | filling (k : Nat)
  /-- an `Xfer` failed -/
  | failed
deriving DecidableEq, Repr

/-- A command byte the block sends: one of the ten of spec/30_encoding.md R73 that are not the encoder's alone, a read of
any register or a write of a shadowed one. -/
def sendable (cfg : Cfg) (b : Byte) : Bool :=
  allRegs.any fun r => b == cmdByte cfg .read r || ((shadowOf r).isSome && b == cmdByte cfg .write r)

/-- One more bus event, where the framing allows it: one `Begin`, then a command byte and data bytes, or exactly four
reset bytes, nothing after a failed `Xfer` but `End` (spec/20_memory.md R54, spec/30_encoding.md R75, R76). -/
def BusPhase.next (cfg : Cfg) : BusPhase → BusEvent → Option BusPhase
  | .closed, .txBegin => some .fresh
  | .fresh, .xfer out (.byte _) =>
    if out = Config.resetByte then some (.filling 1) else if sendable cfg out then some .inside else none
  | .fresh, .xfer out .fail => if out = Config.resetByte || sendable cfg out then some .failed else none
  | .inside, .xfer _ (.byte _) => some .inside
  | .inside, .xfer _ .fail => some .failed
  | .inside, .txEnd => some .closed
  | .filling k, .xfer out a =>
    if out = Config.resetByte && decide (k < Config.resetCount) then
      match a with
      | .byte _ => some (.filling (k + 1))
      | .fail => some .failed
    else none
  | .filling k, .txEnd => if k = Config.resetCount then some .closed else none
  | .failed, .txEnd => some .closed
  | .closed, .xfer _ _ | .closed, .txEnd | .fresh, .txBegin | .fresh, .txEnd | .inside, .txBegin | .filling _, .txBegin
  | .failed, .txBegin | .failed, .xfer _ _ => none

/-- Where the bus stands after a trace; none if the trace breaks the framing. -/
def busAfter (cfg : Cfg) : BusPhase → List BusEvent → Option BusPhase
  | p, [] => some p
  | p, e :: es =>
    match p.next cfg e with
    | some q => busAfter cfg q es
    | none => none

/-! ### The invariant -/

/-- The context invariant (spec/10_state.md R25): it is asked of a loaded context only. -/
def ctxOk (cfg : Cfg) (x : Ctx) : Bool := !x.valid || contextOk cfg x.range x.refMinus x.refPlus

/-- The operation has passed its own checks: what `issue` asks before an operation may run. -/
def admitted (s : State) : Instr → Bool
  | .encode _ sel => (validReg sel).isOk
  | .wrreg sel value => match checkWrreg sel value with
    | .ok g => readShadow g s == value
    | .error _ => false
  | .rdreg sel => (checkRdreg sel s.ctx).isOk
  | .refresh sel => (shadowedReg sel).isOk
  | .setfld sel bits mask => match checkSetfld sel bits mask with
    | .ok g => (readShadow g s &&& mask) == (bits &&& mask)
    | .error _ => false
  | .setmode m => modeState s.cfg s.mode == m
  | .waitrdy maxPolls => decide (0 < maxPolls) && decide (maxPolls < 2 ^ 32)
  | .rdstat => true
  | .chiprst => !s.ctx.valid
  | .rdvolt => s.ctx.valid
  | .setctx _ _ _ _ _ | .convert _ | .getshd _ | .getmode | .getctx => false
  | .cmdWrStatus | .cmdRdStatus | .cmdWrData | .cmdRdData | .cmdWrMode | .cmdRdMode | .cmdWrFilter | .cmdRdFilter
  | .cmdWrOffset | .cmdRdOffset | .cmdWrGain | .cmdRdGain | .resetByte => false

/-- The polls completed are below the bound, and 0 outside WAITRDY (spec/44_mode_state_machine.md R176). -/
def pollsOk (r : Run) : Bool :=
  match r.op with
  | .waitrdy maxPolls => decide (r.polls < maxPolls)
  | _ => r.polls == 0

/-- How many data or fill bytes the operation moves (spec/10_state.md R28); ENCODE moves none. -/
def bytesOf (s : State) (op : Instr) : Nat :=
  if op = .chiprst then Config.resetCount
  else if isEncode op then 0
  else match commandOf op with
    | some (_, r) => nbytes s.ctx r
    | none => 0

/-- The sequencer is in a state that an operation reaches (spec/10_state.md R28): the phase is one the operation has,
`i` and `acc` are in range, and the operation has passed its checks. -/
def runOk (s : State) (r : Run) : Bool :=
  admitted s r.op && pollsOk r &&
  match r.phase with
  | .cmd => (commandOf r.op).isSome && r.i == bytesOf s r.op && r.acc == 0
  | .data => (commandOf r.op).isSome && !isEncode r.op && decide (1 ≤ r.i) && decide (r.i ≤ bytesOf s r.op)
      && decide (r.acc.toNat < 2 ^ (8 * (bytesOf s r.op - r.i)))
  | .fill => r.op == .chiprst && decide (1 ≤ r.i) && decide (r.i ≤ Config.resetCount) && r.acc == 0

/-- Where the bus stands in a sequencer state (spec/10_state.md R34): a transaction is open from `Begin` to `End` of an
operation in progress, and never outside one. -/
def busOf : Seq → BusPhase
  | .idle => .closed
  | .run r =>
    match r.phase with
    | .cmd => if isEncode r.op then .closed else .fresh
    | .data => .inside
    | .fill => if r.i = Config.resetCount then .fresh else .filling (Config.resetCount - r.i)

/-- The invariant of the machine: a well-formed configuration (R9), the context invariant (R25), a sequencer state that
an operation reaches (R28) with no response standing, and a bus record framed as the sequencer says (R34, R54). -/
def StateOk (s : State) : Bool :=
  s.cfg.wf && ctxOk s.cfg s.ctx
    && (match s.seq with
      | .idle => true
      | .run r => runOk s r && s.response == none)
    && busAfter s.cfg .closed s.trace == some (busOf s.seq)

/-! ### The bus record of a transaction -/

/-- The next answers of the environment: the one that the `k`-th `Xfer` from here gets. -/
def State.nextAnswer (s : State) (k : Nat) : Answer := s.answer (s.xfers + k)

/-- The next `n` `Xfer`s succeed. -/
def State.allAnswered (s : State) (n : Nat) : Prop := ∀ k < n, s.nextAnswer k ≠ .fail

/-- The `k`-th `Xfer` from here is the first that fails. -/
def State.failsAt (s : State) (k : Nat) : Prop := s.allAnswered k ∧ s.nextAnswer k = .fail

/-- The byte that the `k`-th `Xfer` from here receives (0 where it fails, which no statement uses). -/
def State.nextByte (s : State) (k : Nat) : Byte :=
  match s.nextAnswer k with
  | .byte b => b
  | .fail => 0

/-- The `Xfer` events that send these bytes, the first of them the `k`-th from here. -/
def State.xferEvents (s : State) : Nat → List Byte → List BusEvent
  | _, [] => []
  | k, b :: bs => .xfer b (s.nextAnswer k) :: s.xferEvents (k + 1) bs

/-- The state after one framed transaction that sends these bytes, nothing else changed: `Begin`, an `Xfer` each, `End`
(spec/20_memory.md R54). -/
def State.afterTransaction (s : State) (bytes : List Byte) : State :=
  { s with
    xfers := s.xfers + bytes.length
    trace := s.trace ++ (.txBegin :: s.xferEvents 0 bytes ++ [.txEnd]) }

/-- The bytes of a wire write (spec/20_memory.md R56): the command byte, then the value, most significant byte first. -/
def writeBytes (cfg : Cfg) (r : Reg) (n : Nat) (v : Word24) : List Byte := cmdByte cfg .write r :: wireBytes v n

/-- The bytes sent in a wire read (spec/20_memory.md R57): the command byte, then zeros. -/
def readBytes (cfg : Cfg) (r : Reg) (n : Nat) : List Byte := cmdByte cfg .read r :: List.replicate n Config.readFill

/-- The value of a wire read of `n` bytes from here: the bytes after the one discarded with the command byte, the first
received most significant (spec/20_memory.md R57). -/
def State.readValue (s : State) : Nat → Nat
  | 0 => 0
  | n + 1 => 256 * s.readValue n + (s.nextByte (n + 1)).toNat

/-- The state after `n` whole polls of Status (spec/44_mode_state_machine.md R176), nothing else changed. -/
def State.afterPolls (s : State) : Nat → State
  | 0 => s
  | n + 1 => (s.afterPolls n).afterTransaction (readBytes s.cfg .status 1)

/-- The Status byte that the `j`-th poll from here reads: each poll makes two `Xfer`s (spec/44_mode_state_machine.md R176). -/
def State.pollByte (s : State) (j : Nat) : Byte := s.nextByte (2 * j + 1)

/-- Is the READY bit of that byte 0, "chip convention: 0 = ready" (spec/44_mode_state_machine.md R175)? -/
def State.pollReady (s : State) (j : Nat) : Prop := (s.pollByte j).getLsbD s.cfg.rdyPos = false

/-! ### Command words -/

/-- How many low bits of a command word the format of each opcode assigns (spec/30_encoding.md R81, R82), the opcodes
`0x0` to `0xE` in order. -/
def formatBits : List Nat := [4, 27, 3, 3, 51, 3, 32, 0, 0, 50, 32, 0, 3, 0, 0]

/-- A command word spells no operation: opcode `0xF`, or a must-be-zero bit set (spec/30_encoding.md R85). -/
def spellsNothing (cw : Word64) : Prop :=
  cw.toNat / 2 ^ 60 = 0xF ∨ cw.toNat % 2 ^ 60 / 2 ^ formatBits.getD (cw.toNat / 2 ^ 60) 60 ≠ 0

/-- The operands that `InvalidRegister` refuses (spec/60_exceptions.md R191): for ENCODE and RDREG a reserved selector;
for WRREG, REFRESH, SETFLD and GETSHD a selector that is not shadowed; for WRREG and SETFLD an operand wider than the
register. -/
def registerRefused : Instr → Prop
  | .encode _ sel | .rdreg sel => sel = .reservedLow ∨ sel = .reservedHigh
  | .refresh sel | .getshd sel => ∀ g : ShadowReg, sel ≠ .reg g.reg
  | .wrreg sel value => ∀ g : ShadowReg, sel = .reg g.reg → 2 ^ g.width ≤ value.toNat
  | .setfld sel bits mask =>
    ∀ g : ShadowReg, sel = .reg g.reg → 2 ^ g.width ≤ mask.toNat ∨ 2 ^ g.width ≤ bits.toNat
  | _ => False

/-! ### The perfect loopback (spec/20_memory.md R66) -/

/-- What the loopback environment is in the middle of. -/
inductive LoopPhase where
  | idle
  | start
  | writing (r : Reg) (got : List Byte)
  | reading (left : List Byte)
  | other
deriving DecidableEq, Repr

/-- The loopback environment: for each register, the data bytes last written to it, if any were. -/
structure Loopback where
  kept : List (Reg × List Byte)
  phase : LoopPhase
deriving DecidableEq, Repr

/-- The loopback environment before any write. -/
def Loopback.empty : Loopback where
  kept := []
  phase := .idle

/-- The bytes kept for a register, the last write first. -/
def Loopback.bytesOf (l : Loopback) (r : Reg) : List Byte :=
  match l.kept.find? (fun p => p.1 == r) with
  | some p => p.2
  | none => []

/-- What a command byte makes the loopback do (spec/20_memory.md R66). -/
def Loopback.command (cfg : Cfg) (l : Loopback) (out : Byte) : Loopback :=
  match decodeWire cfg out with
  | .ok i =>
    match i.wireCommand with
    | some (.write, r) => { l with phase := .writing r [] }
    | some (.read, r) => { l with phase := .reading (l.bytesOf r) }
    | none => { l with phase := .other }
  | .error _ => { l with phase := .other }

/-- One bus event under the perfect loopback; none if the environment answered otherwise than a loopback does: it never
fails, and it answers the data bytes of a read with the bytes last written, in the same order. -/
def Loopback.next (cfg : Cfg) (l : Loopback) : BusEvent → Option Loopback
  | .txBegin => some { l with phase := .start }
  | .xfer _ .fail => none
  | .xfer out (.byte b) =>
    match l.phase with
    | .idle => none
    | .start => some (l.command cfg out)
    | .writing r got => some { l with phase := .writing r (got ++ [out]) }
    | .reading [] => some l
    | .reading (x :: xs) => if b = x then some { l with phase := .reading xs } else none
    | .other => some l
  | .txEnd =>
    match l.phase with
    | .writing r got => some { kept := (r, got) :: l.kept, phase := .idle }
    | _ => some { l with phase := .idle }

/-- The bus events are those of a perfect loopback. -/
def Loopback.accepts (cfg : Cfg) : Loopback → List BusEvent → Bool
  | _, [] => true
  | l, e :: es =>
    match l.next cfg e with
    | some m => m.accepts cfg es
    | none => false

end Sys2Proof.Machine
end

