-- ==== Sys2Proof/Certificates/Slice0/Obligations.lean ====
section
/-! DEFINITION. The statements for the provers. `respond r s` is `s` with the sequencer idle and the response `r`;
`s.afterTransaction bytes` is `s` after one framed transaction that sends `bytes`, everything else unchanged
(Safety.lean). A conclusion `exec i s = .next t` with `t` written out is the instruction's result, its frame and its
completion at once. -/

open Sys2Proof Sys2Proof.Machine

/-! ### Encodings -/

/-- Decoding the encoding of a well-formed instruction gives it back, under every well-formed configuration, whatever its
selector codes and its layout of the command byte (spec/30_encoding.md R77, R81). -/
def Obligations.DecodeOfEncode : Prop :=
  ∀ (cfg : Cfg) (i : Instr), cfg.wf = true → i.wf = true → decode cfg (encode cfg i) = .ok i

/-- What the decoder reads is well-formed and is encoded as exactly the bits it was read from, under every well-formed
configuration (R81, R82, R85). -/
def Obligations.EncodeOfDecode : Prop :=
  ∀ (cfg : Cfg) (c : Code) (i : Instr), cfg.wf = true → decode cfg c = .ok i → i.wf = true ∧ encode cfg i = c

/-- Command words and wire bytes of the spec's own examples, and SETMODE with each of the eight ordinals of
spec/30_encoding.md R83, decode to the instructions they are written for, with the default parameters
(spec/95_test_vectors.md V3, V10, V18, V19, V20, V120, V127, V129, V112, V118, V116; spec/30_encoding.md R73, R76). -/
def Obligations.SpecWordsDecode : Prop :=
  decode Cfg.default (.host 0x000000000000000D) = .ok (.encode .read (.reg .offset)) ∧
  decode Cfg.default (.host 0x1000000003123456) = .ok (.wrreg (.reg .filter) 0x123456) ∧
  decode Cfg.default (.host 0x2000000000000005) = .ok (.rdreg (.reg .offset)) ∧
  decode Cfg.default (.host 0x3000000000000005) = .ok (.refresh (.reg .offset)) ∧
  decode Cfg.default (.host 0x4002001000001000) = .ok (.setfld (.reg .mode) 0x1000 0x1000) ∧
  decode Cfg.default (.host 0x5000000000000000) = .ok (.setmode .idle) ∧
  decode Cfg.default (.host 0x5000000000000001) = .ok (.setmode .standby) ∧
  decode Cfg.default (.host 0x5000000000000002) = .ok (.setmode .convertContinuous) ∧
  decode Cfg.default (.host 0x5000000000000003) = .ok (.setmode .convertSingle) ∧
  decode Cfg.default (.host 0x5000000000000004) = .ok (.setmode .calInternalZero) ∧
  decode Cfg.default (.host 0x5000000000000005) = .ok (.setmode .calInternalFull) ∧
  decode Cfg.default (.host 0x5000000000000006) = .ok (.setmode .calSystemZero) ∧
  decode Cfg.default (.host 0x5000000000000007) = .ok (.setmode .calSystemFull) ∧
  decode Cfg.default (.host 0x6000000000000003) = .ok (.waitrdy 3) ∧
  decode Cfg.default (.host 0x7000000000000000) = .ok .rdstat ∧
  decode Cfg.default (.host 0x8000000000000000) = .ok .chiprst ∧
  decode Cfg.default (.host 0x9002050009C4F63C) = .ok (.setctx 1280 .bipolar 0xF63C 2500 .w24) ∧
  decode Cfg.default (.host 0xA000000000000005) = .ok (.convert 5) ∧
  decode Cfg.default (.host 0xB000000000000000) = .ok .rdvolt ∧
  decode Cfg.default (.host 0xC000000000000003) = .ok (.getshd (.reg .filter)) ∧
  decode Cfg.default (.host 0xD000000000000000) = .ok .getmode ∧
  decode Cfg.default (.host 0xE000000000000000) = .ok .getctx ∧
  decode Cfg.default (.wire 0x01) = .ok .cmdWrData ∧
  decode Cfg.default (.wire 0x35) = .ok .cmdRdOffset ∧
  decode Cfg.default (.wire 0xFF) = .ok .resetByte

/-- A command word is rejected exactly when its opcode is `0xF` or a must-be-zero bit of its format is set; presented to
an idle block, in either grain, it then answers `IllegalCommand`, status 6, with no bus event and no other change
(R196). -/
def Obligations.IllegalCommandIsNoOp : Prop :=
  (Response.error .illegalCommand).status = 6 ∧ ∀ cw : Word64,
    (∀ cfg : Cfg, (∃ e, decode cfg (.host cw) = .error e) ↔ spellsNothing cw) ∧
    (spellsNothing cw → ∀ (s : State) (g : Grain) (rest : List HostEvent), s.seq = .idle →
      (s.hostIn = .command g cw :: rest ∨ s.hostIn = .intrude cw :: rest) →
      step s = .next { s with hostIn := rest, response := some (.error .illegalCommand) })

/-- The fields of a command byte read back, wherever a well-formed layout puts them: WEN is 0, both RW bits tell the
direction, the RS bits are the selector, every bit that no field covers is 0, and `cmd` is injective. With the positions
and codes of R70 and R72 the byte is the selector, with bits 5 and 4 set for a read, and bits 7, 6 and 3 are 0 (R77). -/
def Obligations.CommandByteFields : Prop :=
  (∀ cfg : Cfg, cfg.wf = true →
    (∀ (d : Dir) (r : Reg),
      wireWen cfg.cmd (cmdByte cfg d r) = false ∧
      wireRw cfg.cmd (cmdByte cfg d r) = (if d = .read then 0b11 else 0b00) ∧
      wireRs cfg.cmd (cmdByte cfg d r) = r.code cfg.sels ∧
      ∀ j : Nat, j < 8 → j ≠ cfg.cmd.wenPos → j ≠ cfg.cmd.rw1Pos → j ≠ cfg.cmd.rw0Pos →
        (j < cfg.cmd.rsPos ∨ cfg.cmd.rsPos + 2 < j) → (cmdByte cfg d r).getLsbD j = false) ∧
    ∀ (d d' : Dir) (r r' : Reg), cmdByte cfg d r = cmdByte cfg d' r' → d = d' ∧ r = r') ∧
  ∀ (d : Dir) (r : Reg),
    let b := cmdByte Cfg.default d r
    b.toNat = (if d = .read then 0x30 else 0) + (r.code Cfg.default.sels).toNat ∧
    b.extractLsb' 0 3 = r.code Cfg.default.sels ∧ b.extractLsb' 4 2 = (if d = .read then 0b11 else 0b00) ∧
    b.getLsbD 7 = false ∧ b.getLsbD 6 = false ∧ b.getLsbD 3 = false

/-- The bytes the wire decoder reads are the command bytes and the reset byte, and no other: under every well-formed
configuration the twelve bytes `cmd(d, r)` and `0xFF`; with the default parameters those of R73 (R74, R75). -/
def Obligations.WireBytesRead : Prop :=
  (∀ (cfg : Cfg) (b : Byte), cfg.wf = true →
    ((∃ i, decode cfg (.wire b) = .ok i) ↔ b = 0xFF ∨ ∃ d r, b = cmdByte cfg d r)) ∧
  ∀ b : Byte, (∃ i, decode Cfg.default (.wire b) = .ok i) ↔
    b ∈ ([0x00, 0x30, 0x01, 0x31, 0x02, 0x32, 0x03, 0x33, 0x05, 0x35, 0x06, 0x36, 0xFF] : List Byte)

/-- The response numbers of R84. -/
def Obligations.ResponseNumbers : Prop :=
  (∀ v : Word64, (Response.ok v).status = 0) ∧
  (Response.error .invalidRegister).status = 1 ∧ (Response.error .busError).status = 2 ∧
  (Response.error .timeout).status = 3 ∧ (Response.error .precisionViolation).status = 4 ∧
  (Response.error .invalidContext).status = 5 ∧ (Response.error .illegalCommand).status = 6

/-- For every well-formed host operation, the model's line for it, in each of the three number notations of R87, with or
without a comment, assembles to its command word; and whatever line assembles gives the command word of one host operation.
The lines of the spec's own examples fix the order of the operands (spec/95_test_vectors.md V3, V10, V21, V112; P2). Where
R87 leaves the spelling open it is the model's choice, log 21 (DEDUCED): a negative reference has a minus sign in all three
notations (the spec shows one in decimal only), and the printer writes no leading zeros and small hexadecimal digits, as in
the last clause's `0x2, 0x7`, where V21 writes `0x0002, 0x0007`. -/
def Obligations.AssembledLineDecodes : Prop :=
  (∀ (cfg : Cfg) (x : Radix) (i : Instr), cfg.wf = true → i.wf = true → i.isHostOp = true →
    ∃ line, lineText cfg x i = some line ∧ assemble cfg (String.ofList line) = some (encode cfg i) ∧
      ∀ comment : List Char, assemble cfg (String.ofList (line ++ ' ' :: ';' :: comment)) = some (encode cfg i)) ∧
  (∀ (cfg : Cfg) (line : String) (c : Code), cfg.wf = true → assemble cfg line = some c →
    ∃ i, parseLine cfg line = some i ∧ i.isHostOp = true ∧ decode cfg c = .ok i) ∧
  assemble Cfg.default "ENCODE rd, Offset" = some (.host 0x000000000000000D) ∧
  assemble Cfg.default "WRREG Filter, 0x123456" = some (.host 0x1000000003123456) ∧
  assemble Cfg.default "SETFLD Mode, 0x0002, 0x0007" = some (.host 0x4002000007000002) ∧
  assemble Cfg.default "SETCTX 1280, bip, -2500, 2500, 24" = some (.host 0x9002050009C4F63C) ∧
  assemble Cfg.default "WAITRDY 5" = some (.host 0x6000000000000005) ∧
  lineText Cfg.default .decimal (.setctx 1280 .bipolar 0xF63C 2500 .w24) =
    some "SETCTX 1280, bip, -2500, 2500, 24".toList ∧
  lineText Cfg.default .hexadecimal (.setfld (.reg .mode) 2 7) = some "SETFLD Mode, 0x2, 0x7".toList

/-! ### The step -/

/-- An idle block runs the operation that the presented command word spells: `step` is `exec` of it (R80, R82). -/
def Obligations.StepRunsCommand : Prop :=
  ∀ (s : State) (cw : Word64) (i : Instr) (rest : List HostEvent), s.seq = .idle →
    (s.hostIn = .command .operation cw :: rest ∨ s.hostIn = .intrude cw :: rest) →
    decode s.cfg (.host cw) = .ok i → step s = exec i { s with hostIn := rest }

/-- In the command phase the byte of the operation in progress is the instruction that runs, and in CHIPRST's fill phase
the reset byte is: `step` is `exec` of what the wire decoder reads from it (R28, R73, R76). That ENCODE stands in the command
phase, and that the wire instruction of its byte then runs, is the model's choice, log 7 (DESIGN CHOICE). -/
def Obligations.StepRunsWireByte : Prop :=
  ∀ (s t : State) (q : Run) (rest : List HostEvent), s.seq = .run q →
    (s.hostIn = [] ∧ t = s ∨ s.hostIn = .quiet :: rest ∧ t = { s with hostIn := rest } ∨
      (∃ g cw, s.hostIn = .command g cw :: rest) ∧ t = s) →
    (∀ (d : Dir) (r : Reg) (i : Instr), q.phase = .cmd → commandOf q.op = some (d, r) →
      decode s.cfg (.wire (cmdByte s.cfg d r)) = .ok i → step s = exec i t) ∧
    (∀ i : Instr, q.phase = .fill → q.op = .chiprst → 0 < q.i → decode s.cfg (.wire 0xFF) = .ok i → step s = exec i t)

/-- An idle block with nothing presented stays as it is, and a silent host changes nothing in it (R80). -/
def Obligations.IdleBlockWaits : Prop :=
  ∀ s : State, s.seq = .idle →
    (s.hostIn = [] → step s = .next s) ∧
    (∀ rest, s.hostIn = .quiet :: rest → step s = .next { s with hostIn := rest })

/-- Block reset, at any moment: the shadows at the reset parameters, no context, the sequencer idle, ModeState Idle; with
no context GETCTX answers 0 and CONVERT, RDVOLT and RDREG Data answer `InvalidContext` (R211). -/
def Obligations.BlockResetState : Prop :=
  ∀ (s : State) (rest : List HostEvent), s.hostIn = .reset :: rest → s.cfg.wf = true →
    ∃ t, step s = .next t ∧
      t.mode = s.cfg.resetMode ∧ t.filter = s.cfg.resetFilter ∧ t.offset = s.cfg.resetOffset ∧ t.gain = s.cfg.resetGain ∧
      t.ctx.valid = false ∧ t.seq = .idle ∧ modeState t.cfg t.mode = .idle ∧
      exec .getctx t = .next (respond (.ok 0) t) ∧
      (∀ c, exec (.convert c) t = .next (respond (.error .invalidContext) t)) ∧
      exec .rdvolt t = .next (respond (.error .invalidContext) t) ∧
      exec (.rdreg (.reg .data)) t = .next (respond (.error .invalidContext) t)

/-- Block reset, at any moment, answers nothing, produces no bus event and touches neither the configuration nor the
environment (R210, R213). That the bus record begins anew is the model's choice (log 10). -/
def Obligations.BlockResetIsSilent : Prop :=
  ∀ (s : State) (rest : List HostEvent), s.hostIn = .reset :: rest →
    ∃ t, step s = .next t ∧ t.response = none ∧ t.trace = [] ∧ t.cfg = s.cfg ∧ t.xfers = s.xfers ∧
      t.answers = s.answers ∧ t.hostIn = rest

/-- A command presented while an operation is in progress has no meaning: the step is refused, and so is any host
operation run on such a state (R224). -/
def Obligations.SecondCommandRefused : Prop :=
  ∀ (s : State) (q : Run), s.seq = .run q →
    (∀ cw rest, s.hostIn = .intrude cw :: rest → step s = .refused .commandWhileBusy) ∧
    (∀ i : Instr, i.isHostOp = true → exec i s = .refused .commandWhileBusy)

/-- Every host operation completes on an idle block, whatever its operands and whatever the bus answers: it gives a
response and leaves the block idle, so that the next operation is taken normally (R198, R199). -/
def Obligations.HostOperationsComplete : Prop :=
  ∀ (i : Instr) (s : State), i.isHostOp = true → s.seq = .idle →
    ∃ t r, exec i s = .next t ∧ t.seq = .idle ∧ t.response = some r ∧ t.hostIn = s.hostIn

/-! ### The Command Encoder -/

/-- ENCODE answers the command byte of any valid selector, writable or not, and `InvalidRegister` for a reserved one; it
reads and changes nothing else. With the positions and codes of R70 and R72 the bytes are those of the table (R101). -/
def Obligations.EncodeAnswersCommandByte : Prop :=
  ∀ (d : Dir) (s : State), s.seq = .idle →
    (∀ r : Reg, exec (.encode d (.reg r)) s = .next (respond (.ok ((cmdByte s.cfg d r).setWidth 64)) s)) ∧
    (s.cfg.cmd = .default → s.cfg.sels = .default → ∀ r : Reg,
      exec (.encode d (.reg r)) s =
        .next (respond (.ok (match d, r with
          | .write, .status => 0x00 | .write, .data => 0x01 | .write, .mode => 0x02
          | .write, .filter => 0x03 | .write, .offset => 0x05 | .write, .gain => 0x06
          | .read, .status => 0x30 | .read, .data => 0x31 | .read, .mode => 0x32
          | .read, .filter => 0x33 | .read, .offset => 0x35 | .read, .gain => 0x36)) s)) ∧
    exec (.encode d .reservedLow) s = .next (respond (.error .invalidRegister) s) ∧
    exec (.encode d .reservedHigh) s = .next (respond (.error .invalidRegister) s)

/-! ### The Register Protocol Engine -/

/-- WRREG of a value that fits: the shadow takes it before the bus; the trace is the command byte and the value's bytes,
most significant first; a failed `Xfer` ends the transaction with `BusError` and the shadow stays written (R111). -/
def Obligations.WrregWritesShadowThenBus : Prop :=
  ∀ (g : ShadowReg) (v : Word24) (s : State), s.seq = .idle → v.toNat < 2 ^ g.width →
    (s.allAnswered (g.width / 8 + 1) →
      exec (.wrreg (.reg g.reg) v) s =
        .next (respond (.ok 0) ((writeShadow g v s).afterTransaction (writeBytes s.cfg g.reg (g.width / 8) v)))) ∧
    (∀ k, k ≤ g.width / 8 → s.failsAt k →
      exec (.wrreg (.reg g.reg) v) s =
        .next (respond (.error .busError)
          ((writeShadow g v s).afterTransaction ((writeBytes s.cfg g.reg (g.width / 8) v).take (k + 1)))))

/-- RDREG of a readable register: the trace is the command byte and one zero per byte; the response is the value received,
first byte most significant; a failed `Xfer` gives `BusError` and no value; no shadow and no context changes. A reserved
selector is `InvalidRegister` and Data with no context `InvalidContext`, with no bus event and no change (R112). -/
def Obligations.RdregReadsRegister : Prop :=
  ∀ (r : Reg) (s : State), s.seq = .idle →
    ((r = .data → s.ctx.valid = true) → s.allAnswered (nbytes s.ctx r + 1) →
      exec (.rdreg (.reg r)) s =
        .next (respond (.ok (BitVec.ofNat 64 (s.readValue (nbytes s.ctx r))))
          (s.afterTransaction (readBytes s.cfg r (nbytes s.ctx r))))) ∧
    (∀ k, (r = .data → s.ctx.valid = true) → k ≤ nbytes s.ctx r → s.failsAt k →
      exec (.rdreg (.reg r)) s =
        .next (respond (.error .busError) (s.afterTransaction ((readBytes s.cfg r (nbytes s.ctx r)).take (k + 1))))) ∧
    (r = .data → s.ctx.valid = false → exec (.rdreg (.reg r)) s = .next (respond (.error .invalidContext) s)) ∧
    exec (.rdreg .reservedLow) s = .next (respond (.error .invalidRegister) s) ∧
    exec (.rdreg .reservedHigh) s = .next (respond (.error .invalidRegister) s)

/-- The value RDREG answers is below `2^(8 nbytes(sel))` (R113). -/
def Obligations.RdregValueFits : Prop :=
  ∀ (r : Reg) (s t : State) (v : Word64), exec (.rdreg (.reg r)) s = .next t → t.response = some (.ok v) →
    v.toNat < 2 ^ (8 * nbytes s.ctx r)

/-- REFRESH of a shadowed register: as the read, and the shadow takes the value, only on success (R114). -/
def Obligations.RefreshCopiesRegister : Prop :=
  ∀ (g : ShadowReg) (s : State), s.seq = .idle →
    (s.allAnswered (g.width / 8 + 1) →
      exec (.refresh (.reg g.reg)) s =
        .next (respond (.ok (BitVec.ofNat 64 (s.readValue (g.width / 8))))
          (writeShadow g (BitVec.ofNat 24 (s.readValue (g.width / 8)))
            (s.afterTransaction (readBytes s.cfg g.reg (g.width / 8)))))) ∧
    (∀ k, k ≤ g.width / 8 → s.failsAt k →
      exec (.refresh (.reg g.reg)) s =
        .next (respond (.error .busError) (s.afterTransaction ((readBytes s.cfg g.reg (g.width / 8)).take (k + 1)))))

/-- CHIPRST: the shadows and `ctx.valid` at their reset values before the bus, then four `0xFF` in one transaction; a
failed `Xfer` gives `BusError` with the shadows and the context already reset; the configuration does not change, and the
ModeState of the reset Mode is Idle (R116). That the context's other fields stay as they are is the model's choice (R35
leaves them unspecified while no context is loaded; log 3). -/
def Obligations.ChiprstResets : Prop :=
  ∀ s : State, s.seq = .idle →
    let d : State :=
      { s with
        mode := s.cfg.resetMode, filter := s.cfg.resetFilter, offset := s.cfg.resetOffset, gain := s.cfg.resetGain,
        ctx := { s.ctx with valid := false } }
    (s.allAnswered 4 →
      exec .chiprst s = .next (respond (.ok 0) (d.afterTransaction [0xFF, 0xFF, 0xFF, 0xFF]))) ∧
    (∀ k, k < 4 → s.failsAt k →
      exec .chiprst s = .next (respond (.error .busError) (d.afterTransaction (List.replicate (k + 1) 0xFF)))) ∧
    (s.cfg.wf = true → modeState s.cfg s.cfg.resetMode = .idle)

/-- GETSHD answers the shadow of a shadowed register, zero-extended, with no bus event and no other change (R118). -/
def Obligations.GetshdAnswersShadow : Prop :=
  ∀ s : State, s.seq = .idle →
    exec (.getshd (.reg .mode)) s = .next (respond (.ok (BitVec.ofNat 64 s.mode.toNat)) s) ∧
    exec (.getshd (.reg .filter)) s = .next (respond (.ok (BitVec.ofNat 64 s.filter.toNat)) s) ∧
    exec (.getshd (.reg .offset)) s = .next (respond (.ok (BitVec.ofNat 64 s.offset.toNat)) s) ∧
    exec (.getshd (.reg .gain)) s = .next (respond (.ok (BitVec.ofNat 64 s.gain.toNat)) s)

/-- `InvalidRegister`, status 1, is the answer exactly for the operands of R191, before any state change and any bus
event. -/
def Obligations.InvalidRegisterIsNoOp : Prop :=
  (Response.error .invalidRegister).status = 1 ∧ ∀ (i : Instr) (s : State), i.isHostOp = true → s.seq = .idle →
    (registerRefused i → exec i s = .next (respond (.error .invalidRegister) s)) ∧
    (∀ t, exec i s = .next t → t.response = some (.error .invalidRegister) → registerRefused i)

/-- Under a perfect loopback, WRREG of a shadowed register and then RDREG of it answers the value written, and REFRESH
instead leaves the shadow at it, under every well-formed configuration (R120). -/
def Obligations.LoopbackRoundTrip : Prop :=
  ∀ (g : ShadowReg) (v : Word24) (s t u w : State) (evs evs' : List BusEvent), s.seq = .idle → s.cfg.wf = true →
    v.toNat < 2 ^ g.width →
    exec (.wrreg (.reg g.reg) v) s = .next t → exec (.rdreg (.reg g.reg)) t = .next u →
    exec (.refresh (.reg g.reg)) t = .next w →
    (u.trace = s.trace ++ evs → Loopback.empty.accepts s.cfg evs = true → u.response = some (.ok (v.setWidth 64))) ∧
    (w.trace = s.trace ++ evs' → Loopback.empty.accepts s.cfg evs' = true → readShadow g w = v)

/-! ### The Shadow Register Store -/

/-- The masked update, bit by bit: a bit of the mask takes the new bit, every other keeps the old (R130). -/
def Obligations.MaskedUpdateBits : Prop :=
  ∀ (w : Nat) (old bits mask : BitVec w), merge old bits mask = (old &&& ~~~mask) ||| (bits &&& mask) ∧
    ∀ i < w, (merge old bits mask).getLsbD i = if mask.getLsbD i then bits.getLsbD i else old.getLsbD i

/-- SETFLD: the shadow takes the masked update and the whole register goes out, also with an empty mask; the response is
the new value; on `BusError` the shadow holds it all the same (R131). -/
def Obligations.SetfldUpdatesAndWrites : Prop :=
  ∀ (g : ShadowReg) (bits mask : Word24) (s : State), s.seq = .idle →
    mask.toNat < 2 ^ g.width → bits.toNat < 2 ^ g.width →
    let new : Word24 := (readShadow g s &&& ~~~mask) ||| (bits &&& mask)
    new.toNat < 2 ^ g.width ∧
    (s.allAnswered (g.width / 8 + 1) →
      exec (.setfld (.reg g.reg) bits mask) s =
        .next (respond (.ok (new.setWidth 64))
          ((writeShadow g new s).afterTransaction (writeBytes s.cfg g.reg (g.width / 8) new)))) ∧
    (∀ k, k ≤ g.width / 8 → s.failsAt k →
      exec (.setfld (.reg g.reg) bits mask) s =
        .next (respond (.error .busError)
          ((writeShadow g new s).afterTransaction ((writeBytes s.cfg g.reg (g.width / 8) new).take (k + 1)))))

/-- The frame property: after SETFLD, OK or `BusError`, the bits of the register outside the mask are as before and those
inside are the new bits; no other shadow and no field of the context changes (R134). -/
def Obligations.SetfldFrame : Prop :=
  ∀ (g : ShadowReg) (bits mask : Word24) (s t : State), exec (.setfld (.reg g.reg) bits mask) s = .next t →
    (t.response = some (.error .busError) ∨ ∃ v, t.response = some (.ok v)) →
    (readShadow g t &&& ~~~mask) = (readShadow g s &&& ~~~mask) ∧
    (readShadow g t &&& mask) = (bits &&& mask) ∧
    (∀ g', g' ≠ g → readShadow g' t = readShadow g' s) ∧ t.ctx = s.ctx

/-- `WRREG sel, v` is `SETFLD sel, v` with a mask of ones of the register's width, but for the OK payload (R133). The
equation holds of every register and of every value, also of those both refuse. -/
def Obligations.WrregIsFullMaskSetfld : Prop :=
  ∀ (r : Reg) (v : Word24) (s t u : State),
    exec (.wrreg (.reg r) v) s = .next t →
    exec (.setfld (.reg r) v (if r = .mode ∨ r = .gain then 0xFFFF else 0xFFFFFF)) s = .next u →
    { u with response := none } = { t with response := none } ∧
    (∀ e, t.response = some (.error e) ↔ u.response = some (.error e)) ∧
    (t.response = some (.ok 0) ↔ u.response = some (.ok (v.setWidth 64)))

/-! ### The Conversion Engine -/

/-- SETCTX of a range of `RANGE_SET` and `refPlus > refMinus` loads all of the context; otherwise it answers
`InvalidContext` and the context is unchanged, `valid` included; no bus event (R141). -/
def Obligations.SetctxLoadsContext : Prop :=
  ∀ (range : Word16) (pol : Polarity) (refMinus refPlus : Word16) (wl : WordLength) (s : State), s.seq = .idle →
    (range ∈ s.cfg.rangeSet ∧ refMinus.toInt < refPlus.toInt →
      exec (.setctx range pol refMinus refPlus wl) s =
        .next (respond (.ok 0) { s with ctx := ⟨true, wl, pol, range, refMinus, refPlus⟩ })) ∧
    (¬ (range ∈ s.cfg.rangeSet ∧ refMinus.toInt < refPlus.toInt) →
      exec (.setctx range pol refMinus refPlus wl) s = .next (respond (.error .invalidContext) s))

/-- GETCTX answers 0 with no context loaded, else bit 50 and the fields in SETCTX's places; nothing else changes (R142). -/
def Obligations.GetctxAnswersContext : Prop :=
  ∀ s : State, s.seq = .idle →
    exec .getctx s =
      .next (respond (.ok (if s.ctx.valid then
        BitVec.ofNat 64 (2 ^ 50 + (if s.ctx.wordLength = .w24 then 2 ^ 49 else 0)
          + (if s.ctx.polarity = .unipolar then 2 ^ 48 else 0)
          + s.ctx.range.toNat * 2 ^ 32 + s.ctx.refPlus.toNat * 2 ^ 16 + s.ctx.refMinus.toNat)
        else 0)) s)

/-- CONVERT: `InvalidContext` with no context, else `PrecisionViolation` for a code of `2^W` or more, else an OK answer,
which is the voltage as an s64 wherever the voltage fits one; nothing else changes and there is no bus event (R143, R144).
With the spec's unit it always fits (`VoltageNeverOverflows`); of an answer beyond s64 nothing is said (log 22). -/
def Obligations.ConvertAnswersVoltage : Prop :=
  ∀ (c : Nat) (s : State), s.seq = .idle →
    (s.ctx.valid = false → exec (.convert c) s = .next (respond (.error .invalidContext) s)) ∧
    (s.ctx.valid = true → 2 ^ s.ctx.wordLength.bits ≤ c →
      exec (.convert c) s = .next (respond (.error .precisionViolation) s)) ∧
    (s.ctx.valid = true → c < 2 ^ s.ctx.wordLength.bits →
      ∃ v : Word64, exec (.convert c) s = .next (respond (.ok v) s) ∧
        (-2 ^ 63 ≤ toVoltage s.cfg s.ctx c → toVoltage s.cfg s.ctx c < 2 ^ 63 → v.toInt = toVoltage s.cfg s.ctx c))

/-- The bipolar transfer function: the floor of the exact quotient, plus the offset term (R146). -/
def Obligations.BipolarTransfer : Prop :=
  ∀ (cfg : Cfg) (x : Ctx) (c : Nat), x.polarity = .bipolar → 1 ≤ cfg.refNominalMv →
    toVoltage cfg x c =
      ⌊((((c : ℤ) - 2 ^ (x.wordLength.bits - 1)) * (x.range.toNat : ℤ) * (x.refPlus.toInt - x.refMinus.toInt)
          * cfg.pvPerMv : ℤ) : ℚ)
        / (2 ^ (x.wordLength.bits - 1) * cfg.refNominalMv : ℚ)⌋
      + (if cfg.offsetMode = .zero then 0 else x.refMinus.toInt * cfg.pvPerMv)

/-- The unipolar transfer function: the floor of the exact quotient by `2^W - 1`; no reference and no offset enter (R148). -/
def Obligations.UnipolarTransfer : Prop :=
  ∀ (cfg : Cfg) (x : Ctx) (c : Nat), x.polarity = .unipolar →
    toVoltage cfg x c = ⌊((c * x.range.toNat * cfg.pvPerMv : ℕ) : ℚ) / (2 ^ x.wordLength.bits - 1 : ℚ)⌋

/-- The offset-binary reading: for a code that fits the word length, the bipolar voltage is the floored quotient of R146
with the signed code written as the code with its top bit inverted, read as two's complement; and that number is the
code less mid-scale, so that code 0 is the most negative input (R149). -/
def Obligations.OffsetBinaryReading : Prop :=
  ∀ (cfg : Cfg) (x : Ctx) (c : Nat), x.polarity = .bipolar → 1 ≤ cfg.refNominalMv → c < 2 ^ x.wordLength.bits →
    let signed : ℤ :=
      (BitVec.ofNat x.wordLength.bits c ^^^ BitVec.ofNat x.wordLength.bits (2 ^ (x.wordLength.bits - 1))).toInt
    signed = (c : ℤ) - 2 ^ (x.wordLength.bits - 1) ∧ (c = 0 → signed = -2 ^ (x.wordLength.bits - 1)) ∧
    toVoltage cfg x c =
      ⌊((signed * (x.range.toNat : ℤ) * (x.refPlus.toInt - x.refMinus.toInt) * cfg.pvPerMv : ℤ) : ℚ)
        / (2 ^ (x.wordLength.bits - 1) * cfg.refNominalMv : ℚ)⌋
      + (if cfg.offsetMode = .zero then 0 else x.refMinus.toInt * cfg.pvPerMv)

/-- No overflow: with the result counted in picovolts (`PV_PER_MV` 10^9), for every valid context and in-range code the
voltage fits s64, with the stated bounds for any nominal reference and for the default parameters, so the payload is the
voltage itself (R152). -/
def Obligations.VoltageNeverOverflows : Prop :=
  ∀ (cfg : Cfg) (x : Ctx) (c : Nat), cfg.pvPerMv = 10 ^ 9 → x.refMinus.toInt < x.refPlus.toInt → 1 ≤ cfg.refNominalMv →
    c < 2 ^ x.wordLength.bits →
    |toVoltage cfg x c| ≤ 65535 * 65535 * 10 ^ 9 + 32768 * 10 ^ 9 ∧
    (voltagePayload cfg x c).toInt = toVoltage cfg x c ∧
    (cfg.rangeSet = Cfg.default.rangeSet → cfg.refNominalMv = 2500 → cfg.offsetMode = .zero → x.range ∈ cfg.rangeSet →
      |toVoltage cfg x c| * 2500 ≤ 1280 * 10 ^ 9 * 65535 ∧ |toVoltage cfg x c| < 2 ^ 45)

/-- The voltage never decreases with the code, and it increases where one code step is at least one unit of the result: in
unipolar polarity that is every context of the default parameters. (R153 (a) claims the strict increase for every context with the
default parameters; the last clause is a context that SETCTX accepts with them and two neighbouring codes with one
voltage, log 19.) -/
def Obligations.VoltageMonotone : Prop :=
  (∀ (cfg : Cfg) (x : Ctx) (c d : Nat), x.refMinus.toInt < x.refPlus.toInt → 1 ≤ cfg.refNominalMv → c < d →
    toVoltage cfg x c ≤ toVoltage cfg x d ∧
    (x.polarity = .unipolar → 10 ≤ x.range.toNat → 10 ^ 9 ≤ cfg.pvPerMv → toVoltage cfg x c < toVoltage cfg x d) ∧
    (x.polarity = .bipolar →
      2 ^ (x.wordLength.bits - 1) * (cfg.refNominalMv : ℤ)
        ≤ x.range.toNat * (x.refPlus.toInt - x.refMinus.toInt) * cfg.pvPerMv →
      toVoltage cfg x c < toVoltage cfg x d)) ∧
  ∃ (x : Ctx) (c : Nat), ctxOk Cfg.default x = true ∧ x.valid = true ∧ c + 1 < 2 ^ x.wordLength.bits ∧
    toVoltage Cfg.default x c = toVoltage Cfg.default x (c + 1)

/-- The end points of the unipolar range are exact, and bipolar mid-scale is 0 volts exactly with `OFFSET_MODE = zero`
(R153 (b), (c), (d)). -/
def Obligations.VoltageEndPoints : Prop :=
  ∀ (cfg : Cfg) (x : Ctx),
    (x.polarity = .unipolar →
      toVoltage cfg x 0 = 0 ∧ toVoltage cfg x (2 ^ x.wordLength.bits - 1) = x.range.toNat * cfg.pvPerMv) ∧
    (x.polarity = .bipolar → cfg.offsetMode = .zero → toVoltage cfg x (2 ^ (x.wordLength.bits - 1)) = 0) ∧
    (x.polarity = .bipolar → cfg.offsetMode = .refMinus →
      toVoltage cfg x (2 ^ (x.wordLength.bits - 1)) = x.refMinus.toInt * cfg.pvPerMv)

/-- RDVOLT: `InvalidContext` and no bus event with no context; else the transaction of RDREG Data and an OK answer, which
is the voltage of the code read wherever that fits s64 (of an answer beyond s64 nothing is said, log 22), or `BusError`
(R150). -/
def Obligations.RdvoltReadsAndConverts : Prop :=
  ∀ s : State, s.seq = .idle →
    (s.ctx.valid = false → exec .rdvolt s = .next (respond (.error .invalidContext) s)) ∧
    (s.ctx.valid = true → s.allAnswered (s.ctx.wordLength.bits / 8 + 1) →
      let V : ℤ := toVoltage s.cfg s.ctx (s.readValue (s.ctx.wordLength.bits / 8))
      ∃ v : Word64,
        exec .rdvolt s =
          .next (respond (.ok v) (s.afterTransaction (readBytes s.cfg .data (s.ctx.wordLength.bits / 8)))) ∧
        (-2 ^ 63 ≤ V → V < 2 ^ 63 → v.toInt = V)) ∧
    (∀ k, s.ctx.valid = true → k ≤ s.ctx.wordLength.bits / 8 → s.failsAt k →
      exec .rdvolt s =
        .next (respond (.error .busError)
          (s.afterTransaction ((readBytes s.cfg .data (s.ctx.wordLength.bits / 8)).take (k + 1)))))

/-- RDVOLT is RDREG Data followed by CONVERT of its result, in one response (R88). -/
def Obligations.RdvoltIsRdregThenConvert : Prop :=
  ∀ (s t u w : State) (v : Word64), exec (.rdreg (.reg .data)) s = .next t → t.response = some (.ok v) →
    exec (.convert v.toNat) t = .next u → exec .rdvolt s = .next w → w = u

/-! ### The Mode State Machine -/

/-- The spec's own MD field and codes (R170, R171). -/
def Obligations.DefaultModeCodes : Prop :=
  mdMask Cfg.default = 0xE000 ∧
  mdBits Cfg.default .idle = 0x0000 ∧ mdBits Cfg.default .standby = 0x6000 ∧
  mdBits Cfg.default .convertContinuous = 0x2000 ∧ mdBits Cfg.default .convertSingle = 0x4000 ∧
  mdBits Cfg.default .calInternalZero = 0x8000 ∧ mdBits Cfg.default .calInternalFull = 0xA000 ∧
  mdBits Cfg.default .calSystemZero = 0xC000 ∧ mdBits Cfg.default .calSystemFull = 0xE000

/-- SETMODE: the MD bits of Mode take the code of the state, the other bits stay, the whole register goes out; every
transition is allowed; on `BusError` the shadow already shows the target (R172). -/
def Obligations.SetmodeRequestsMode : Prop :=
  ∀ (m : ModeState) (s : State), s.seq = .idle →
    let new : Word16 := (s.mode &&& ~~~mdMask s.cfg) ||| mdBits s.cfg m
    (s.allAnswered 3 →
      exec (.setmode m) s =
        .next (respond (.ok (new.setWidth 64))
          ({ s with mode := new }.afterTransaction [cmdByte s.cfg .write .mode, new.extractLsb' 8 8, new.extractLsb' 0 8]))) ∧
    (∀ k, k ≤ 2 → s.failsAt k →
      exec (.setmode m) s =
        .next (respond (.error .busError)
          ({ s with mode := new }.afterTransaction
            ([cmdByte s.cfg .write .mode, new.extractLsb' 8 8, new.extractLsb' 0 8].take (k + 1)))))

/-- GETMODE answers the ordinal of the one mode whose code the MD field holds, with no other change (R173); there is
exactly one such mode (R171), and the ordinals are those of spec/30_encoding.md R83. -/
def Obligations.GetmodeAnswersMode : Prop :=
  ∀ s : State, s.seq = .idle → s.cfg.wf = true →
    ∃ m : ModeState, mdCode s.cfg.mdCodes m = s.mode.extractLsb' s.cfg.mdLo 3 ∧
      (∀ m', mdCode s.cfg.mdCodes m' = s.mode.extractLsb' s.cfg.mdLo 3 → m' = m) ∧
      exec .getmode s = .next (respond (.ok (match m with
        | .idle => 0 | .standby => 1 | .convertContinuous => 2 | .convertSingle => 3
        | .calInternalZero => 4 | .calInternalFull => 5 | .calSystemZero => 6 | .calSystemFull => 7)) s)

/-- After SETMODE of any state, OK or `BusError`, GETMODE answers that state's ordinal of spec/30_encoding.md R83, and the
bits of Mode outside the MD field are as before (R172, R173). -/
def Obligations.GetmodeAfterSetmode : Prop :=
  ∀ (m : ModeState) (s t u : State), s.cfg.wf = true → exec (.setmode m) s = .next t → exec .getmode t = .next u →
    u.response = some (.ok (match m with
      | .idle => 0 | .standby => 1 | .convertContinuous => 2 | .convertSingle => 3
      | .calInternalZero => 4 | .calInternalFull => 5 | .calSystemZero => 6 | .calSystemFull => 7)) ∧
    (t.mode &&& ~~~mdMask s.cfg) = (s.mode &&& ~~~mdMask s.cfg)

/-- RDSTAT answers the Status byte read and the four flags: `ready` when its bit is 0, the others their raw bits; nothing
else changes (R175). -/
def Obligations.RdstatAnswersFlags : Prop :=
  ∀ s : State, s.seq = .idle →
    (s.allAnswered 2 →
      exec .rdstat s =
        .next (respond (.ok (BitVec.ofNat 64 ((s.nextByte 1).toNat
          + (if (s.nextByte 1).getLsbD s.cfg.rdyPos then 0 else 2 ^ 8)
          + (if (s.nextByte 1).getLsbD s.cfg.stdyPos then 2 ^ 9 else 0)
          + (if (s.nextByte 1).getLsbD s.cfg.stbyPos then 2 ^ 10 else 0)
          + (if (s.nextByte 1).getLsbD s.cfg.norefPos then 2 ^ 11 else 0))))
          (s.afterTransaction [cmdByte s.cfg .read .status, 0x00]))) ∧
    (∀ k, k ≤ 1 → s.failsAt k →
      exec .rdstat s = .next (respond (.error .busError) (s.afterTransaction ([cmdByte s.cfg .read .status, 0x00].take (k + 1)))))

/-- WAITRDY: the first poll whose READY bit is 0 ends the wait with the number of polls and the byte; with none among
`maxPolls` it is `Timeout` after exactly that many framed polls; a failed `Xfer` ends it at once (R176). -/
def Obligations.WaitrdyPolls : Prop :=
  ∀ (n : Nat) (s : State), s.seq = .idle →
    (∀ j, j < n → s.allAnswered (2 * (j + 1)) → (∀ i < j, ¬ s.pollReady i) → s.pollReady j →
      exec (.waitrdy n) s =
        .next (respond (.ok (BitVec.ofNat 64 ((j + 1) * 2 ^ 32 + (s.pollByte j).toNat))) (s.afterPolls (j + 1)))) ∧
    (s.allAnswered (2 * n) → (∀ i < n, ¬ s.pollReady i) →
      exec (.waitrdy n) s = .next (respond (.error .timeout) (s.afterPolls n))) ∧
    (∀ k, k < 2 * n → s.failsAt k → (∀ i < k / 2, ¬ s.pollReady i) →
      exec (.waitrdy n) s =
        .next (respond (.error .busError)
          ((s.afterPolls (k / 2)).afterTransaction ([cmdByte s.cfg .read .status, 0x00].take (k % 2 + 1)))))

/-- The timeout scenario: a mode request and then WAITRDY under an environment that never fails and never shows READY
answers `Timeout` after exactly `n` polls, for every `n` (R177). -/
def Obligations.NeverReadyTimesOut : Prop :=
  ∀ (n : Nat) (s t u : State), s.seq = .idle →
    s.allAnswered (3 + 2 * n) → (∀ j < n, (s.nextByte (3 + 2 * j + 1)).getLsbD s.cfg.rdyPos = true) →
    exec (.setmode .convertSingle) s = .next t → exec (.waitrdy n) t = .next u →
    u.response = some (.error .timeout) ∧ u.xfers = s.xfers + 3 + 2 * n ∧
    modeState t.cfg t.mode = modeState u.cfg u.mode

/-! ### The wire bytes -/

/-- A command byte whose turn it is: it is sent, and the operation stands in its data phase, or, on a failure, the
transaction ends and the operation answers `BusError` (R28, R54, R73). For each of the twelve wire instructions. That
ENCODE stands in the command phase too, and that the step of its byte hands the byte to the host with no bus event, is the
model's choice (DESIGN CHOICE, log 7). -/
def Obligations.CommandByteIsSent : Prop :=
  ∀ (d : Dir) (r : Reg) (s : State) (q : Run), s.seq = .run q → q.phase = .cmd → commandOf q.op = some (d, r) →
    (isEncode q.op = true →
      exec (Instr.ofCommand d r) s = .next (respond (.ok ((cmdByte s.cfg d r).setWidth 64)) s)) ∧
    (isEncode q.op = false → s.nextAnswer 0 ≠ .fail →
      exec (Instr.ofCommand d r) s =
        .next { s with
          seq := .run { q with phase := .data }, xfers := s.xfers + 1,
          trace := s.trace ++ [.xfer (cmdByte s.cfg d r) (s.nextAnswer 0)] }) ∧
    (isEncode q.op = false → s.nextAnswer 0 = .fail →
      exec (Instr.ofCommand d r) s =
        .next (respond (.error .busError)
          { s with xfers := s.xfers + 1, trace := s.trace ++ [.xfer (cmdByte s.cfg d r) .fail, .txEnd] }))

/-- A reset byte of CHIPRST: one `0xFF` is sent; after the last the transaction ends and CHIPRST answers OK; on a failure
it answers `BusError` (R76, R116). -/
def Obligations.ResetByteIsSent : Prop :=
  ∀ (s : State) (q : Run) (k : Nat), s.seq = .run q → q.phase = .fill → q.op = .chiprst → q.i = k + 1 →
    (s.nextAnswer 0 ≠ .fail → 0 < k →
      exec .resetByte s =
        .next { s with
          seq := .run { q with i := k }, xfers := s.xfers + 1,
          trace := s.trace ++ [.xfer 0xFF (s.nextAnswer 0)] }) ∧
    (s.nextAnswer 0 ≠ .fail → k = 0 →
      exec .resetByte s =
        .next (respond (.ok 0)
          { s with xfers := s.xfers + 1, trace := s.trace ++ [.xfer 0xFF (s.nextAnswer 0), .txEnd] })) ∧
    (s.nextAnswer 0 = .fail →
      exec .resetByte s =
        .next (respond (.error .busError)
          { s with xfers := s.xfers + 1, trace := s.trace ++ [.xfer 0xFF .fail, .txEnd] }))

/-- A wire byte that no operation is about to send is refused. That a valid byte out of its turn is refused is the model's
choice (DESIGN CHOICE, log 8): the spec says when the block sends each byte (R73, R76) and nothing of it elsewhere. -/
def Obligations.WireByteNotDueRefused : Prop :=
  ∀ (d : Dir) (r : Reg) (s : State),
    (s.seq = .idle → exec (Instr.ofCommand d r) s = .refused .wireByteNotDue ∧
      exec .resetByte s = .refused .wireByteNotDue) ∧
    (∀ q, s.seq = .run q → (q.phase ≠ .cmd ∨ commandOf q.op ≠ some (d, r)) →
      exec (Instr.ofCommand d r) s = .refused .wireByteNotDue) ∧
    (∀ q, s.seq = .run q → (q.phase ≠ .fill ∨ q.op ≠ .chiprst ∨ q.i = 0) → exec .resetByte s = .refused .wireByteNotDue)

/-! ### The whole machine -/

/-- The invariant holds right after reset, with the default parameters and with every well-formed configuration
(spec/10_state.md R25, R27, R28, R34, R35). -/
def Obligations.ResetMeetsInvariant : Prop :=
  StateOk State.reset = true ∧ ∀ cfg : Cfg, cfg.wf = true → StateOk (State.resetWith cfg) = true

/-- Every step keeps the invariant: the context invariant, a sequencer state that an operation reaches, and the framing of
the bus, with only the ten command bytes and the reset bytes at the head of a transaction (R25, R28, R34, R54, R75). -/
def Obligations.StepKeepsInvariant : Prop := ∀ s t : State, StateOk s = true → step s = .next t → StateOk t = true

/-- From a state that meets the invariant a step never faults, and is refused only for a command presented while an
operation is in progress (R198, R199, R224). -/
def Obligations.StepNeverFaults : Prop :=
  ∀ s : State, StateOk s = true →
    (∃ t, step s = .next t) ∨
    (step s = .refused .commandWhileBusy ∧ (∃ q, s.seq = .run q) ∧ ∃ cw rest, s.hostIn = .intrude cw :: rest)

/-- An operation run byte by byte and the same operation run as one atomic transition agree on the final state, the
response and the trace, under every well-formed configuration (R29). -/
def Obligations.GrainsAgree : Prop :=
  ∀ (s t : State) (cw : Word64), s.seq = .idle → s.cfg.wf = true →
    step { s with hostIn := [.command .operation cw] } = .next t →
    ∃ k, Host.Core.run Sys2Proof.core k { s with hostIn := [.command .byte cw] } = .next t

/-- While an operation other than ENCODE runs byte by byte, in a state that meets the invariant, and the host is silent,
each step makes exactly one `Xfer` (R28); the step in which ENCODE hands its byte to the host makes none, which is the
model's choice (DESIGN CHOICE, log 7). -/
def Obligations.OneXferPerStep : Prop :=
  ∀ (s t : State) (q : Run), StateOk s = true → s.seq = .run q → s.hostIn = [] → step s = .next t →
    t.xfers = s.xfers + (if isEncode q.op then 0 else 1) ∧ t.hostIn = []

/-- No step changes the configuration, and every step but a block reset only appends to the bus record: the events of the
block form one total order (R62, R213). -/
def Obligations.TraceOnlyGrows : Prop :=
  ∀ s t : State, step s = .next t →
    t.cfg = s.cfg ∧ t.answers = s.answers ∧ s.xfers ≤ t.xfers ∧
    ((∀ rest, s.hostIn ≠ .reset :: rest) → ∃ evs, t.trace = s.trace ++ evs)

/-- The writers of a shadow are WRREG, SETFLD and REFRESH of that register, SETMODE for Mode, and CHIPRST; no other
instruction changes it (R23). -/
def Obligations.ShadowWriters : Prop :=
  ∀ (g : ShadowReg) (i : Instr) (s t : State), s.seq = .idle → exec i s = .next t → readShadow g t ≠ readShadow g s →
    (∃ v, i = .wrreg (.reg g.reg) v) ∨ (∃ b m, i = .setfld (.reg g.reg) b m) ∨ i = .refresh (.reg g.reg) ∨
    (g = .mode ∧ ∃ m, i = .setmode m) ∨ i = .chiprst

/-- The operations that neither read nor write a shadow: on two idle states that differ only in the shadows they give the
same response, the same trace and the same context, and each leaves its shadows as they were (R23). -/
def Obligations.ShadowBlindOperations : Prop :=
  ∀ (i : Instr) (s t : State) (m : Word16) (f o : Word24) (g : Word16), s.seq = .idle →
    (match i with
      | .rdreg _ | .rdstat | .waitrdy _ | .rdvolt | .convert _ | .encode _ _ | .setctx _ _ _ _ _ | .getctx => True
      | _ => False) →
    exec i s = .next t →
    t.mode = s.mode ∧ t.filter = s.filter ∧ t.offset = s.offset ∧ t.gain = s.gain ∧
    exec i { s with mode := m, filter := f, offset := o, gain := g } =
      .next { t with mode := m, filter := f, offset := o, gain := g }

/-- The context changes only by SETCTX and CHIPRST, and becomes valid only by SETCTX; in particular it never follows the
Mode register (R25, R222). -/
def Obligations.ContextWriters : Prop :=
  ∀ (i : Instr) (s t : State), s.seq = .idle → exec i s = .next t →
    (t.ctx ≠ s.ctx → i = .chiprst ∨ ∃ r p a b w, i = .setctx r p a b w) ∧
    (s.ctx.valid = false → t.ctx.valid = true → ∃ r p a b w, i = .setctx r p a b w)

/-- Which operations can raise which error: `Timeout` only WAITRDY, `PrecisionViolation` only CONVERT, `InvalidContext`
only SETCTX, CONVERT, RDVOLT and RDREG Data, `BusError` only an operation with bus events, `IllegalCommand` none that
spells an operation (R192 to R196). -/
def Obligations.ErrorOrigins : Prop :=
  ∀ (i : Instr) (s t : State), s.seq = .idle → exec i s = .next t →
    (t.response = some (.error .timeout) → ∃ n, i = .waitrdy n) ∧
    (t.response = some (.error .precisionViolation) → ∃ c, i = .convert c) ∧
    (t.response = some (.error .invalidContext) →
      (∃ r p a b w, i = .setctx r p a b w) ∨ (∃ c, i = .convert c) ∨ i = .rdvolt ∨ i = .rdreg (.reg .data)) ∧
    (t.response = some (.error .busError) → t.trace ≠ s.trace) ∧
    t.response ≠ some (.error .illegalCommand)

/-- An error found by a check (any but `BusError` and `Timeout`) changes nothing but the response: checks come before any
state change and any bus event (R197). -/
def Obligations.FailedCheckChangesNothing : Prop :=
  ∀ (i : Instr) (s t : State) (e : Err), s.seq = .idle → exec i s = .next t → t.response = some (.error e) →
    e ≠ .busError → e ≠ .timeout → t = { s with response := some (.error e) }
end

