-- ==== Sys2Proof/Laws/Codec.lean ====
section
/-! SUPPORT. What a command word made by `hostWord` holds, field by field, and that the decoder takes its opcode's arm. -/

namespace Sys2Proof

/-- A concatenation as a number: the low part fills its width. -/
theorem toNat_concat {m n : Nat} (x : BitVec m) (y : BitVec n) : (x ++ y).toNat = x.toNat * 2 ^ n + y.toNat := by
  rw [BitVec.toNat_append, ← Nat.shiftLeft_add_eq_or_of_lt y.isLt, Nat.shiftLeft_eq]

/-- A field of a command word as a number. -/
theorem field_toNat (op : BitVec 4) {n : Nat} (v : BitVec n) (hn : n ≤ 60) (lo len : Nat) :
    (field (op ++ v.setWidth 60) lo len).toNat = (op.toNat * 2 ^ 60 + v.toNat) / 2 ^ lo % 2 ^ len := by
  have hv : v.toNat < 2 ^ 60 := Nat.lt_of_lt_of_le v.isLt (Nat.pow_le_pow_right (by omega) hn)
  have h : (op ++ v.setWidth 60 : BitVec 64).toNat = op.toNat * 2 ^ 60 + v.toNat := by
    have := toNat_concat op (v.setWidth 60)
    rw [BitVec.toNat_setWidth, Nat.mod_eq_of_lt hv] at this
    exact this
  rw [field, BitVec.extractLsb'_toNat, h, Nat.shiftRight_eq_div_pow]

/-- The opcode of a command word is what `hostWord` puts on top. -/
theorem field_opcode (op : BitVec 4) {n : Nat} (v : BitVec n) (hn : n ≤ 60) : field (op ++ v.setWidth 60) 60 4 = op := by
  have hv : v.toNat < 2 ^ 60 := Nat.lt_of_lt_of_le v.isLt (Nat.pow_le_pow_right (by omega) hn)
  have := op.isLt
  apply BitVec.eq_of_toNat_eq
  rw [field_toNat op v hn]
  omega

/-- A command word whose operands have the width of its opcode's format is decoded as that operation. -/
theorem decode_hostWord (cfg : Cfg) (op : BitVec 4) {n : Nat} (v : BitVec n) (hn : n ≤ 60) (hop : operandBits op = some n) :
    decode cfg (hostWord op v) = .ok (operation cfg.sels op (op ++ v.setWidth 60)) := by
  have hz : field (op ++ v.setWidth 60) n (60 - n) = 0 := by
    apply BitVec.eq_of_toNat_eq
    have hp : 2 ^ 60 = 2 ^ (60 - n) * 2 ^ n := by rw [← Nat.pow_add]; congr 1; omega
    rw [field_toNat op v hn, hp, ← Nat.mul_assoc, Nat.mul_comm _ (2 ^ n), Nat.mul_add_div (by positivity),
      Nat.div_eq_of_lt v.isLt]
    simp
  unfold hostWord decode decodeHost
  simp only [field_opcode op v hn, hop, hz, if_true]

/-! ### Selector codes -/

/-- What `regOf` finds is the register of that code. -/
theorem code_of_regOf {c : SelCodes} {b : BitVec 3} {r : Reg} (h : regOf c b = some r) : r.code c = b := by
  simpa using List.find?_some h

theorem mem_allRegs (r : Reg) : r ∈ allRegs := by cases r <;> decide

/-- `regOf` finds nothing exactly for a code that no register has. -/
theorem regOf_eq_none {c : SelCodes} {b : BitVec 3} : regOf c b = none ↔ b ∉ c.toList := by
  simp only [regOf, allRegs, List.find?_eq_none, SelCodes.toList, List.mem_cons, List.not_mem_nil, or_false,
    forall_eq_or_imp, forall_eq, beq_iff_eq, Reg.code, not_or]
  simp only [eq_comm]

/-- Different registers have different codes. -/
theorem code_inj {c : SelCodes} (h : c.toList.Nodup) {r r' : Reg} (he : r.code c = r'.code c) : r = r' := by
  simp only [SelCodes.toList, List.nodup_cons, List.mem_cons, List.not_mem_nil, or_false, not_or] at h
  cases r <;> cases r' <;> simp only [Reg.code] at he <;> first
    | rfl
    | (exfalso; simp_all)

@[simp] theorem regOf_code {c : SelCodes} (h : c.toList.Nodup) (r : Reg) : regOf c (r.code c) = some r := by
  cases hf : regOf c (r.code c) with
  | some r' => rw [code_inj h (code_of_regOf hf)]
  | none => exact absurd (by cases r <;> simp [SelCodes.toList, Reg.code]) (regOf_eq_none.1 hf)

/-- Two codes name no register (R74). -/
theorem reservedCodes_eq {c : SelCodes} (h : c.toList.Nodup) :
    ∃ a b : BitVec 3, a ≠ b ∧ reservedCodes c = [a, b] ∧ ∀ x, x ∉ c.toList ↔ x = a ∨ x = b := by
  let all : List (BitVec 3) := [0, 1, 2, 3, 4, 5, 6, 7]
  have hall : ∀ x : BitVec 3, x ∈ all := by decide
  have hnd : all.Nodup := by decide
  have hres : reservedCodes c = all.filter fun x => decide (x ∉ c.toList) := by
    refine List.filter_congr fun x _ => ?_
    rw [Bool.eq_iff_iff, Option.isNone_iff_eq_none, regOf_eq_none, decide_eq_true_iff]
  have hperm : (all.filter fun x => decide (x ∈ c.toList)).Perm c.toList :=
    (List.perm_ext_iff_of_nodup (hnd.filter _) h).2 fun x => by simp [hall x]
  have hlen : (reservedCodes c).length = 2 := by
    have h8 := List.length_eq_length_filter_add (l := all) fun x => decide (x ∈ c.toList)
    rw [hperm.length_eq] at h8
    have h6 : c.toList.length = 6 := rfl
    have hall8 : all.length = 8 := rfl
    rw [hres]
    simp only [decide_not] at *
    omega
  obtain ⟨a, b, hab⟩ := List.length_eq_two.1 hlen
  refine ⟨a, b, ?_, hab, fun x => ?_⟩
  · have := hnd.filter fun x => decide (x ∉ c.toList)
    rw [← hres, hab] at this
    simpa using this
  · have hm : x ∈ reservedCodes c ↔ x ∉ c.toList := by rw [hres]; simp [hall x]
    rw [← hm, hab]; simp

/-- A selector's code is read back as the selector (R72, R74). -/
@[simp] theorem Sel.ofCode_code {c : SelCodes} (h : c.toList.Nodup) (s : Sel) : Sel.ofCode c (s.code c) = s := by
  obtain ⟨a, b, hab, hr, hx⟩ := reservedCodes_eq h
  have ha : regOf c a = none := regOf_eq_none.2 ((hx a).2 (.inl rfl))
  have hb : regOf c b = none := regOf_eq_none.2 ((hx b).2 (.inr rfl))
  cases s with
  | reg r => simp [Sel.ofCode, Sel.code, h]
  | reservedLow => simp [Sel.ofCode, Sel.code, hr, ha]
  | reservedHigh => simp [Sel.ofCode, Sel.code, hr, hb, Ne.symm hab]

/-- What a code is read as has that code (R72, R74). -/
@[simp] theorem Sel.code_ofCode {c : SelCodes} (h : c.toList.Nodup) (x : BitVec 3) : (Sel.ofCode c x).code c = x := by
  obtain ⟨a, b, hab, hr, hx⟩ := reservedCodes_eq h
  unfold Sel.ofCode
  cases hf : regOf c x with
  | some r => exact code_of_regOf hf
  | none =>
    rcases (hx x).1 (regOf_eq_none.1 hf) with rfl | rfl
    · simp [hr, Sel.code]
    · simp [hr, Sel.code, Ne.symm hab]

/-! ### The command byte -/

/-- The byte with WEN = 0, both RW bits equal to `rw` and the selector code `k`. -/
def layoutByte (l : CmdLayout) (rw : BitVec 1) (k : BitVec 3) : Byte :=
  ((0 : Byte) <<< l.wenPos.val) ||| ((rw.setWidth 8 : Byte) <<< l.rw1Pos.val) ||| ((rw.setWidth 8 : Byte) <<< l.rw0Pos.val)
    ||| ((k.setWidth 8 : Byte) <<< l.rsPos.val)

theorem cmdByte_eq (cfg : Cfg) (d : Dir) (r : Reg) : cmdByte cfg d r = layoutByte cfg.cmd d.code (r.code cfg.sels) := rfl

/-- The fields of `layoutByte` read back, and no other bit is set: checked on each layout. -/
theorem layoutByte_fields (l : CmdLayout) (h : l.wf = true) (rw : BitVec 1) (k : BitVec 3) :
    wireWen l (layoutByte l rw k) = false ∧ wireRw l (layoutByte l rw k) = rw ++ rw ∧
    wireRs l (layoutByte l rw k) = k ∧ layoutByte l rw k &&& ~~~fieldBits l = 0 ∧
    layoutByte l rw k ≠ Config.resetByte := by
  have key : ∀ w a b r : Fin 8, CmdLayout.wf ⟨w, a, b, r⟩ = true → ∀ (rw : BitVec 1) (k : BitVec 3),
      wireWen ⟨w, a, b, r⟩ (layoutByte ⟨w, a, b, r⟩ rw k) = false ∧
      wireRw ⟨w, a, b, r⟩ (layoutByte ⟨w, a, b, r⟩ rw k) = rw ++ rw ∧
      wireRs ⟨w, a, b, r⟩ (layoutByte ⟨w, a, b, r⟩ rw k) = k ∧
      layoutByte ⟨w, a, b, r⟩ rw k &&& ~~~fieldBits ⟨w, a, b, r⟩ = 0 ∧
      layoutByte ⟨w, a, b, r⟩ rw k ≠ Config.resetByte := by decide
  exact key _ _ _ _ h rw k

/-- A byte with WEN = 0, equal RW bits and no bit outside the fields is `layoutByte` of its fields: checked on each
layout. -/
theorem eq_layoutByte (l : CmdLayout) (h : l.wf = true) (b : Byte) (hw : wireWen l b = false)
    (ho : b &&& ~~~fieldBits l = 0) :
    (wireRw l b = 0b00 → b = layoutByte l 0 (wireRs l b)) ∧ (wireRw l b = 0b11 → b = layoutByte l 1 (wireRs l b)) := by
  have key : ∀ w a b r : Fin 8, CmdLayout.wf ⟨w, a, b, r⟩ = true → ∀ x : Byte,
      wireWen ⟨w, a, b, r⟩ x = false → x &&& ~~~fieldBits ⟨w, a, b, r⟩ = 0 →
      (wireRw ⟨w, a, b, r⟩ x = 0b00 → x = layoutByte ⟨w, a, b, r⟩ 0 (wireRs ⟨w, a, b, r⟩ x)) ∧
      (wireRw ⟨w, a, b, r⟩ x = 0b11 → x = layoutByte ⟨w, a, b, r⟩ 1 (wireRs ⟨w, a, b, r⟩ x)) := by decide
  exact key _ _ _ _ h b hw ho

/-- The parts of a well-formed configuration that the encodings rest on. -/
theorem Cfg.wf_cmd {cfg : Cfg} (h : cfg.wf = true) : cfg.cmd.wf = true := by
  simp only [Cfg.wf, Bool.and_eq_true] at h; tauto

@[inherit_doc Cfg.wf_cmd]
theorem Cfg.wf_sels {cfg : Cfg} (h : cfg.wf = true) : cfg.sels.toList.Nodup := by
  simp only [Cfg.wf, Bool.and_eq_true, decide_eq_true_eq] at h; tauto

@[simp] theorem ModeState.ofOrdinal_ordinal (m : ModeState) : ModeState.ofOrdinal m.ordinal = m := by cases m <;> rfl
@[simp] theorem Dir.ofCode_code (d : Dir) : Dir.ofCode d.code = d := by cases d <;> rfl
@[simp] theorem WordLength.ofCode_code (w : WordLength) : WordLength.ofCode w.code = w := by cases w <;> rfl
@[simp] theorem Polarity.ofCode_code (p : Polarity) : Polarity.ofCode p.code = p := by cases p <;> rfl

end Sys2Proof
end

