-- ==== Sys2Proof/Laws/Assembler.lean ====
section
/-! SUPPORT. What the parts of the notation of spec/30_encoding.md R87 read back from what the printer writes: digits,
numbers, the separators of a line. -/

namespace Sys2Proof

/-! ### Numbers -/

/-- A digit is read back. -/
theorem digitOf_digitChar (x : Radix) {d : Nat} (h : d < x.base) : digitOf x.base (digitChar d) = some d := by
  have key : ∀ x ∈ [Radix.decimal, .hexadecimal, .binary], ∀ d < 16, d < x.base → digitOf x.base (digitChar d) = some d := by
    decide
  exact key x (by cases x <;> decide) d (lt_of_lt_of_le h (by cases x <;> decide)) h

/-- Digits in two parts are read one after the other. -/
theorem digitsFrom_append (base acc : Nat) (a b : List Char) :
    digitsFrom base acc (a ++ b) = (digitsFrom base acc a).bind (digitsFrom base · b) := by
  induction a generalizing acc with
  | nil => rfl
  | cons c cs ih =>
    simp only [List.cons_append, digitsFrom]
    cases digitOf base c <;> simp [ih]

/-- A number that has room in its digits is read back. -/
theorem digitsFrom_digitsOf (x : Radix) (k n : Nat) (h : n < x.base ^ (k + 1)) :
    digitsFrom x.base 0 (digitsOf x.base (k + 1) n) = some n := by
  have hb : 0 < x.base := by cases x <;> decide
  induction k generalizing n with
  | zero =>
    have hn : n < x.base := by simpa using h
    simp [digitsOf, hn, Nat.mod_eq_of_lt hn, digitsFrom, digitOf_digitChar x hn]
  | succ k ih =>
    have hm := digitOf_digitChar x (Nat.mod_lt n hb)
    rw [digitsOf]
    by_cases hn : n < x.base
    · simp [hn, Nat.mod_eq_of_lt hn, digitsFrom, digitOf_digitChar x hn]
    · have hd : n / x.base < x.base ^ (k + 1) := Nat.div_lt_of_lt_mul (by rwa [← Nat.pow_succ'])
      rw [if_neg hn, digitsFrom_append, ih _ hd]
      simp [digitsFrom, hm, Nat.div_add_mod']

/-- The characters of a number are digits. -/
theorem mem_digitsOf {x : Radix} {k n : Nat} {c : Char} (h : c ∈ digitsOf x.base k n) : ∃ d < x.base, c = digitChar d := by
  have hb : 0 < x.base := by cases x <;> decide
  induction k generalizing n with
  | zero => simp [digitsOf] at h
  | succ k ih =>
    rw [digitsOf, List.mem_append] at h
    rcases h with h | h
    · split at h
      · simp at h
      · exact ih h
    · exact ⟨n % x.base, Nat.mod_lt _ hb, by simpa using h⟩

/-- A number has a digit. -/
theorem digitsOf_ne_nil (base k n : Nat) : digitsOf base (k + 1) n ≠ [] := by simp [digitsOf]

/-- A number that fits a field is read back from each notation. -/
theorem parseNumber_numberText (x : Radix) {n : Nat} (h : n < 2 ^ 32) : parseNumber (numberText x n) = some n := by
  have hp : n < x.base ^ 32 := lt_of_lt_of_le h (Nat.pow_le_pow_left (by cases x <;> decide) 32)
  have hd := digitsFrom_digitsOf x 31 n hp
  obtain ⟨c, cs, hc⟩ := List.exists_cons_of_ne_nil (digitsOf_ne_nil x.base 31 n)
  rw [hc] at hd
  rw [numberText, hc]
  cases x with
  | hexadecimal => exact hd
  | binary => exact hd
  | decimal =>
    have hmem : ∀ y ∈ c :: cs, y ≠ 'x' ∧ y ≠ 'b' := by
      intro y hy
      rw [← hc] at hy
      obtain ⟨d, hd', rfl⟩ := mem_digitsOf hy
      have key : ∀ d < 10, digitChar d ≠ 'x' ∧ digitChar d ≠ 'b' := by decide
      exact key d hd'
    show parseNumber (c :: cs) = some n
    unfold parseNumber
    split
    · rename_i heq; injection heq with _ heq; exact absurd rfl (hmem 'x' (by simp [heq])).1
    · rename_i heq; injection heq with _ heq; exact absurd rfl (hmem 'b' (by simp [heq])).2
    · rename_i heq; rw [← heq]; exact hd
    · rename_i heq; cases heq

/-! ### The separators of a line -/

/-- Text of one word: no blank, no comma, no semicolon. -/
def wordText (cs : List Char) : Prop := ∀ c ∈ cs, isBlank c = false ∧ c ≠ ',' ∧ c ≠ ';'

/-- A number is one word. -/
theorem wordText_numberText (x : Radix) (n : Nat) : wordText (numberText x n) := by
  intro c hc
  rw [numberText, List.mem_append] at hc
  rcases hc with hc | hc
  · cases x <;> simp [Radix.mark] at hc <;> rcases hc with rfl | rfl <;> decide
  · obtain ⟨d, hd, rfl⟩ := mem_digitsOf hc
    have key : ∀ d < 16, isBlank (digitChar d) = false ∧ digitChar d ≠ ',' ∧ digitChar d ≠ ';' := by decide
    exact key d (lt_of_lt_of_le hd (by cases x <;> decide))

/-- A reference is one word. -/
theorem wordText_signedText (x : Radix) (v : Word16) : wordText (signedText x v) := by
  unfold signedText
  split
  · intro c hc
    rcases List.mem_cons.1 hc with rfl | hc
    · decide
    · exact wordText_numberText x _ c hc
  · exact wordText_numberText x _

/-- A word, checked by computation. -/
theorem wordText_of_all {cs : List Char} (h : (cs.all fun c => !isBlank c && c != ',' && c != ';') = true) :
    wordText cs := by
  intro c hc
  have := List.all_eq_true.1 h c hc
  simpa [and_assoc] using this

/-- The names of R87 are words. -/
theorem wordText_regName (r : Reg) : wordText r.name.toList := by cases r <;> exact wordText_of_all (by decide)
@[inherit_doc wordText_regName]
theorem wordText_modeName (m : ModeState) : wordText m.name.toList := by cases m <;> exact wordText_of_all (by decide)
@[inherit_doc wordText_regName]
theorem wordText_dirName (d : Dir) : wordText d.name.toList := by cases d <;> exact wordText_of_all (by decide)
@[inherit_doc wordText_regName]
theorem wordText_polName (p : Polarity) : wordText p.name.toList := by cases p <;> exact wordText_of_all (by decide)
@[inherit_doc wordText_regName]
theorem wordText_wlName (w : WordLength) : wordText w.name.toList := by cases w <;> exact wordText_of_all (by decide)

/-- A selector is one word. -/
theorem wordText_selText (sels : SelCodes) (x : Radix) (sel : Sel) : wordText (selText sels x sel) := by
  have hash : ∀ n, wordText ('#' :: numberText x n) := by
    intro n c hc
    rcases List.mem_cons.1 hc with rfl | hc
    · decide
    · exact wordText_numberText x n c hc
  rcases sel with r | _ | _
  · exact wordText_regName r
  · exact hash _
  · exact hash _

/-- Nothing is trimmed from text that neither begins nor ends with a blank. -/
theorem trimBlanks_of_ends (cs : List Char) (hh : ∀ c ∈ cs.head?, isBlank c = false)
    (hl : ∀ c ∈ cs.getLast?, isBlank c = false) : trimBlanks cs = cs := by
  have drop : ∀ l : List Char, (∀ c ∈ l.head?, isBlank c = false) → l.dropWhile isBlank = l := by
    intro l h
    cases l with
    | nil => rfl
    | cons c cs => simp [h c (by simp)]
  rw [trimBlanks, drop cs hh, drop cs.reverse (by simpa using hl), List.reverse_reverse]

/-- Nothing is trimmed from a word. -/
theorem trimBlanks_word {cs : List Char} (h : wordText cs) : trimBlanks cs = cs :=
  trimBlanks_of_ends cs (fun c hc => (h c (List.mem_of_mem_head? hc)).1) fun c hc => (h c (List.mem_of_mem_getLast? hc)).1

/-- A blank before a text is trimmed. -/
theorem trimBlanks_cons_blank {b : Char} (hb : isBlank b = true) (cs : List Char) : trimBlanks (b :: cs) = trimBlanks cs := by
  simp [trimBlanks, hb]

/-- Printed operands are parted again. -/
theorem splitOperands_joinOperands (ops : List (List Char)) (h : ∀ o ∈ ops, wordText o ∧ o ≠ []) :
    splitOperands (joinOperands ops) = ops := by
  have comma : ∀ o : List Char, wordText o → ',' ∉ o := fun o ho hc => (ho ',' hc).2.1 rfl
  have blank : ∀ l : List (List Char), (l.modifyHead (' ' :: ·)).map trimBlanks = l.map trimBlanks := by
    intro l
    cases l with
    | nil => rfl
    | cons a as => simp [trimBlanks_cons_blank (b := ' ') rfl]
  have parted : ∀ (rest : List (List Char)) (a : List Char), (∀ o ∈ a :: rest, wordText o) →
      ((joinOperands (a :: rest)).splitOn ',').map trimBlanks = a :: rest := by
    intro rest
    induction rest with
    | nil =>
      intro a ha
      rw [joinOperands, List.splitOn_eq_singleton (comma a (ha a (by simp)))]
      simp [trimBlanks_word (ha a (by simp))]
    | cons b rest ih =>
      intro a ha
      rw [joinOperands, List.splitOn_append_cons_self_of_not_mem (comma a (ha a (by simp))),
        List.splitOn_cons_eq_if_modifyHead]
      have hb := ih b fun o ho => ha o (List.mem_cons_of_mem _ ho)
      simpa [trimBlanks_word (ha a (by simp)), blank] using hb
  cases ops with
  | nil => rfl
  | cons a rest =>
    have hne : joinOperands (a :: rest) ≠ [] := by
      have := (h a (by simp)).2
      cases rest <;> simp [joinOperands, this]
    rw [splitOperands, if_neg hne]
    exact parted rest a fun o ho => (h o ho).1

/-- The characters of printed operands: none is a semicolon. -/
theorem semicolon_notMem_joinOperands {ops : List (List Char)} (h : ∀ o ∈ ops, wordText o) : ';' ∉ joinOperands ops := by
  induction ops with
  | nil => simp [joinOperands]
  | cons a rest ih =>
    have ha : ';' ∉ a := fun hc => (h a (by simp) ';' hc).2.2 rfl
    cases rest with
    | nil => simpa [joinOperands] using ha
    | cons b rest =>
      have := ih fun o ho => h o (List.mem_cons_of_mem _ ho)
      simp [joinOperands, ha, this]

/-- Printed operands neither begin nor end with a blank. -/
theorem joinOperands_ends {ops : List (List Char)} (h : ∀ o ∈ ops, wordText o ∧ o ≠ []) :
    (∀ c ∈ (joinOperands ops).head?, isBlank c = false) ∧ ∀ c ∈ (joinOperands ops).getLast?, isBlank c = false := by
  induction ops with
  | nil => simp [joinOperands]
  | cons a rest ih =>
    obtain ⟨ha, hne⟩ := h a (by simp)
    obtain ⟨x, xs, rfl⟩ := List.exists_cons_of_ne_nil hne
    cases rest with
    | nil =>
      refine ⟨?_, fun c hc => (ha c (List.mem_of_mem_getLast? hc)).1⟩
      simpa [joinOperands] using (ha x (by simp)).1
    | cons b rest =>
      have hb := (ih fun o ho => h o (List.mem_cons_of_mem _ ho)).2
      obtain ⟨hbw, hbne⟩ := h b (by simp)
      have hj : joinOperands (b :: rest) ≠ [] := by cases rest <;> simp [joinOperands, hbne]
      refine ⟨by simpa [joinOperands] using (ha x (by simp)).1, ?_⟩
      simpa [joinOperands, List.getLast?_append, List.getLast?_cons, List.getLast?_eq_some_getLast hj] using hb

/-- A blank after a text that begins with none is trimmed. -/
theorem trimBlanks_append_blank {cs : List Char} (hne : cs ≠ []) (hh : ∀ c ∈ cs.head?, isBlank c = false) {b : Char}
    (hb : isBlank b = true) : trimBlanks (cs ++ [b]) = trimBlanks cs := by
  obtain ⟨x, xs, rfl⟩ := List.exists_cons_of_ne_nil hne
  have hx : isBlank x = false := hh x (by simp)
  simp [trimBlanks, hx, hb]

/-- What `parseLine` reads from a mnemonic and its printed operands, with or without a comment after them. -/
theorem parseLine_text (cfg : Cfg) (m : List Char) (ops : List (List Char)) (hm : wordText m) (hne : m ≠ [])
    (h : ∀ o ∈ ops, wordText o ∧ o ≠ []) (tail : List Char) (ht : tail = [] ∨ ∃ c, tail = ' ' :: ';' :: c) :
    parseLine cfg (String.ofList (m ++ (if ops = [] then [] else ' ' :: joinOperands ops) ++ tail)) =
      parseOperation cfg.sels (String.ofList m) ops := by
  obtain ⟨body, hbody⟩ : ∃ body, body = m ++ (if ops = [] then [] else ' ' :: joinOperands ops) := ⟨_, rfl⟩
  obtain ⟨x, xs, hx⟩ := List.exists_cons_of_ne_nil hne
  have hends := joinOperands_ends h
  have hxb : isBlank x = false := (hm x (by simp [hx])).1
  have hhead : ∀ c ∈ body.head?, isBlank c = false := by simpa [hbody, hx] using hxb
  have hlast : ∀ c ∈ body.getLast?, isBlank c = false := by
    rw [hbody]
    split
    · simpa using fun c hc => (hm c (List.mem_of_mem_getLast? hc)).1
    · rename_i hops
      have hj : joinOperands ops ≠ [] := by
        obtain ⟨a, rest, rfl⟩ := List.exists_cons_of_ne_nil hops
        have := (h a (by simp)).2
        cases rest <;> simp [joinOperands, this]
      simpa [List.getLast?_append, List.getLast?_cons, List.getLast?_eq_some_getLast hj] using hends.2
  have hsemi : ';' ∉ body := by
    have h1 : ';' ∉ m := fun hc => (hm ';' hc).2.2 rfl
    rw [hbody]
    split
    · simpa using h1
    · simp [h1, semicolon_notMem_joinOperands fun o ho => (h o ho).1]
  have hall : ∀ c ∈ body, (c != ';') = true := fun c hc => by
    simpa using fun he : c = ';' => hsemi (he ▸ hc)
  have htext : trimBlanks ((body ++ tail).takeWhile (· != ';')) = body := by
    have hb0 : body ≠ [] := by simp [hbody, hx]
    rcases ht with rfl | ⟨c, rfl⟩
    · rw [List.append_nil, List.takeWhile_eq_self_iff.2 hall, trimBlanks_of_ends body hhead hlast]
    · rw [List.takeWhile_append_of_pos hall]
      simp only [List.takeWhile_cons, bne_self_eq_false, Bool.false_eq_true, if_false,
        show (' ' != ';') = true from rfl, if_true]
      rw [trimBlanks_append_blank hb0 hhead rfl, trimBlanks_of_ends body hhead hlast]
  have hword : ∀ c ∈ m, (!isBlank c) = true := fun c hc => by simp [(hm c hc).1]
  unfold parseLine
  rw [← hbody]
  simp only [String.toList_ofList, htext]
  rw [hbody, List.takeWhile_append_of_pos hword, List.dropWhile_append_of_pos hword]
  by_cases hops : ops = []
  · simp [hops, trimBlanks, splitOperands]
  · have hj := trimBlanks_of_ends _ hends.1 hends.2
    simp [hops, show isBlank ' ' = true from rfl, trimBlanks_cons_blank, hj, splitOperands_joinOperands ops h]

/-! ### Operands -/

/-- A number is no empty word. -/
theorem numberText_ne_nil (x : Radix) (n : Nat) : numberText x n ≠ [] := by
  simp [numberText, digitsOf_ne_nil]

/-- A number that fits a field is read back as an operand. -/
theorem parseUnsigned_numberText (x : Radix) {bits n : Nat} (hb : bits ≤ 32) (h : n < 2 ^ bits) :
    parseUnsigned bits (numberText x n) = some n := by
  have : n < 2 ^ 32 := lt_of_lt_of_le h (Nat.pow_le_pow_right (by omega) hb)
  simp [parseUnsigned, parseNumber_numberText x this, h]

/-- A selector is read back. -/
theorem parseSel_selText {sels : SelCodes} (h : sels.toList.Nodup) (x : Radix) (sel : Sel) :
    parseSel sels (selText sels x sel) = some sel := by
  rcases sel with r | _ | _
  · cases r <;> rfl
  · have hc := Sel.ofCode_code h .reservedLow
    simp [parseSel, selText, parseUnsigned_numberText x (by decide : 3 ≤ 32) (Sel.code sels .reservedLow).isLt, hc]
  · have hc := Sel.ofCode_code h .reservedHigh
    simp [parseSel, selText, parseUnsigned_numberText x (by decide : 3 ≤ 32) (Sel.code sels .reservedHigh).isLt, hc]

/-- A number does not begin with a minus sign. -/
theorem numberText_head (x : Radix) (n : Nat) (cs : List Char) : numberText x n ≠ '-' :: cs := by
  intro he
  have hm : '-' ∈ numberText x n := by simp [he]
  rw [numberText, List.mem_append] at hm
  rcases hm with hm | hm
  · cases x <;> simp [Radix.mark] at hm
  · obtain ⟨d, hd, hc⟩ := mem_digitsOf hm
    have key : ∀ d < 16, '-' ≠ digitChar d := by decide
    exact key d (lt_of_lt_of_le hd (by cases x <;> decide)) hc

/-- A reference is read back. -/
@[simp] theorem parseSigned_signedText (x : Radix) (v : Word16) : parseSigned (signedText x v) = some v := by
  have hlt := v.toInt_lt
  have hge := v.le_toInt
  unfold signedText
  split
  · rename_i hn
    have hb : v.toInt.natAbs ≤ 2 ^ 15 := by omega
    have h32 : v.toInt.natAbs < 2 ^ 32 := by omega
    have hv : -BitVec.ofNat 16 v.toInt.natAbs = v := by
      apply BitVec.eq_of_toInt_eq
      have hcast : BitVec.ofNat 16 v.toInt.natAbs = BitVec.ofInt 16 (-v.toInt) := by
        rw [show -v.toInt = ((v.toInt.natAbs : Nat) : Int) by omega, BitVec.ofInt_natCast]
      rw [hcast, ← BitVec.ofInt_neg, neg_neg, BitVec.ofInt_toInt]
    simpa [parseSigned, parseNumber_numberText x h32, hv] using hb
  · rename_i hn
    have hb : v.toInt.natAbs < 2 ^ 15 := by omega
    have hv : BitVec.ofNat 16 v.toInt.natAbs = v := by
      rw [← BitVec.ofInt_natCast, show ((v.toInt.natAbs : Nat) : Int) = v.toInt by omega, BitVec.ofInt_toInt]
    unfold parseSigned
    split
    · rename_i heq
      exact absurd heq (numberText_head x _ _)
    · simp [parseUnsigned_numberText x (by decide : 15 ≤ 32) hb, hv]

end Sys2Proof
end

