-- ==== Sys2Proof/Laws/State.lean ====
section
/-! SUPPORT. One lemma per field for each update of the state, so that no proof unfolds an update. -/

namespace Sys2Proof.Machine

@[simp] theorem reply_eq_respond (v : Word64) (s : State) : reply v s = respond (.ok v) s := rfl
@[simp] theorem raise_eq_respond (e : Err) (s : State) : raise e s = respond (.error e) s := rfl
@[simp] theorem abort_eq_respond (s : State) : abort s = respond (.error .busError) (busEnd s) := rfl
@[simp] theorem openCommand_eq_enter (op : Instr) (r : Reg) (polls : Nat) (s : State) :
    openCommand op r polls s = enter op .cmd (nbytes s.ctx r) polls (busBegin s) := rfl

@[simp] theorem respond_mode (r : Response) (s : State) : (respond r s).mode = s.mode := rfl
@[simp] theorem respond_filter (r : Response) (s : State) : (respond r s).filter = s.filter := rfl
@[simp] theorem respond_offset (r : Response) (s : State) : (respond r s).offset = s.offset := rfl
@[simp] theorem respond_gain (r : Response) (s : State) : (respond r s).gain = s.gain := rfl
@[simp] theorem respond_ctx (r : Response) (s : State) : (respond r s).ctx = s.ctx := rfl
@[simp] theorem respond_seq (r : Response) (s : State) : (respond r s).seq = .idle := rfl
@[simp] theorem respond_response (r : Response) (s : State) : (respond r s).response = some r := rfl
@[simp] theorem respond_hostIn (r : Response) (s : State) : (respond r s).hostIn = s.hostIn := rfl
@[simp] theorem respond_cfg (r : Response) (s : State) : (respond r s).cfg = s.cfg := rfl
@[simp] theorem respond_answers (r : Response) (s : State) : (respond r s).answers = s.answers := rfl
@[simp] theorem respond_xfers (r : Response) (s : State) : (respond r s).xfers = s.xfers := rfl
@[simp] theorem respond_trace (r : Response) (s : State) : (respond r s).trace = s.trace := rfl

@[simp] theorem busBegin_mode (s : State) : (busBegin s).mode = s.mode := rfl
@[simp] theorem busBegin_filter (s : State) : (busBegin s).filter = s.filter := rfl
@[simp] theorem busBegin_offset (s : State) : (busBegin s).offset = s.offset := rfl
@[simp] theorem busBegin_gain (s : State) : (busBegin s).gain = s.gain := rfl
@[simp] theorem busBegin_ctx (s : State) : (busBegin s).ctx = s.ctx := rfl
@[simp] theorem busBegin_seq (s : State) : (busBegin s).seq = s.seq := rfl
@[simp] theorem busBegin_response (s : State) : (busBegin s).response = s.response := rfl
@[simp] theorem busBegin_hostIn (s : State) : (busBegin s).hostIn = s.hostIn := rfl
@[simp] theorem busBegin_cfg (s : State) : (busBegin s).cfg = s.cfg := rfl
@[simp] theorem busBegin_answers (s : State) : (busBegin s).answers = s.answers := rfl
@[simp] theorem busBegin_xfers (s : State) : (busBegin s).xfers = s.xfers := rfl
@[simp] theorem busBegin_trace (s : State) : (busBegin s).trace = s.trace ++ [.txBegin] := rfl

@[simp] theorem busEnd_mode (s : State) : (busEnd s).mode = s.mode := rfl
@[simp] theorem busEnd_filter (s : State) : (busEnd s).filter = s.filter := rfl
@[simp] theorem busEnd_offset (s : State) : (busEnd s).offset = s.offset := rfl
@[simp] theorem busEnd_gain (s : State) : (busEnd s).gain = s.gain := rfl
@[simp] theorem busEnd_ctx (s : State) : (busEnd s).ctx = s.ctx := rfl
@[simp] theorem busEnd_seq (s : State) : (busEnd s).seq = s.seq := rfl
@[simp] theorem busEnd_response (s : State) : (busEnd s).response = s.response := rfl
@[simp] theorem busEnd_hostIn (s : State) : (busEnd s).hostIn = s.hostIn := rfl
@[simp] theorem busEnd_cfg (s : State) : (busEnd s).cfg = s.cfg := rfl
@[simp] theorem busEnd_answers (s : State) : (busEnd s).answers = s.answers := rfl
@[simp] theorem busEnd_xfers (s : State) : (busEnd s).xfers = s.xfers := rfl
@[simp] theorem busEnd_trace (s : State) : (busEnd s).trace = s.trace ++ [.txEnd] := rfl

@[simp] theorem xfer_mode (b : Byte) (s : State) : (xfer b s).mode = s.mode := rfl
@[simp] theorem xfer_filter (b : Byte) (s : State) : (xfer b s).filter = s.filter := rfl
@[simp] theorem xfer_offset (b : Byte) (s : State) : (xfer b s).offset = s.offset := rfl
@[simp] theorem xfer_gain (b : Byte) (s : State) : (xfer b s).gain = s.gain := rfl
@[simp] theorem xfer_ctx (b : Byte) (s : State) : (xfer b s).ctx = s.ctx := rfl
@[simp] theorem xfer_seq (b : Byte) (s : State) : (xfer b s).seq = s.seq := rfl
@[simp] theorem xfer_response (b : Byte) (s : State) : (xfer b s).response = s.response := rfl
@[simp] theorem xfer_hostIn (b : Byte) (s : State) : (xfer b s).hostIn = s.hostIn := rfl
@[simp] theorem xfer_cfg (b : Byte) (s : State) : (xfer b s).cfg = s.cfg := rfl
@[simp] theorem xfer_answers (b : Byte) (s : State) : (xfer b s).answers = s.answers := rfl
@[simp] theorem xfer_xfers (b : Byte) (s : State) : (xfer b s).xfers = s.xfers + 1 := rfl
@[simp] theorem xfer_trace (b : Byte) (s : State) : (xfer b s).trace = s.trace ++ [.xfer b (s.answer s.xfers)] := rfl

@[simp] theorem toDefaults_mode (s : State) : (toDefaults s).mode = s.cfg.resetMode := rfl
@[simp] theorem toDefaults_filter (s : State) : (toDefaults s).filter = s.cfg.resetFilter := rfl
@[simp] theorem toDefaults_offset (s : State) : (toDefaults s).offset = s.cfg.resetOffset := rfl
@[simp] theorem toDefaults_gain (s : State) : (toDefaults s).gain = s.cfg.resetGain := rfl
@[simp] theorem toDefaults_ctx (s : State) : (toDefaults s).ctx = { s.ctx with valid := false } := rfl
@[simp] theorem toDefaults_seq (s : State) : (toDefaults s).seq = s.seq := rfl
@[simp] theorem toDefaults_response (s : State) : (toDefaults s).response = s.response := rfl
@[simp] theorem toDefaults_hostIn (s : State) : (toDefaults s).hostIn = s.hostIn := rfl
@[simp] theorem toDefaults_cfg (s : State) : (toDefaults s).cfg = s.cfg := rfl
@[simp] theorem toDefaults_answers (s : State) : (toDefaults s).answers = s.answers := rfl
@[simp] theorem toDefaults_xfers (s : State) : (toDefaults s).xfers = s.xfers := rfl
@[simp] theorem toDefaults_trace (s : State) : (toDefaults s).trace = s.trace := rfl

@[simp] theorem blockReset_mode (s : State) : (blockReset s).mode = s.cfg.resetMode := rfl
@[simp] theorem blockReset_filter (s : State) : (blockReset s).filter = s.cfg.resetFilter := rfl
@[simp] theorem blockReset_offset (s : State) : (blockReset s).offset = s.cfg.resetOffset := rfl
@[simp] theorem blockReset_gain (s : State) : (blockReset s).gain = s.cfg.resetGain := rfl
@[simp] theorem blockReset_ctx (s : State) : (blockReset s).ctx = Ctx.reset := rfl
@[simp] theorem blockReset_seq (s : State) : (blockReset s).seq = .idle := rfl
@[simp] theorem blockReset_response (s : State) : (blockReset s).response = none := rfl
@[simp] theorem blockReset_hostIn (s : State) : (blockReset s).hostIn = s.hostIn := rfl
@[simp] theorem blockReset_cfg (s : State) : (blockReset s).cfg = s.cfg := rfl
@[simp] theorem blockReset_answers (s : State) : (blockReset s).answers = s.answers := rfl
@[simp] theorem blockReset_xfers (s : State) : (blockReset s).xfers = s.xfers := rfl
@[simp] theorem blockReset_trace (s : State) : (blockReset s).trace = [] := rfl

@[simp] theorem enter_mode (op : Instr) (p : Phase) (i polls : Nat) (s : State) : (enter op p i polls s).mode = s.mode := rfl
@[simp] theorem enter_filter (op : Instr) (p : Phase) (i polls : Nat) (s : State) : (enter op p i polls s).filter = s.filter := rfl
@[simp] theorem enter_offset (op : Instr) (p : Phase) (i polls : Nat) (s : State) : (enter op p i polls s).offset = s.offset := rfl
@[simp] theorem enter_gain (op : Instr) (p : Phase) (i polls : Nat) (s : State) : (enter op p i polls s).gain = s.gain := rfl
@[simp] theorem enter_ctx (op : Instr) (p : Phase) (i polls : Nat) (s : State) : (enter op p i polls s).ctx = s.ctx := rfl
@[simp] theorem enter_seq (op : Instr) (p : Phase) (i polls : Nat) (s : State) : (enter op p i polls s).seq = .run { op := op, phase := p, i := i, acc := 0, polls := polls } := rfl
@[simp] theorem enter_response (op : Instr) (p : Phase) (i polls : Nat) (s : State) : (enter op p i polls s).response = none := rfl
@[simp] theorem enter_hostIn (op : Instr) (p : Phase) (i polls : Nat) (s : State) : (enter op p i polls s).hostIn = s.hostIn := rfl
@[simp] theorem enter_cfg (op : Instr) (p : Phase) (i polls : Nat) (s : State) : (enter op p i polls s).cfg = s.cfg := rfl
@[simp] theorem enter_answers (op : Instr) (p : Phase) (i polls : Nat) (s : State) : (enter op p i polls s).answers = s.answers := rfl
@[simp] theorem enter_xfers (op : Instr) (p : Phase) (i polls : Nat) (s : State) : (enter op p i polls s).xfers = s.xfers := rfl
@[simp] theorem enter_trace (op : Instr) (p : Phase) (i polls : Nat) (s : State) : (enter op p i polls s).trace = s.trace := rfl

@[simp] theorem afterTransaction_mode (s : State) (bytes : List Byte) : (s.afterTransaction bytes).mode = s.mode := rfl
@[simp] theorem afterTransaction_filter (s : State) (bytes : List Byte) : (s.afterTransaction bytes).filter = s.filter := rfl
@[simp] theorem afterTransaction_offset (s : State) (bytes : List Byte) : (s.afterTransaction bytes).offset = s.offset := rfl
@[simp] theorem afterTransaction_gain (s : State) (bytes : List Byte) : (s.afterTransaction bytes).gain = s.gain := rfl
@[simp] theorem afterTransaction_ctx (s : State) (bytes : List Byte) : (s.afterTransaction bytes).ctx = s.ctx := rfl
@[simp] theorem afterTransaction_seq (s : State) (bytes : List Byte) : (s.afterTransaction bytes).seq = s.seq := rfl
@[simp] theorem afterTransaction_response (s : State) (bytes : List Byte) : (s.afterTransaction bytes).response = s.response := rfl
@[simp] theorem afterTransaction_hostIn (s : State) (bytes : List Byte) : (s.afterTransaction bytes).hostIn = s.hostIn := rfl
@[simp] theorem afterTransaction_cfg (s : State) (bytes : List Byte) : (s.afterTransaction bytes).cfg = s.cfg := rfl
@[simp] theorem afterTransaction_answers (s : State) (bytes : List Byte) : (s.afterTransaction bytes).answers = s.answers := rfl
@[simp] theorem afterTransaction_xfers (s : State) (bytes : List Byte) : (s.afterTransaction bytes).xfers = s.xfers + bytes.length := rfl
@[simp] theorem afterTransaction_trace (s : State) (bytes : List Byte) : (s.afterTransaction bytes).trace = s.trace ++ (.txBegin :: s.xferEvents 0 bytes ++ [.txEnd]) := rfl

@[simp] theorem writeShadow_ctx (g : ShadowReg) (v : Word24) (s : State) : (writeShadow g v s).ctx = s.ctx := by
  cases g <;> rfl
@[simp] theorem writeShadow_seq (g : ShadowReg) (v : Word24) (s : State) : (writeShadow g v s).seq = s.seq := by
  cases g <;> rfl
@[simp] theorem writeShadow_response (g : ShadowReg) (v : Word24) (s : State) : (writeShadow g v s).response = s.response := by
  cases g <;> rfl
@[simp] theorem writeShadow_hostIn (g : ShadowReg) (v : Word24) (s : State) : (writeShadow g v s).hostIn = s.hostIn := by
  cases g <;> rfl
@[simp] theorem writeShadow_cfg (g : ShadowReg) (v : Word24) (s : State) : (writeShadow g v s).cfg = s.cfg := by
  cases g <;> rfl
@[simp] theorem writeShadow_answers (g : ShadowReg) (v : Word24) (s : State) : (writeShadow g v s).answers = s.answers := by
  cases g <;> rfl
@[simp] theorem writeShadow_xfers (g : ShadowReg) (v : Word24) (s : State) : (writeShadow g v s).xfers = s.xfers := by
  cases g <;> rfl
@[simp] theorem writeShadow_trace (g : ShadowReg) (v : Word24) (s : State) : (writeShadow g v s).trace = s.trace := by
  cases g <;> rfl

@[simp] theorem writeShadow_mode (g : ShadowReg) (v : Word24) (s : State) :
    (writeShadow g v s).mode = if g = .mode then v.setWidth 16 else s.mode := by cases g <;> rfl
@[simp] theorem writeShadow_filter (g : ShadowReg) (v : Word24) (s : State) :
    (writeShadow g v s).filter = if g = .filter then v else s.filter := by cases g <;> rfl
@[simp] theorem writeShadow_offset (g : ShadowReg) (v : Word24) (s : State) :
    (writeShadow g v s).offset = if g = .offset then v else s.offset := by cases g <;> rfl
@[simp] theorem writeShadow_gain (g : ShadowReg) (v : Word24) (s : State) :
    (writeShadow g v s).gain = if g = .gain then v.setWidth 16 else s.gain := by cases g <;> rfl

/-- A shadow reads as what was written to it, if that fits its width. -/
theorem readShadow_writeShadow (g : ShadowReg) (v : Word24) (s : State) (h : fits g v = true) :
    readShadow g (writeShadow g v s) = v := by
  have h' : v.toNat < 2 ^ g.width := by simpa [fits] using h
  cases g <;> simp only [readShadow, writeShadow, ShadowReg.width] at h' ⊢
  all_goals apply BitVec.eq_of_toNat_eq; simp only [BitVec.toNat_setWidth]; omega

/-- A write to one shadow leaves the others alone. -/
theorem readShadow_writeShadow_ne (g g' : ShadowReg) (v : Word24) (s : State) (h : g ≠ g') :
    readShadow g' (writeShadow g v s) = readShadow g' s := by
  cases g <;> cases g' <;> first | rfl | exact absurd rfl h

/-- What a shadow reads as fits its width. -/
theorem fits_readShadow (g : ShadowReg) (s : State) : fits g (readShadow g s) = true := by
  cases g
  · exact decide_eq_true (Nat.lt_of_le_of_lt (by simpa [readShadow] using Nat.mod_le _ _) s.mode.isLt)
  · exact decide_eq_true s.filter.isLt
  · exact decide_eq_true s.offset.isLt
  · exact decide_eq_true (Nat.lt_of_le_of_lt (by simpa [readShadow] using Nat.mod_le _ _) s.gain.isLt)

@[simp] theorem readShadow_respond (g : ShadowReg) (r : Response) (s : State) :
    readShadow g (respond r s) = readShadow g s := by cases g <;> rfl
@[simp] theorem readShadow_busBegin (g : ShadowReg) (s : State) : readShadow g (busBegin s) = readShadow g s := by
  cases g <;> rfl
@[simp] theorem readShadow_busEnd (g : ShadowReg) (s : State) : readShadow g (busEnd s) = readShadow g s := by
  cases g <;> rfl
@[simp] theorem readShadow_xfer (g : ShadowReg) (b : Byte) (s : State) : readShadow g (xfer b s) = readShadow g s := by
  cases g <;> rfl
@[simp] theorem readShadow_enter (g : ShadowReg) (op : Instr) (p : Phase) (i polls : Nat) (s : State) :
    readShadow g (enter op p i polls s) = readShadow g s := by cases g <;> rfl
@[simp] theorem readShadow_afterTransaction (g : ShadowReg) (s : State) (bytes : List Byte) :
    readShadow g (s.afterTransaction bytes) = readShadow g s := by cases g <;> rfl

@[simp] theorem shadowOf_reg (g : ShadowReg) : shadowOf g.reg = some g := by cases g <;> rfl
@[simp] theorem shadowedReg_reg (g : ShadowReg) : shadowedReg (.reg g.reg) = .ok g := by cases g <;> rfl
@[simp] theorem nbytes_reg (ctx : Ctx) (g : ShadowReg) : nbytes ctx g.reg = g.width / 8 := by cases g <;> rfl

/-- A selector is shadowed exactly when it names the register of a shadow. -/
theorem shadowedReg_ok_iff (sel : Sel) (g : ShadowReg) : shadowedReg sel = .ok g ↔ sel = .reg g.reg := by
  constructor
  · rcases sel with r | _ | _
    · cases r <;> cases g <;> simp [shadowedReg, shadowOf, ShadowReg.reg]
    · simp [shadowedReg]
    · simp [shadowedReg]
  · rintro rfl; exact shadowedReg_reg g

end Sys2Proof.Machine
end

