-- ==== Sys2Proof/Laws/Ops.lean ====
section
/-! SUPPORT. One lemma for each shared operation over the bus: everything it can do, in terms of the environment's next
answers (spec/20_memory.md R54, R56, R57). -/

namespace Sys2Proof.Machine

/-! ### The oracle -/

/-- The oracle depends on the scripted answers alone. -/
theorem answer_congr {s t : State} (h : t.answers = s.answers) (n : Nat) : t.answer n = s.answer n := by
  simp [State.answer, h]

theorem nextAnswer_congr {s t : State} (ha : t.answers = s.answers) (hx : t.xfers = s.xfers) (k : Nat) :
    t.nextAnswer k = s.nextAnswer k := by simp [State.nextAnswer, hx, answer_congr ha]

theorem xferEvents_congr {s t : State} (ha : t.answers = s.answers) (hx : t.xfers = s.xfers) (bytes : List Byte) (k : Nat) :
    t.xferEvents k bytes = s.xferEvents k bytes := by
  induction bytes generalizing k with
  | nil => rfl
  | cons b bs ih => simp [State.xferEvents, ih, nextAnswer_congr ha hx]

theorem allAnswered_congr {s t : State} (ha : t.answers = s.answers) (hx : t.xfers = s.xfers) (n : Nat) :
    t.allAnswered n ↔ s.allAnswered n := by
  unfold State.allAnswered
  simp only [nextAnswer_congr ha hx]

theorem failsAt_congr {s t : State} (ha : t.answers = s.answers) (hx : t.xfers = s.xfers) (n : Nat) :
    t.failsAt n ↔ s.failsAt n := by
  unfold State.failsAt
  rw [allAnswered_congr ha hx, nextAnswer_congr ha hx]

theorem readValue_congr {s t : State} (ha : t.answers = s.answers) (hx : t.xfers = s.xfers) (n : Nat) :
    t.readValue n = s.readValue n := by
  induction n with
  | zero => rfl
  | succ n ih => simp [State.readValue, ih, State.nextByte, nextAnswer_congr ha hx]

/-- After one `Xfer` the oracle stands one answer further on. -/
theorem nextAnswer_xfer (b : Byte) (s : State) (k : Nat) : (xfer b s).nextAnswer k = s.nextAnswer (k + 1) := by
  simp only [State.nextAnswer, xfer_xfers]
  rw [answer_congr (xfer_answers b s)]
  congr 1; omega

theorem xferEvents_xfer (b : Byte) (s : State) (bytes : List Byte) (k : Nat) :
    (xfer b s).xferEvents k bytes = s.xferEvents (k + 1) bytes := by
  induction bytes generalizing k with
  | nil => rfl
  | cons c cs ih => simp [State.xferEvents, ih, nextAnswer_xfer]

theorem nextByte_xfer (b : Byte) (s : State) (k : Nat) : (xfer b s).nextByte k = s.nextByte (k + 1) := by
  simp [State.nextByte, nextAnswer_xfer]

theorem allAnswered_succ (b : Byte) (s : State) (n : Nat) :
    s.allAnswered (n + 1) ↔ s.nextAnswer 0 ≠ .fail ∧ (xfer b s).allAnswered n := by
  constructor
  · intro h
    refine ⟨h 0 (by omega), fun k hk => ?_⟩
    rw [nextAnswer_xfer]
    exact h (k + 1) (by omega)
  · rintro ⟨h0, h⟩ k hk
    cases k with
    | zero => exact h0
    | succ k => rw [← nextAnswer_xfer b]; exact h k (by omega)

theorem failsAt_succ (b : Byte) (s : State) (n : Nat) :
    s.failsAt (n + 1) ↔ s.nextAnswer 0 ≠ .fail ∧ (xfer b s).failsAt n := by
  unfold State.failsAt
  rw [allAnswered_succ b, nextAnswer_xfer, and_assoc]

/-- Either the next `n` `Xfer`s succeed, or one of them is the first to fail. -/
theorem allAnswered_or_failsAt (s : State) (n : Nat) : s.allAnswered n ∨ ∃ k, k < n ∧ s.failsAt k := by
  induction n with
  | zero => exact .inl fun k hk => by omega
  | succ n ih =>
    rcases ih with h | ⟨k, hk, h⟩
    · by_cases hf : s.nextAnswer n = .fail
      · exact .inr ⟨n, by omega, h, hf⟩
      · refine .inl fun k hk => ?_
        by_cases hkn : k = n
        · exact hkn ▸ hf
        · exact h k (by omega)
    · exact .inr ⟨k, by omega, h⟩

/-- The first failing `Xfer` is unique. -/
theorem failsAt_unique {s : State} {j k : Nat} (hj : s.failsAt j) (hk : s.failsAt k) : j = k := by
  rcases Nat.lt_trichotomy j k with h | h | h
  · exact absurd hj.2 (hk.1 j h)
  · exact h
  · exact absurd hk.2 (hj.1 k h)

theorem not_failsAt_of_allAnswered {s : State} {n k : Nat} (h : s.allAnswered n) (hk : k < n) : ¬ s.failsAt k :=
  fun hf => h k hk hf.2

/-- An answer that is no failure is a byte. -/
theorem answer_eq_byte {s : State} (h : s.nextAnswer 0 ≠ .fail) : s.answer s.xfers = .byte (s.nextByte 0) := by
  simp only [State.nextByte, State.nextAnswer, Nat.add_zero] at *
  cases hc : s.answer s.xfers with
  | byte b => rfl
  | fail => exact absurd hc h

theorem answer_eq_fail {s : State} (h : s.nextAnswer 0 = .fail) : s.answer s.xfers = .fail := by
  simpa [State.nextAnswer] using h

/-! ### Sending -/

/-- The state after some `Xfer`s, nothing else changed. -/
def State.afterXfers (s : State) (bytes : List Byte) : State :=
  { s with xfers := s.xfers + bytes.length, trace := s.trace ++ s.xferEvents 0 bytes }

theorem afterXfers_nil (s : State) : s.afterXfers [] = s := by simp [State.afterXfers, State.xferEvents]

theorem afterXfers_cons (s : State) (b : Byte) (bs : List Byte) :
    s.afterXfers (b :: bs) = (xfer b s).afterXfers bs := by
  have hx : s.xfers + (bs.length + 1) = s.xfers + 1 + bs.length := by omega
  have he := xferEvents_xfer b s bs 0
  simp only [State.afterXfers, State.xferEvents, List.length_cons, he, hx]
  simp [xfer, State.nextAnswer]

/-- `sendBytes` with every `Xfer` answered. -/
theorem sendBytes_all (bytes : List Byte) (s : State) (h : s.allAnswered bytes.length) :
    sendBytes bytes s = (true, s.afterXfers bytes) := by
  induction bytes generalizing s with
  | nil => simp [sendBytes, afterXfers_nil]
  | cons b bs ih =>
    obtain ⟨h0, h1⟩ := (allAnswered_succ b s bs.length).1 h
    rw [sendBytes, answer_eq_byte h0, afterXfers_cons]
    exact ih _ h1

/-- `sendBytes` with an `Xfer` failing. -/
theorem sendBytes_fails (bytes : List Byte) (s : State) (k : Nat) (hk : k < bytes.length) (h : s.failsAt k) :
    sendBytes bytes s = (false, s.afterXfers (bytes.take (k + 1))) := by
  induction bytes generalizing s k with
  | nil => simp at hk
  | cons b bs ih =>
    cases k with
    | zero =>
      rw [sendBytes, answer_eq_fail h.2]
      simp [afterXfers_cons, afterXfers_nil]
    | succ k =>
      obtain ⟨h0, h1⟩ := (failsAt_succ b s k).1 h
      rw [sendBytes, answer_eq_byte h0, List.take_succ_cons, afterXfers_cons]
      exact ih _ k (by simpa using hk) h1

theorem afterTransaction_eq (bytes : List Byte) (s : State) :
    busEnd ((busBegin s).afterXfers bytes) = s.afterTransaction bytes := by
  simp [busEnd, busBegin, State.afterXfers, State.afterTransaction,
    xferEvents_congr (s := s) (t := { s with trace := s.trace ++ [.txBegin] }) rfl rfl]

/-- `sendFramed` with every `Xfer` answered: one whole transaction (R54). -/
theorem sendFramed_all (bytes : List Byte) (s : State) (h : s.allAnswered bytes.length) :
    sendFramed bytes s = (true, s.afterTransaction bytes) := by
  have h' : (busBegin s).allAnswered bytes.length := (allAnswered_congr (s := s) (t := busBegin s) rfl rfl _).2 h
  simp [sendFramed, sendBytes_all bytes _ h', afterTransaction_eq]

/-- `sendFramed` with an `Xfer` failing: nothing is sent after it but `End` (R54). -/
theorem sendFramed_fails (bytes : List Byte) (s : State) (k : Nat) (hk : k < bytes.length) (h : s.failsAt k) :
    sendFramed bytes s = (false, s.afterTransaction (bytes.take (k + 1))) := by
  have h' : (busBegin s).failsAt k := (failsAt_congr (s := s) (t := busBegin s) rfl rfl _).2 h
  simp [sendFramed, sendBytes_fails bytes _ k hk h', afterTransaction_eq]

@[simp] theorem wireBytes_length (v : Word24) (n : Nat) : (wireBytes v n).length = n := by
  induction n with
  | zero => rfl
  | succ n ih => simp [wireBytes, ih]

@[simp] theorem writeBytes_length (cfg : Cfg) (r : Reg) (n : Nat) (v : Word24) : (writeBytes cfg r n v).length = n + 1 := by
  simp [writeBytes]

@[simp] theorem readBytes_length (cfg : Cfg) (r : Reg) (n : Nat) : (readBytes cfg r n).length = n + 1 := by simp [readBytes]

/-- Everything `memWrite` can do (R56). -/
theorem memWrite_cases (r : Reg) (n : Nat) (v : Word24) (s : State) :
    (s.allAnswered (n + 1) ∧ memWrite r n v s = (true, s.afterTransaction (writeBytes s.cfg r n v))) ∨
    ∃ k, k < n + 1 ∧ s.failsAt k ∧ memWrite r n v s = (false, s.afterTransaction ((writeBytes s.cfg r n v).take (k + 1))) := by
  rcases allAnswered_or_failsAt s (n + 1) with h | ⟨k, hk, h⟩
  · exact .inl ⟨h, sendFramed_all (writeBytes s.cfg r n v) s (by simpa using h)⟩
  · exact .inr ⟨k, hk, h, sendFramed_fails (writeBytes s.cfg r n v) s k (by simpa using hk) h⟩

/-! ### Receiving -/

/-- The accumulator after `n` more bytes, the first of them the `k`-th answer from here. -/
def State.accumulate (s : State) : Nat → Nat → Word24 → Word24
  | _, 0, acc => acc
  | k, n + 1, acc => s.accumulate (k + 1) n (shiftIn acc (s.nextByte k))

theorem accumulate_xfer (b : Byte) (s : State) (n k : Nat) (acc : Word24) :
    (xfer b s).accumulate k n acc = s.accumulate (k + 1) n acc := by
  induction n generalizing k acc with
  | zero => rfl
  | succ n ih => simp [State.accumulate, ih, nextByte_xfer]

theorem receiveBytes_all (n : Nat) (acc : Word24) (s : State) (h : s.allAnswered n) :
    receiveBytes n acc s = (some (s.accumulate 0 n acc), s.afterXfers (List.replicate n Config.readFill)) := by
  induction n generalizing acc s with
  | zero => simp [receiveBytes, State.accumulate, afterXfers_nil]
  | succ n ih =>
    obtain ⟨h0, h1⟩ := (allAnswered_succ Config.readFill s n).1 h
    rw [receiveBytes, answer_eq_byte h0, List.replicate_succ, afterXfers_cons]
    simp only [ih _ _ h1, State.accumulate, accumulate_xfer]

theorem receiveBytes_fails (n : Nat) (acc : Word24) (s : State) (k : Nat) (hk : k < n) (h : s.failsAt k) :
    receiveBytes n acc s = (none, s.afterXfers (List.replicate (k + 1) Config.readFill)) := by
  induction n generalizing acc s k with
  | zero => omega
  | succ n ih =>
    cases k with
    | zero =>
      rw [receiveBytes, answer_eq_fail h.2]
      simp [afterXfers_cons, afterXfers_nil]
    | succ k =>
      obtain ⟨h0, h1⟩ := (failsAt_succ Config.readFill s k).1 h
      rw [receiveBytes, answer_eq_byte h0, List.replicate_succ, afterXfers_cons]
      exact ih _ _ k (by omega) h1

/-- One more byte shifted into an accumulator that has room for it. -/
theorem shiftIn_toNat (acc : Word24) (b : Byte) (h : acc.toNat < 2 ^ 16) :
    (shiftIn acc b).toNat = 256 * acc.toNat + b.toNat := by
  have hb := b.isLt
  simp only [shiftIn, BitVec.toNat_or, BitVec.toNat_shiftLeft, BitVec.toNat_setWidth]
  have hs : acc.toNat <<< 8 < 2 ^ 24 := by rw [Nat.shiftLeft_eq]; omega
  rw [Nat.mod_eq_of_lt (show b.toNat < 2 ^ 24 by omega), Nat.mod_eq_of_lt hs,
    ← Nat.shiftLeft_add_eq_or_of_lt hb, Nat.shiftLeft_eq]
  omega

theorem accumulate_snoc (s : State) (n k : Nat) (acc : Word24) :
    s.accumulate k (n + 1) acc = shiftIn (s.accumulate k n acc) (s.nextByte (k + n)) := by
  induction n generalizing k acc with
  | zero => rfl
  | succ n ih =>
    rw [State.accumulate, ih, State.accumulate]
    congr 2; omega

/-- A wire read of `n` bytes is below `2^(8n)` (spec/41_register_protocol.md R113). -/
theorem readValue_lt (s : State) (n : Nat) : s.readValue n < 256 ^ n := by
  induction n with
  | zero => simp [State.readValue]
  | succ n ih =>
    have hb := (s.nextByte (n + 1)).isLt
    rw [State.readValue, Nat.pow_succ]; omega

/-- Up to three bytes, the accumulator holds the big-endian value (R57). -/
theorem accumulate_eq_readValue (s : State) (n : Nat) (hn : n ≤ 3) :
    s.accumulate 1 n 0 = BitVec.ofNat 24 (s.readValue n) := by
  induction n with
  | zero => rfl
  | succ n ih =>
    have hlt := readValue_lt s n
    have hlt' := readValue_lt s (n + 1)
    have h2 : (256 : Nat) ^ n ≤ 2 ^ 16 := by
      rw [show (2 : Nat) ^ 16 = 256 ^ 2 by norm_num]; exact Nat.pow_le_pow_right (by omega) (by omega)
    have h3 : (256 : Nat) ^ (n + 1) ≤ 2 ^ 24 := by
      rw [show (2 : Nat) ^ 24 = 256 ^ 3 by norm_num]; exact Nat.pow_le_pow_right (by omega) (by omega)
    have hmod : (BitVec.ofNat 24 (s.readValue n)).toNat = s.readValue n := by
      rw [BitVec.toNat_ofNat]; exact Nat.mod_eq_of_lt (by omega)
    rw [accumulate_snoc, ih (by omega), Nat.add_comm 1 n]
    apply BitVec.eq_of_toNat_eq
    rw [shiftIn_toNat _ _ (by omega), hmod, BitVec.toNat_ofNat, Nat.mod_eq_of_lt (by omega), State.readValue]

/-- The number of bytes of a register is at most three, and at least one (R55). -/
theorem nbytes_le (ctx : Ctx) (r : Reg) : nbytes ctx r ≤ 3 := by
  cases r <;> simp only [nbytes] <;> (try cases ctx.wordLength) <;> decide

@[inherit_doc nbytes_le]
theorem nbytes_pos (ctx : Ctx) (r : Reg) : 1 ≤ nbytes ctx r := by
  cases r <;> simp only [nbytes] <;> (try cases ctx.wordLength) <;> decide

/-- `memRead` with every `Xfer` answered (R57). -/
theorem memRead_all (r : Reg) (n : Nat) (hn : n ≤ 3) (s : State) (h : s.allAnswered (n + 1)) :
    memRead r n s = (some (BitVec.ofNat 24 (s.readValue n)), s.afterTransaction (readBytes s.cfg r n)) := by
  have h' : (busBegin s).allAnswered (n + 1) := (allAnswered_congr (s := s) (t := busBegin s) rfl rfl _).2 h
  obtain ⟨h0, h1⟩ := (allAnswered_succ (cmdByte s.cfg .read r) (busBegin s) n).1 h'
  simp only [memRead, answer_eq_byte h0, receiveBytes_all n 0 _ h1, accumulate_xfer]
  rw [← afterXfers_cons, ← accumulate_eq_readValue s n hn]
  refine Prod.ext ?_ ?_
  · have : (busBegin s).accumulate (0 + 1) n 0 = s.accumulate 1 n 0 := by
      have hg : ∀ (m k : Nat) (acc : Word24), (busBegin s).accumulate k m acc = s.accumulate k m acc := by
        intro m
        induction m with
        | zero => intros; rfl
        | succ m ih =>
          intro k acc
          simp only [State.accumulate, ih, State.nextByte,
            nextAnswer_congr (s := s) (t := busBegin s) rfl rfl]
      exact hg n 1 0
    exact congrArg some this
  · exact afterTransaction_eq (readBytes s.cfg r n) s

/-- `memRead` with an `Xfer` failing (R57): no value. -/
theorem memRead_fails (r : Reg) (n : Nat) (s : State) (k : Nat) (hk : k < n + 1) (h : s.failsAt k) :
    memRead r n s = (none, s.afterTransaction ((readBytes s.cfg r n).take (k + 1))) := by
  have h' : (busBegin s).failsAt k := (failsAt_congr (s := s) (t := busBegin s) rfl rfl _).2 h
  cases k with
  | zero =>
    simp only [memRead, answer_eq_fail h'.2]
    rw [← afterTransaction_eq]
    simp [readBytes, afterXfers_cons, afterXfers_nil]
  | succ k =>
    obtain ⟨h0, h1⟩ := (failsAt_succ (cmdByte s.cfg .read r) (busBegin s) k).1 h'
    simp only [memRead, answer_eq_byte h0, receiveBytes_fails n 0 _ k (by omega) h1]
    rw [← afterXfers_cons, ← afterTransaction_eq]
    simp only [readBytes, List.take_succ_cons, List.take_replicate]
    rw [Nat.min_eq_left (by omega)]

/-- Everything `memRead` can do (R57). -/
theorem memRead_cases (r : Reg) (n : Nat) (hn : n ≤ 3) (s : State) :
    (s.allAnswered (n + 1) ∧
      memRead r n s = (some (BitVec.ofNat 24 (s.readValue n)), s.afterTransaction (readBytes s.cfg r n))) ∨
    ∃ k, k < n + 1 ∧ s.failsAt k ∧ memRead r n s = (none, s.afterTransaction ((readBytes s.cfg r n).take (k + 1))) := by
  rcases allAnswered_or_failsAt s (n + 1) with h | ⟨k, hk, h⟩
  · exact .inl ⟨h, memRead_all r n hn s h⟩
  · exact .inr ⟨k, hk, h, memRead_fails r n s k hk h⟩

/-! ### Storing and loading a register -/

theorem fits_of_width (g : ShadowReg) : g.width / 8 ≤ 3 := by cases g <;> decide

/-- `storeRegister` with every `Xfer` answered (spec/41_register_protocol.md R111). -/
theorem storeRegister_all (g : ShadowReg) (v : Word24) (payload : Word64) (s : State) (hv : fits g v = true)
    (h : s.allAnswered (g.width / 8 + 1)) :
    storeRegister g v payload s =
      respond (.ok payload) ((writeShadow g v s).afterTransaction (writeBytes s.cfg g.reg (g.width / 8) v)) := by
  have h' := (allAnswered_congr (s := s) (t := writeShadow g v s) (by simp) (by simp) (g.width / 8 + 1)).2 h
  simp only [storeRegister, nbytes_reg, readShadow_writeShadow g v s hv]
  rw [memWrite, writeShadow_cfg, sendFramed_all (cmdByte s.cfg .write g.reg :: wireBytes v (g.width / 8)) _ (by simpa using h')]
  rfl

/-- `storeRegister` with an `Xfer` failing: the shadow keeps the new value (spec/41_register_protocol.md R111). -/
theorem storeRegister_fails (g : ShadowReg) (v : Word24) (payload : Word64) (s : State) (hv : fits g v = true) (k : Nat)
    (hk : k < g.width / 8 + 1) (h : s.failsAt k) :
    storeRegister g v payload s =
      respond (.error .busError)
        ((writeShadow g v s).afterTransaction ((writeBytes s.cfg g.reg (g.width / 8) v).take (k + 1))) := by
  have h' := (failsAt_congr (s := s) (t := writeShadow g v s) (by simp) (by simp) k).2 h
  simp only [storeRegister, nbytes_reg, readShadow_writeShadow g v s hv]
  rw [memWrite, writeShadow_cfg, sendFramed_fails (cmdByte s.cfg .write g.reg :: wireBytes v (g.width / 8)) _ k (by simpa using hk) h']
  rfl

/-- `loadRegister` with every `Xfer` answered (spec/41_register_protocol.md R112). -/
theorem loadRegister_all (r : Reg) (k : Word24 → State → State) (s : State) (h : s.allAnswered (nbytes s.ctx r + 1)) :
    loadRegister r k s =
      k (BitVec.ofNat 24 (s.readValue (nbytes s.ctx r))) (s.afterTransaction (readBytes s.cfg r (nbytes s.ctx r))) := by
  simp only [loadRegister, memRead_all r _ (nbytes_le s.ctx r) s h]

/-- `loadRegister` with an `Xfer` failing: `BusError` and no value (spec/41_register_protocol.md R112). -/
theorem loadRegister_fails (r : Reg) (k : Word24 → State → State) (s : State) (j : Nat) (hj : j < nbytes s.ctx r + 1)
    (h : s.failsAt j) :
    loadRegister r k s =
      respond (.error .busError) (s.afterTransaction ((readBytes s.cfg r (nbytes s.ctx r)).take (j + 1))) := by
  simp only [loadRegister, memRead_fails r _ s j hj h, raise_eq_respond]

/-- Everything `loadRegister` can do. -/
theorem loadRegister_cases (r : Reg) (k : Word24 → State → State) (s : State) :
    (s.allAnswered (nbytes s.ctx r + 1) ∧ loadRegister r k s =
      k (BitVec.ofNat 24 (s.readValue (nbytes s.ctx r))) (s.afterTransaction (readBytes s.cfg r (nbytes s.ctx r)))) ∨
    ∃ j, j < nbytes s.ctx r + 1 ∧ s.failsAt j ∧ loadRegister r k s =
      respond (.error .busError) (s.afterTransaction ((readBytes s.cfg r (nbytes s.ctx r)).take (j + 1))) := by
  rcases allAnswered_or_failsAt s (nbytes s.ctx r + 1) with h | ⟨j, hj, h⟩
  · exact .inl ⟨h, loadRegister_all r k s h⟩
  · exact .inr ⟨j, hj, h, loadRegister_fails r k s j hj h⟩

/-- Everything `hostOp` can do: the body on an idle block, a refusal on a busy one (spec/70_reset_and_hazards.md R224). -/
theorem hostOp_cases (body : State → State) (s : State) :
    (s.seq = .idle ∧ hostOp body s = .next (body s)) ∨
    ((∃ r, s.seq = .run r) ∧ hostOp body s = .refused .commandWhileBusy) := by
  unfold hostOp
  cases h : s.seq with
  | idle => exact .inl ⟨rfl, rfl⟩
  | run r => exact .inr ⟨⟨r, rfl⟩, rfl⟩

theorem hostOp_idle (body : State → State) (s : State) (h : s.seq = .idle) : hostOp body s = .next (body s) := by
  simp [hostOp, h]

end Sys2Proof.Machine
end

