-- ==== Sys2Proof/Laws/Exec.lean ====
section
/-! SUPPORT. What `exec` is for each host operation and for the wire command bytes, so that no proof unfolds the dispatch. -/

namespace Sys2Proof.Machine

@[simp] theorem exec_encode (dir : Dir) (sel : Sel) (s : State) :
    exec (.encode dir sel) s = hostOp (doEncode dir sel) s := rfl
@[simp] theorem exec_wrreg (sel : Sel) (value : Word24) (s : State) :
    exec (.wrreg sel value) s = hostOp (doWrreg sel value) s := rfl
@[simp] theorem exec_rdreg (sel : Sel) (s : State) : exec (.rdreg sel) s = hostOp (doRdreg sel) s := rfl
@[simp] theorem exec_refresh (sel : Sel) (s : State) : exec (.refresh sel) s = hostOp (doRefresh sel) s := rfl
@[simp] theorem exec_setfld (sel : Sel) (bits mask : Word24) (s : State) :
    exec (.setfld sel bits mask) s = hostOp (doSetfld sel bits mask) s := rfl
@[simp] theorem exec_setmode (m : ModeState) (s : State) : exec (.setmode m) s = hostOp (doSetmode m) s := rfl
@[simp] theorem exec_waitrdy (maxPolls : Nat) (s : State) :
    exec (.waitrdy maxPolls) s = hostOp (doWaitrdy maxPolls) s := rfl
@[simp] theorem exec_rdstat (s : State) : exec .rdstat s = hostOp doRdstat s := rfl
@[simp] theorem exec_chiprst (s : State) : exec .chiprst s = hostOp doChiprst s := rfl
@[simp] theorem exec_setctx (range : Word16) (pol : Polarity) (refMinus refPlus : Word16) (wl : WordLength) (s : State) :
    exec (.setctx range pol refMinus refPlus wl) s = hostOp (doSetctx range pol refMinus refPlus wl) s := rfl
@[simp] theorem exec_convert (rawCode : Nat) (s : State) :
    exec (.convert rawCode) s = hostOp (doConvert rawCode) s := rfl
@[simp] theorem exec_rdvolt (s : State) : exec .rdvolt s = hostOp doRdvolt s := rfl
@[simp] theorem exec_getshd (sel : Sel) (s : State) : exec (.getshd sel) s = hostOp (doGetshd sel) s := rfl
@[simp] theorem exec_getmode (s : State) : exec .getmode s = hostOp doGetmode s := rfl
@[simp] theorem exec_getctx (s : State) : exec .getctx s = hostOp doGetctx s := rfl

/-- Each of the twelve wire command bytes is `sendCommand` of its direction and register. -/
@[simp] theorem exec_ofCommand (d : Dir) (r : Reg) (s : State) : exec (Instr.ofCommand d r) s = sendCommand d r s := by
  cases d <;> cases r <;> rfl

@[simp] theorem exec_resetByte (s : State) : exec .resetByte s = execResetByte s := rfl

/-- All that a conversion answers: the voltage wherever that is an s64; nothing is known of the answer elsewhere (log 22). -/
theorem voltagePayload_toInt {cfg : Cfg} {x : Ctx} {c : Nat} (lo : -2 ^ 63 ≤ toVoltage cfg x c)
    (hi : toVoltage cfg x c < 2 ^ 63) : (voltagePayload cfg x c).toInt = toVoltage cfg x c := by
  have h : fitsS64 (toVoltage cfg x c) = true := by simp only [fitsS64, lo, hi, decide_true, Bool.and_self]
  rw [voltagePayload, if_pos h, BitVec.toInt_ofInt]
  exact Int.bmod_eq_of_le (by omega) (by omega)

/-- A wire command byte is `Instr.ofCommand` of its direction and register. -/
theorem ofCommand_of_wireCommand {i : Instr} {d : Dir} {r : Reg} (h : i.wireCommand = some (d, r)) :
    i = Instr.ofCommand d r := by
  cases i <;> simp [Instr.wireCommand] at h <;> obtain ⟨rfl, rfl⟩ := h <;> rfl

/-- An instruction is a host operation, one of the twelve command bytes, or the reset byte. -/
theorem instr_cases (i : Instr) : i.isHostOp = true ∨ (∃ d r, i = Instr.ofCommand d r) ∨ i = .resetByte := by
  cases i <;> first
    | exact .inl rfl
    | exact .inr (.inr rfl)
    | exact .inr (.inl ⟨_, _, ofCommand_of_wireCommand rfl⟩)

/-- The encoder's bytes are read back by the wire decoder as the instruction of their direction and register. -/
theorem decodeWire_cmdByte {cfg : Cfg} (h : cfg.wf = true) (d : Dir) (r : Reg) :
    decodeWire cfg (cmdByte cfg d r) = .ok (Instr.ofCommand d r) := by
  obtain ⟨hw, hrw, hrs, ho, hne⟩ := layoutByte_fields cfg.cmd (Cfg.wf_cmd h) d.code (r.code cfg.sels)
  have hsel : Sel.ofCode cfg.sels (r.code cfg.sels) = .reg r := Sel.ofCode_code (Cfg.wf_sels h) (.reg r)
  rw [cmdByte_eq, decodeWire, if_neg hne, hw, ho, hrw, hrs, hsel]
  cases d <;> rfl

@[simp] theorem decodeWire_resetByte (cfg : Cfg) : decodeWire cfg Config.resetByte = .ok .resetByte := by
  simp [decodeWire]

end Sys2Proof.Machine
end

