-- ==== Sys2Proof/Laws/PerInstr.lean ====
section
/-! SUPPORT. A statement about every instruction, one lemma per constructor: where its encoding lies in the opcode maps of
spec/30_encoding.md (R82 for the host operations, R73 and R76 for the wire bytes). -/

namespace Sys2Proof.Laws.OpcodeMap

/-- The opcode of a host operation (R82), the byte of a wire instruction (R73, R76), read off the spec's tables. -/
def number : Instr → Nat
  | .encode _ _ => 0x0
  | .wrreg _ _ => 0x1
  | .rdreg _ => 0x2
  | .refresh _ => 0x3
  | .setfld _ _ _ => 0x4
  | .setmode _ => 0x5
  | .waitrdy _ => 0x6
  | .rdstat => 0x7
  | .chiprst => 0x8
  | .setctx _ _ _ _ _ => 0x9
  | .convert _ => 0xA
  | .rdvolt => 0xB
  | .getshd _ => 0xC
  | .getmode => 0xD
  | .getctx => 0xE
  | .cmdWrStatus => 0x00
  | .cmdRdStatus => 0x30
  | .cmdWrData => 0x01
  | .cmdRdData => 0x31
  | .cmdWrMode => 0x02
  | .cmdRdMode => 0x32
  | .cmdWrFilter => 0x03
  | .cmdRdFilter => 0x33
  | .cmdWrOffset => 0x05
  | .cmdRdOffset => 0x35
  | .cmdWrGain => 0x06
  | .cmdRdGain => 0x36
  | .resetByte => 0xFF

/-- A host operation is encoded as a command word with its opcode in bits 63:60; a wire instruction as a byte, which is
the table's own with the layout and the selector codes of R70 and R72. -/
def Statement (i : Instr) : Prop :=
  ∀ cfg : Cfg,
    match encode cfg i with
    | .host cw => i.isHostOp = true ∧ (field cw 60 4).toNat = number i
    | .wire b => i.isHostOp = false ∧ (cfg.cmd = .default → cfg.sels = .default → b.toNat = number i)

/-- A command byte depends on the layout and the selector codes alone. -/
theorem cmdByte_default {cfg : Cfg} (hc : cfg.cmd = .default) (hs : cfg.sels = .default) (d : Dir) (r : Reg) :
    cmdByte cfg d r = cmdByte Cfg.default d r := by
  rw [cmdByte_eq, cmdByte_eq, hc, hs]; rfl

theorem encode (dir : Dir) (sel : Sel) : Statement (.encode dir sel) :=
  fun _ => ⟨rfl, congrArg BitVec.toNat (field_opcode 0x0 _ (by decide))⟩
theorem wrreg (sel : Sel) (value : Word24) : Statement (.wrreg sel value) :=
  fun _ => ⟨rfl, congrArg BitVec.toNat (field_opcode 0x1 _ (by decide))⟩
theorem rdreg (sel : Sel) : Statement (.rdreg sel) := fun _ => ⟨rfl, congrArg BitVec.toNat (field_opcode 0x2 _ (by decide))⟩
theorem refresh (sel : Sel) : Statement (.refresh sel) := fun _ => ⟨rfl, congrArg BitVec.toNat (field_opcode 0x3 _ (by decide))⟩
theorem setfld (sel : Sel) (bits mask : Word24) : Statement (.setfld sel bits mask) :=
  fun _ => ⟨rfl, congrArg BitVec.toNat (field_opcode 0x4 _ (by decide))⟩
theorem setmode (state : ModeState) : Statement (.setmode state) :=
  fun _ => ⟨rfl, congrArg BitVec.toNat (field_opcode 0x5 _ (by decide))⟩
theorem waitrdy (maxPolls : Nat) : Statement (.waitrdy maxPolls) :=
  fun _ => ⟨rfl, congrArg BitVec.toNat (field_opcode 0x6 _ (by decide))⟩
theorem rdstat : Statement .rdstat := fun _ => ⟨rfl, congrArg BitVec.toNat (field_opcode 0x7 _ (by decide))⟩
theorem chiprst : Statement .chiprst := fun _ => ⟨rfl, congrArg BitVec.toNat (field_opcode 0x8 _ (by decide))⟩
theorem setctx (range : Word16) (pol : Polarity) (refMinus refPlus : Word16) (wl : WordLength) :
    Statement (.setctx range pol refMinus refPlus wl) := fun _ => ⟨rfl, congrArg BitVec.toNat (field_opcode 0x9 _ (by decide))⟩
theorem convert (rawCode : Nat) : Statement (.convert rawCode) :=
  fun _ => ⟨rfl, congrArg BitVec.toNat (field_opcode 0xA _ (by decide))⟩
theorem rdvolt : Statement .rdvolt := fun _ => ⟨rfl, congrArg BitVec.toNat (field_opcode 0xB _ (by decide))⟩
theorem getshd (sel : Sel) : Statement (.getshd sel) := fun _ => ⟨rfl, congrArg BitVec.toNat (field_opcode 0xC _ (by decide))⟩
theorem getmode : Statement .getmode := fun _ => ⟨rfl, congrArg BitVec.toNat (field_opcode 0xD _ (by decide))⟩
theorem getctx : Statement .getctx := fun _ => ⟨rfl, congrArg BitVec.toNat (field_opcode 0xE _ (by decide))⟩
theorem cmdWrStatus : Statement .cmdWrStatus :=
  fun _ => ⟨rfl, fun hc hs => congrArg BitVec.toNat (cmdByte_default hc hs _ _)⟩
theorem cmdRdStatus : Statement .cmdRdStatus :=
  fun _ => ⟨rfl, fun hc hs => congrArg BitVec.toNat (cmdByte_default hc hs _ _)⟩
theorem cmdWrData : Statement .cmdWrData :=
  fun _ => ⟨rfl, fun hc hs => congrArg BitVec.toNat (cmdByte_default hc hs _ _)⟩
theorem cmdRdData : Statement .cmdRdData :=
  fun _ => ⟨rfl, fun hc hs => congrArg BitVec.toNat (cmdByte_default hc hs _ _)⟩
theorem cmdWrMode : Statement .cmdWrMode :=
  fun _ => ⟨rfl, fun hc hs => congrArg BitVec.toNat (cmdByte_default hc hs _ _)⟩
theorem cmdRdMode : Statement .cmdRdMode :=
  fun _ => ⟨rfl, fun hc hs => congrArg BitVec.toNat (cmdByte_default hc hs _ _)⟩
theorem cmdWrFilter : Statement .cmdWrFilter :=
  fun _ => ⟨rfl, fun hc hs => congrArg BitVec.toNat (cmdByte_default hc hs _ _)⟩
theorem cmdRdFilter : Statement .cmdRdFilter :=
  fun _ => ⟨rfl, fun hc hs => congrArg BitVec.toNat (cmdByte_default hc hs _ _)⟩
theorem cmdWrOffset : Statement .cmdWrOffset :=
  fun _ => ⟨rfl, fun hc hs => congrArg BitVec.toNat (cmdByte_default hc hs _ _)⟩
theorem cmdRdOffset : Statement .cmdRdOffset :=
  fun _ => ⟨rfl, fun hc hs => congrArg BitVec.toNat (cmdByte_default hc hs _ _)⟩
theorem cmdWrGain : Statement .cmdWrGain :=
  fun _ => ⟨rfl, fun hc hs => congrArg BitVec.toNat (cmdByte_default hc hs _ _)⟩
theorem cmdRdGain : Statement .cmdRdGain :=
  fun _ => ⟨rfl, fun hc hs => congrArg BitVec.toNat (cmdByte_default hc hs _ _)⟩
theorem resetByte : Statement .resetByte := fun _ => ⟨rfl, fun _ _ => rfl⟩

end Sys2Proof.Laws.OpcodeMap
end

