-- ==== Sys2Proof/Laws/Sequencer.lean ====
section
/-! SUPPORT. One lemma for each operation of the sequencer (spec/10_state.md R28): what each byte does, in terms of the
environment's next answer; and the bus automaton over a trace in parts. -/

namespace Sys2Proof.Machine

/-! ### The bus automaton -/

/-- Where the bus stands after a trace in two parts. -/
theorem busAfter_append (cfg : Cfg) (p : BusPhase) (a b : List BusEvent) :
    busAfter cfg p (a ++ b) = (busAfter cfg p a).bind (busAfter cfg · b) := by
  induction a generalizing p with
  | nil => rfl
  | cons e es ih =>
    simp only [List.cons_append, busAfter]
    cases p.next cfg e <;> simp [ih]

/-- The `Xfer` events of two runs of bytes. -/
theorem xferEvents_append (s : State) (a b : List Byte) (k : Nat) :
    s.xferEvents k (a ++ b) = s.xferEvents k a ++ s.xferEvents (k + a.length) b := by
  induction a generalizing k with
  | nil => simp [State.xferEvents]
  | cons c cs ih =>
    simp only [List.cons_append, State.xferEvents, ih, List.length_cons]
    rw [show k + 1 + cs.length = k + (cs.length + 1) by omega]

/-! ### One byte -/

@[simp] theorem afterByte_zero (r : Run) (s : State) : afterByte r 0 s = complete { r with i := 0 } (busEnd s) := rfl
@[simp] theorem afterByte_succ (r : Run) (n : Nat) (s : State) :
    afterByte r (n + 1) s = .next { s with seq := .run { r with i := n + 1 } } := rfl

/-- Everything `emitCommand` can do (R54, R73). -/
theorem emitCommand_cases (d : Dir) (g : Reg) (r : Run) (s : State) :
    (isEncode r.op = true ∧ emitCommand d g r s = respond (.ok ((cmdByte s.cfg d g).setWidth 64)) s) ∨
    (isEncode r.op = false ∧ s.nextAnswer 0 ≠ .fail ∧
      emitCommand d g r s = { xfer (cmdByte s.cfg d g) s with seq := .run { r with phase := .data } }) ∨
    (isEncode r.op = false ∧ s.nextAnswer 0 = .fail ∧
      emitCommand d g r s = respond (.error .busError) (busEnd (xfer (cmdByte s.cfg d g) s))) := by
  unfold emitCommand
  cases he : isEncode r.op
  · by_cases hf : s.nextAnswer 0 = .fail
    · exact .inr (.inr ⟨rfl, hf, by simp [answer_eq_fail hf]⟩)
    · exact .inr (.inl ⟨rfl, hf, by simp [answer_eq_byte hf]⟩)
  · exact .inl ⟨rfl, by simp⟩

/-- Everything `advanceData` can do while writing (R56). -/
theorem advanceData_write (r : Run) (s : State) (left : Nat) (g : ShadowReg) (hi : r.i = left + 1)
    (hc : commandOf r.op = some (.write, g.reg)) :
    (s.nextAnswer 0 ≠ .fail ∧ advanceData r s = afterByte r left (xfer (dataByte g left s) s)) ∨
    (s.nextAnswer 0 = .fail ∧
      advanceData r s = .next (respond (.error .busError) (busEnd (xfer (dataByte g left s) s)))) := by
  unfold advanceData
  by_cases hf : s.nextAnswer 0 = .fail
  · exact .inr ⟨hf, by simp [hi, hc, answer_eq_fail hf]⟩
  · exact .inl ⟨hf, by simp [hi, hc, answer_eq_byte hf]⟩

/-- Everything `advanceData` can do while reading (R57). -/
theorem advanceData_read (r : Run) (s : State) (left : Nat) (g : Reg) (hi : r.i = left + 1)
    (hc : commandOf r.op = some (.read, g)) :
    (s.nextAnswer 0 ≠ .fail ∧
      advanceData r s =
        afterByte { r with acc := shiftIn r.acc (s.nextByte 0) } left (xfer Config.readFill s)) ∨
    (s.nextAnswer 0 = .fail ∧
      advanceData r s = .next (respond (.error .busError) (busEnd (xfer Config.readFill s)))) := by
  unfold advanceData
  by_cases hf : s.nextAnswer 0 = .fail
  · exact .inr ⟨hf, by simp [hi, hc, answer_eq_fail hf]⟩
  · exact .inl ⟨hf, by simp [hi, hc, answer_eq_byte hf]⟩

/-- Everything `sendReset` can do (R76). -/
theorem sendReset_cases (r : Run) (s : State) (left : Nat) :
    (s.nextAnswer 0 = .fail ∧ sendReset r left s = respond (.error .busError) (busEnd (xfer Config.resetByte s))) ∨
    (s.nextAnswer 0 ≠ .fail ∧ left = 0 ∧ sendReset r left s = respond (.ok 0) (busEnd (xfer Config.resetByte s))) ∨
    (s.nextAnswer 0 ≠ .fail ∧ 0 < left ∧
      sendReset r left s = { xfer Config.resetByte s with seq := .run { r with i := left } }) := by
  unfold sendReset
  by_cases hf : s.nextAnswer 0 = .fail
  · exact .inl ⟨hf, by simp [answer_eq_fail hf]⟩
  · cases left with
    | zero => exact .inr (.inl ⟨hf, rfl, by simp [answer_eq_byte hf]⟩)
    | succ n => exact .inr (.inr ⟨hf, by omega, by simp [answer_eq_byte hf]⟩)

/-- A write that goes out on the bus is one of a shadowed register (spec/30_encoding.md R73). -/
theorem commandOf_write {op : Instr} {r : Reg} (h : commandOf op = some (.write, r)) :
    isEncode op = true ∨ ∃ g : ShadowReg, r = g.reg := by
  cases r
  case mode => exact .inr ⟨.mode, rfl⟩
  case filter => exact .inr ⟨.filter, rfl⟩
  case offset => exact .inr ⟨.offset, rfl⟩
  case gain => exact .inr ⟨.gain, rfl⟩
  all_goals
    refine .inl ?_
    cases op with
    | encode d sel => rfl
    | rdreg sel => rcases sel with r | _ | _ <;> simp [commandOf] at h
    | refresh sel => rcases sel with r | _ | _ <;> simp [commandOf] at h
    | wrreg sel value => rcases sel with (_ | _ | _ | _ | _ | _) | _ | _ <;> simp [commandOf, shadowOf] at h
    | setfld sel bits mask => rcases sel with (_ | _ | _ | _ | _ | _) | _ | _ <;> simp [commandOf, shadowOf] at h
    | _ => simp [commandOf] at h

/-! ### The step while an operation runs and the host is silent -/

/-- In the command phase the next step runs the command byte. -/
theorem step_command (s : State) (q : Run) (d : Dir) (r : Reg) (hs : s.seq = .run q) (hh : s.hostIn = [])
    (hp : q.phase = .cmd) (hc : commandOf q.op = some (d, r)) (hw : s.cfg.wf = true) :
    step s = .next (emitCommand d r q s) := by
  simp [step, fetch, hs, hh, nextByte, hp, hc, serveWire, decode, decodeWire_cmdByte hw, sendCommand]

/-- In the data phase the next step moves one data byte. -/
theorem step_data (s : State) (q : Run) (hs : s.seq = .run q) (hh : s.hostIn = []) (hp : q.phase = .data) :
    step s = advanceData q s := by
  simp [step, fetch, hs, hh, nextByte, hp]

/-- In the fill phase the next step sends a reset byte. -/
theorem step_fill (s : State) (q : Run) (hs : s.seq = .run q) (hh : s.hostIn = []) (hp : q.phase = .fill)
    (ho : q.op = .chiprst) (hi : 0 < q.i) : step s = emitReset q s := by
  simp [step, fetch, hs, hh, nextByte, hp, ho, hi, serveWire, decode, execResetByte]

end Sys2Proof.Machine
end

