-- ==== Sys2Proof/Tests/Slice0.lean ====
section
/-! SUPPORT. Tests. Expected results are the vectors of spec/95_test_vectors.md (V, P, S) or, where none stands, hand
calculation from the rule named. Words are written out field by field from the formats of spec/30_encoding.md R81 and the
layout of R70. The last part shows, for every statement of Certificates/Slice0/Obligations.lean with hypotheses, values
that meet them. -/

namespace Sys2Proof.Tests

open Sys2Proof.Machine

/-! ### Helpers -/

/-- The configuration of the spec's programs: its instance of the four OPEN reset values. -/
def cfg : Cfg :=
  { Cfg.default with resetMode := 0x0174, resetFilter := 0x200010, resetOffset := 0x800000, resetGain := 0x5555 }

/-- The start state of V10 to V28, with the answers of the bus. -/
def start (answers : List Answer) : State := { State.resetWith cfg with answers := answers }

/-- Answers that succeed with these bytes. -/
def gives (bytes : List Byte) : List Answer := bytes.map .byte

/-- `k` answers that succeed, then a failure. -/
def failing (k : Nat) : List Answer := List.replicate k (.byte 0) ++ [.fail]

/-- One transaction: the bytes sent, each with its answer. -/
def tx (xs : List (Byte × Answer)) : List BusEvent := .txBegin :: xs.map (fun p => .xfer p.1 p.2) ++ [.txEnd]

/-- A transaction whose answers are all zero. -/
def tx0 (bytes : List Byte) : List BusEvent := tx (bytes.map fun b => (b, .byte 0))

/-- The next state, where there is one. -/
def nextOf : Host.Outcome State Fault Refusal → Option State
  | .next t => some t
  | .fault _ => none
  | .refused _ => none

/-- One step on a command word. -/
def present (cw : Word64) (s : State) : Option State := nextOf (step { s with hostIn := [.command .operation cw] })

/-- What the host sees of one step on a command word. -/
def answerOf (cw : Word64) (s : State) : Option (Option Response × List BusEvent) :=
  (present cw s).map fun t => (t.response, t.trace)

/-- Is the step refused with this reason? -/
def refusedWith (r : Refusal) : Host.Outcome State Fault Refusal → Bool
  | .next _ => false
  | .fault _ => false
  | .refused q => q == r

/-- `start` with a context. -/
def withCtx (wl : WordLength) (pol : Polarity) (range refMinus refPlus : Word16) (answers : List Answer) : State :=
  { start answers with ctx := ⟨true, wl, pol, range, refMinus, refPlus⟩ }

/-- An operation standing at a phase of the sequencer. -/
def running (op : Instr) (phase : Phase) (i : Nat) (answers : List Answer) : State :=
  { start answers with seq := .run ⟨op, phase, i, 0, 0⟩, trace := [.txBegin] }

/-! ### Well-formedness: each check refuses an ill-formed term -/

theorem test_wf_refuses_waitrdy : (Instr.waitrdy (2 ^ 32)).wf = false := by decide
theorem test_wf_refuses_convert : (Instr.convert (2 ^ 32)).wf = false := by decide
theorem test_wf_accepts_bounds : (Instr.waitrdy (2 ^ 32 - 1)).wf = true ∧ (Instr.convert (2 ^ 32 - 1)).wf = true := by
  decide

/-! ### Decoding: one word per constructor, written field by field -/

theorem test_decode_encode : decode cfg (.host (0x0#4 ++ 0#56 ++ 1#1 ++ 0b101#3)) = .ok (.encode .read (.reg .offset)) := by
  decide
theorem test_decode_wrreg :
    decode cfg (.host (0x1#4 ++ 0#33 ++ 0b011#3 ++ 0x123456#24)) = .ok (.wrreg (.reg .filter) 0x123456) := by decide
theorem test_decode_rdreg : decode cfg (.host (0x2#4 ++ 0#57 ++ 0b100#3)) = .ok (.rdreg .reservedLow) := by decide
theorem test_decode_refresh : decode cfg (.host (0x3#4 ++ 0#57 ++ 0b110#3)) = .ok (.refresh (.reg .gain)) := by decide
theorem test_decode_setfld :
    decode cfg (.host (0x4#4 ++ 0#9 ++ 0b010#3 ++ 0x000007#24 ++ 0x000002#24)) = .ok (.setfld (.reg .mode) 2 7) := by decide
theorem test_decode_setmode : decode cfg (.host (0x5#4 ++ 0#57 ++ 6#3)) = .ok (.setmode .calSystemZero) := by decide
theorem test_decode_waitrdy : decode cfg (.host (0x6#4 ++ 0#28 ++ 0xFFFFFFFF#32)) = .ok (.waitrdy 4294967295) := by decide
theorem test_decode_rdstat : decode cfg (.host (0x7#4 ++ 0#60)) = .ok .rdstat := by decide
theorem test_decode_chiprst : decode cfg (.host (0x8#4 ++ 0#60)) = .ok .chiprst := by decide
theorem test_decode_setctx :
    decode cfg (.host (0x9#4 ++ 0#10 ++ 1#1 ++ 0#1 ++ 1280#16 ++ 2500#16 ++ 0xF63C#16)) =
      .ok (.setctx 1280 .bipolar 0xF63C 2500 .w24) := by decide
theorem test_decode_convert : decode cfg (.host (0xA#4 ++ 0#28 ++ 0x00FFFFFF#32)) = .ok (.convert 16777215) := by decide
theorem test_decode_rdvolt : decode cfg (.host (0xB#4 ++ 0#60)) = .ok .rdvolt := by decide
theorem test_decode_getshd : decode cfg (.host (0xC#4 ++ 0#57 ++ 0b111#3)) = .ok (.getshd .reservedHigh) := by decide
theorem test_decode_getmode : decode cfg (.host (0xD#4 ++ 0#60)) = .ok .getmode := by decide
theorem test_decode_getctx : decode cfg (.host (0xE#4 ++ 0#60)) = .ok .getctx := by decide
theorem test_decode_cmdWrStatus : decode cfg (.wire (0#1 ++ 0#1 ++ 0#1 ++ 0#1 ++ 0#1 ++ 0b000#3)) = .ok .cmdWrStatus := by decide
theorem test_decode_cmdRdStatus : decode cfg (.wire (0#1 ++ 0#1 ++ 1#1 ++ 1#1 ++ 0#1 ++ 0b000#3)) = .ok .cmdRdStatus := by decide
theorem test_decode_cmdWrData : decode cfg (.wire (0#1 ++ 0#1 ++ 0#1 ++ 0#1 ++ 0#1 ++ 0b001#3)) = .ok .cmdWrData := by decide
theorem test_decode_cmdRdData : decode cfg (.wire (0#1 ++ 0#1 ++ 1#1 ++ 1#1 ++ 0#1 ++ 0b001#3)) = .ok .cmdRdData := by decide
theorem test_decode_cmdWrMode : decode cfg (.wire (0#1 ++ 0#1 ++ 0#1 ++ 0#1 ++ 0#1 ++ 0b010#3)) = .ok .cmdWrMode := by decide
theorem test_decode_cmdRdMode : decode cfg (.wire (0#1 ++ 0#1 ++ 1#1 ++ 1#1 ++ 0#1 ++ 0b010#3)) = .ok .cmdRdMode := by decide
theorem test_decode_cmdWrFilter : decode cfg (.wire (0#1 ++ 0#1 ++ 0#1 ++ 0#1 ++ 0#1 ++ 0b011#3)) = .ok .cmdWrFilter := by decide
theorem test_decode_cmdRdFilter : decode cfg (.wire (0#1 ++ 0#1 ++ 1#1 ++ 1#1 ++ 0#1 ++ 0b011#3)) = .ok .cmdRdFilter := by decide
theorem test_decode_cmdWrOffset : decode cfg (.wire (0#1 ++ 0#1 ++ 0#1 ++ 0#1 ++ 0#1 ++ 0b101#3)) = .ok .cmdWrOffset := by decide
theorem test_decode_cmdRdOffset : decode cfg (.wire (0#1 ++ 0#1 ++ 1#1 ++ 1#1 ++ 0#1 ++ 0b101#3)) = .ok .cmdRdOffset := by decide
theorem test_decode_cmdWrGain : decode cfg (.wire (0#1 ++ 0#1 ++ 0#1 ++ 0#1 ++ 0#1 ++ 0b110#3)) = .ok .cmdWrGain := by decide
theorem test_decode_cmdRdGain : decode cfg (.wire (0#1 ++ 0#1 ++ 1#1 ++ 1#1 ++ 0#1 ++ 0b110#3)) = .ok .cmdRdGain := by decide
theorem test_decode_resetByte : decode cfg (.wire 0xFF) = .ok .resetByte := by decide

/-- Reserved codes are rejected by name (R74, R75, R85). -/
theorem test_decode_rejects :
    decode cfg (.host 0xF000000000000000) = .error .reservedOpcode ∧ decode cfg (.host 0x12) = .error .mustBeZero ∧
    decode cfg (.host 0x8000000000000001) = .error .mustBeZero ∧ decode cfg (.host 0x2000000000000008) = .error .mustBeZero ∧
    decode cfg (.wire 0x34) = .error .reservedSelector ∧ decode cfg (.wire 0x07) = .error .reservedSelector ∧
    decode cfg (.wire 0x10) = .error .notCommandByte ∧ decode cfg (.wire 0x08) = .error .notCommandByte ∧
    decode cfg (.wire 0x42) = .error .notCommandByte ∧ decode cfg (.wire 0x80) = .error .notCommandByte := by decide

/-- The command words the spec writes beside its own examples: V12, V25, V112, V120, P2, V3, and the assembler reads the
lines it writes there (R87). -/
theorem test_assemble :
    assemble cfg "WRREG Gain, 0xFFFF" = some (.host 0x100000000600FFFF) ∧
    assemble cfg "SETFLD Gain, 0xFFFF, 0x0FF0 ; bits outside the mask" = some (.host 0x4006000FF000FFFF) ∧
    assemble cfg "SETCTX 1280, bip, -2500, 2500, 24" = some (.host 0x9002050009C4F63C) ∧
    assemble cfg "SETMODE ConvertSingle" = some (.host 0x5000000000000003) ∧
    assemble cfg "WAITRDY 5" = some (.host 0x6000000000000005) ∧ assemble cfg "ENCODE rd, Offset" = some (.host 0x0D) ∧
    assemble cfg "RDREG #4" = some (.host 0x2000000000000004) ∧ assemble cfg "RDREG #8" = none := by decide

/-- What R87 writes for an operation, in each number notation, by hand. -/
theorem test_lineText :
    lineText cfg .decimal (.setctx 1280 .bipolar 0xF63C 2500 .w24) = some "SETCTX 1280, bip, -2500, 2500, 24".toList ∧
    lineText cfg .hexadecimal (.wrreg (.reg .gain) 0xFF0) = some "WRREG Gain, 0xff0".toList ∧
    lineText cfg .binary (.waitrdy 5) = some "WAITRDY 0b101".toList ∧
    lineText cfg .decimal (.rdreg .reservedHigh) = some "RDREG #7".toList ∧ lineText cfg .decimal .rdstat = some "RDSTAT".toList ∧
    lineText cfg .decimal .cmdRdMode = none := by decide

/-- A command byte laid out anew, and other selector codes. -/
def moved : Cfg :=
  { Cfg.default with cmd := ⟨6, 5, 4, 0⟩, sels := ⟨0b111, 0b001, 0b010, 0b011, 0b100, 0b110⟩ }

/-- With WEN at bit 6 and Status at code 7 the zero bits are 7 and 3, and the codes that name no register are 0 and 5 (R70,
R72). -/
theorem test_moved_layout :
    moved.wf = true ∧ cmdByte moved .read .status = 0x37 ∧ decode moved (.wire 0x37) = .ok .cmdRdStatus ∧
    decode moved (.wire 0xB7) = .error .notCommandByte ∧ decode moved (.wire 0x77) = .error .notCommandByte ∧
    decode moved (.wire 0x30) = .error .reservedSelector ∧
    decode moved (.host 0x2000000000000005) = .ok (.rdreg .reservedHigh) ∧
    encode moved (.rdreg .reservedLow) = .host 0x2000000000000000 ∧
    decode moved (.host 0x2000000000000004) = .ok (.rdreg (.reg .offset)) := by decide

/-! ### The host operations, one step each -/

/-- V2. -/
theorem test_encode : answerOf 0x0000000000000008 (start []) = some (some (.ok 0x30), []) := by decide
/-- V6. -/
theorem test_encode_reserved : answerOf 0x0000000000000007 (start []) = some (some (.error .invalidRegister), []) := by
  decide
/-- V10. -/
theorem test_wrreg :
    (present 0x1000000003123456 (start (failing 4))).map (fun t => (t.response, t.filter, t.trace)) =
      some (some (.ok 0), 0x123456, tx0 [0x03, 0x12, 0x34, 0x56]) := by decide
/-- V13. -/
theorem test_wrreg_too_wide : answerOf 0x1000000002010000 (start []) = some (some (.error .invalidRegister), []) := by
  decide
/-- V18. -/
theorem test_rdreg :
    (present 0x2000000000000005 (start (gives [0xAA, 0x7F, 0xFF, 0xFE]))).map (fun t => (t.response, t.offset, t.trace)) =
      some (some (.ok 0x7FFFFE), 0x800000,
        tx [(0x35, .byte 0xAA), (0x00, .byte 0x7F), (0x00, .byte 0xFF), (0x00, .byte 0xFE)]) := by decide
/-- V16. -/
theorem test_rdreg_data_without_context :
    answerOf 0x2000000000000001 (start []) = some (some (.error .invalidContext), []) := by decide
/-- V19. -/
theorem test_refresh :
    (present 0x3000000000000005 (start (gives [0, 0x7F, 0xFF, 0xFE]))).map (fun t => (t.response, t.offset)) =
      some (some (.ok 0x7FFFFE), 0x7FFFFE) := by decide
/-- REFRESH Status (the note after V19). -/
theorem test_refresh_status : answerOf 0x3000000000000000 (start []) = some (some (.error .invalidRegister), []) := by
  decide
/-- V25. -/
theorem test_setfld :
    (present 0x4006000FF000FFFF (start (failing 3))).map (fun t => (t.response, t.gain, t.trace)) =
      some (some (.ok 0x5FF5), 0x5FF5, tx0 [0x06, 0x5F, 0xF5]) := by decide
/-- V28. -/
theorem test_setfld_bus_error :
    (present 0x4002001000001000 (start (failing 1))).map (fun t => (t.response, t.mode, t.trace)) =
      some (some (.error .busError), 0x1174, tx [(0x02, .byte 0), (0x11, .fail)]) := by decide
/-- V123. -/
theorem test_setmode :
    (present 0x5000000000000007 { start (failing 3) with mode := 0x1174 }).map (fun t => (t.response, t.mode, t.trace)) =
      some (some (.ok 0xF174), 0xF174, tx0 [0x02, 0xF1, 0x74]) := by decide
/-- V122: the ordinal of Standby is 1 and its MD code is 3. -/
theorem test_setmode_standby :
    (present 0x5000000000000001 { start (failing 3) with mode := 0x1174 }).map (·.mode) = some 0x7174 := by decide
/-- V129. -/
theorem test_waitrdy :
    answerOf 0x6000000000000003 (start (gives [0, 0x80, 0, 0x80, 0, 0x00])) =
      some (some (.ok 0x300000000),
        tx [(0x30, .byte 0), (0, .byte 0x80)] ++ tx [(0x30, .byte 0), (0, .byte 0x80)] ++ tx0 [0x30, 0]) := by decide
/-- V132. -/
theorem test_waitrdy_bus_error :
    answerOf 0x6000000000000002 (start (gives [0, 0x80, 0] ++ [.fail])) =
      some (some (.error .busError), tx [(0x30, .byte 0), (0, .byte 0x80)] ++ tx [(0x30, .byte 0), (0, .fail)]) := by decide
/-- V128. -/
theorem test_rdstat :
    answerOf 0x7000000000000000 (start (gives [0, 0x50])) =
      some (some (.ok 0xB50), tx [(0x30, .byte 0), (0, .byte 0x50)]) := by decide
/-- V127. -/
theorem test_rdstat_not_ready :
    (answerOf 0x7000000000000000 (start (gives [0, 0x80]))).map Prod.fst = some (some (.ok 0x080)) := by decide
/-- P1, step 1. -/
theorem test_chiprst :
    (present 0x8000000000000000 { withCtx .w24 .unipolar 1280 0 2500 (failing 4) with mode := 0xFFFF, gain := 1 }).map
        (fun t => (t.response, t.mode, t.gain, t.ctx.valid, t.trace)) =
      some (some (.ok 0), 0x0174, 0x5555, false, tx0 [0xFF, 0xFF, 0xFF, 0xFF]) := by decide
/-- CHIPRST with its third byte failing (the note after V19). -/
theorem test_chiprst_bus_error :
    (present 0x8000000000000000 { withCtx .w24 .unipolar 1280 0 2500 (failing 2) with offset := 1 }).map
        (fun t => (t.response, t.offset, t.ctx.valid, t.trace)) =
      some (some (.error .busError), 0x800000, false, tx [(0xFF, .byte 0), (0xFF, .byte 0), (0xFF, .fail)]) := by decide
/-- V112. -/
theorem test_setctx :
    (present 0x9002050009C4F63C (start [])).map (fun t => (t.response, t.ctx)) =
      some (some (.ok 0), ⟨true, .w24, .bipolar, 1280, 0xF63C, 2500⟩) := by decide
/-- V115: the context is as it was. -/
theorem test_setctx_refused :
    (present 0x9000014009C409C4 (withCtx .w24 .unipolar 20 0 5 [])).map (fun t => (t.response, t.ctx)) =
      some (some (.error .invalidContext), ⟨true, .w24, .unipolar, 20, 0, 5⟩) := by decide
/-- V71: the floor goes down. -/
theorem test_convert_bipolar :
    (answerOf 0xA000000000000001 (withCtx .w24 .bipolar 1280 0 2500 [])).map Prod.fst =
      some (some (.ok (BitVec.ofInt 64 (-1279999847413)))) := by decide
/-- V47. -/
theorem test_convert_out_of_range :
    answerOf 0xA000000001000000 (withCtx .w24 .unipolar 1280 0 2500 []) =
      some (some (.error .precisionViolation), []) := by decide
/-- P5, step 5: a 16-bit context reads two data bytes. -/
theorem test_rdvolt :
    answerOf 0xB000000000000000 (withCtx .w16 .bipolar 320 0 2500 (gives [0, 0x40, 0x00])) =
      some (some (.ok 0xFFFFFFDABF41C000), tx [(0x31, .byte 0), (0, .byte 0x40), (0, .byte 0x00)]) := by decide
/-- V59, read from the chip. -/
theorem test_rdvolt_unipolar :
    (answerOf 0xB000000000000000 (withCtx .w24 .unipolar 1280 0 2500 (gives [0, 0x9A, 0xBC, 0xDE]))).map Prod.fst =
      some (some (.ok 773688858371)) := by decide
/-- GETSHD Mode and GETSHD Data (the note after V19). -/
theorem test_getshd : answerOf 0xC000000000000002 (start []) = some (some (.ok 0x0174), []) := by decide
@[inherit_doc test_getshd]
theorem test_getshd_data : answerOf 0xC000000000000001 (start []) = some (some (.error .invalidRegister), []) := by decide
/-- V126: MD 001 is ConvertContinuous, ordinal 2. -/
theorem test_getmode : answerOf 0xD000000000000000 { start [] with mode := 0x3174 } = some (some (.ok 2), []) := by decide
/-- V116 and V117. -/
theorem test_getctx :
    answerOf 0xE000000000000000 (withCtx .w24 .unipolar 1280 0 2500 []) = some (some (.ok 0x0007050009C40000), []) := by
  decide
@[inherit_doc test_getctx]
theorem test_getctx_none : answerOf 0xE000000000000000 (start []) = some (some (.ok 0), []) := by decide

/-- Transfer functions: V44, V53's neighbour V52, V56, V76, V80, V90, V95. -/
theorem test_voltages :
    toVoltage cfg ⟨true, .w24, .unipolar, 1280, 0, 2500⟩ 8388608 = 640000038146 ∧
    toVoltage cfg ⟨true, .w16, .unipolar, 20, 0, 2500⟩ 65535 = 20000000000 ∧
    toVoltage cfg ⟨true, .w24, .unipolar, 10, 0, 2500⟩ 1 = 596 ∧
    toVoltage cfg ⟨true, .w24, .bipolar, 1280, 0, 5000⟩ 0 = -2560000000000 ∧
    toVoltage cfg ⟨true, .w24, .bipolar, 1280, 0xF63C, 2500⟩ 0 = -2560000000000 ∧
    toVoltage cfg ⟨true, .w16, .bipolar, 640, 0, 2499⟩ 32767 = -19523438 ∧
    toVoltage cfg ⟨true, .w16, .bipolar, 320, 0, 2500⟩ 16384 = -160000000000 := by decide

/-- V100 to V103, with `OFFSET_MODE = refMinus`. -/
theorem test_voltages_offset :
    let c : Cfg := { cfg with offsetMode := .refMinus }
    toVoltage c ⟨true, .w24, .bipolar, 80, -1250, 1250⟩ 0 = -1330000000000 ∧
    toVoltage c ⟨true, .w24, .bipolar, 80, -1250, 1250⟩ 8388608 = -1250000000000 ∧
    toVoltage c ⟨true, .w24, .bipolar, 80, -1250, 1250⟩ 16777215 = -1170000009537 ∧
    toVoltage c ⟨true, .w24, .bipolar, 1280, 100, 2500⟩ 8388608 = 100000000000 := by decide

/-- With 2^62 units in a millivolt and a nominal reference of 1 mV the voltage leaves s64, and CONVERT answers all the same (log 22). -/
theorem test_convert_beyond_s64 :
    let c : Cfg := { cfg with pvPerMv := 2 ^ 62, refNominalMv := 1 }
    let s : State := { withCtx .w16 .bipolar 1280 0 2500 [] with cfg := c }
    c.wf = true ∧ toVoltage c s.ctx 0 < -2 ^ 63 ∧
    (nextOf (exec (.convert 0) s)).map (·.response.isSome) = some true := by decide

/-! ### The wire bytes, one step each -/

/-- What one step of an operation in progress sends, by hand from R56, R57 and R73. -/
def sent (s : State) : Option (Seq × List BusEvent) := (nextOf (step s)).map fun t => (t.seq, t.trace)

theorem test_cmdWrMode :
    sent (running (.wrreg (.reg .mode) 0x0174) .cmd 2 (gives [0])) =
      some (.run ⟨.wrreg (.reg .mode) 0x0174, .data, 2, 0, 0⟩, [.txBegin, .xfer 0x02 (.byte 0)]) := by decide
theorem test_cmdWrFilter :
    sent (running (.setfld (.reg .filter) 0 0) .cmd 3 [.fail]) = some (.idle, tx [(0x03, .fail)]) := by decide
theorem test_cmdWrOffset :
    sent (running (.wrreg (.reg .offset) 0x800000) .cmd 3 [.fail]) = some (.idle, tx [(0x05, .fail)]) := by decide
theorem test_cmdWrGain :
    sent (running (.wrreg (.reg .gain) 0x5555) .cmd 2 [.fail]) = some (.idle, tx [(0x06, .fail)]) := by decide
theorem test_cmdRdStatus :
    sent (running .rdstat .cmd 1 (gives [9])) =
      some (.run ⟨.rdstat, .data, 1, 0, 0⟩, [.txBegin, .xfer 0x30 (.byte 9)]) := by decide
theorem test_cmdRdData :
    sent { withCtx .w16 .bipolar 320 0 2500 [.fail] with seq := .run ⟨.rdvolt, .cmd, 2, 0, 0⟩, trace := [.txBegin] } =
      some (.idle, tx [(0x31, .fail)]) := by decide
theorem test_cmdRdMode :
    sent (running (.refresh (.reg .mode)) .cmd 2 [.fail]) = some (.idle, tx [(0x32, .fail)]) := by decide
theorem test_cmdRdFilter :
    sent (running (.rdreg (.reg .filter)) .cmd 3 [.fail]) = some (.idle, tx [(0x33, .fail)]) := by decide
theorem test_cmdRdOffset :
    sent (running (.rdreg (.reg .offset)) .cmd 3 [.fail]) = some (.idle, tx [(0x35, .fail)]) := by decide
theorem test_cmdRdGain :
    sent (running (.rdreg (.reg .gain)) .cmd 2 [.fail]) = some (.idle, tx [(0x36, .fail)]) := by decide
/-- `0x00` and `0x01` go to the host and never onto the wire (R73). -/
theorem test_cmdWrStatus :
    (nextOf (step { running (.encode .write (.reg .status)) .cmd 0 [] with trace := [] })).map
      (fun t => (t.response, t.trace)) = some (some (.ok 0x00), []) := by decide
@[inherit_doc test_cmdWrStatus]
theorem test_cmdWrData :
    (nextOf (step { running (.encode .write (.reg .data)) .cmd 0 [] with trace := [] })).map
      (fun t => (t.response, t.trace)) = some (some (.ok 0x01), []) := by decide
theorem test_resetByte :
    sent (running .chiprst .fill 4 (gives [0])) =
      some (.run ⟨.chiprst, .fill, 3, 0, 0⟩, [.txBegin, .xfer 0xFF (.byte 0)]) := by decide
theorem test_resetByte_last :
    (nextOf (step (running .chiprst .fill 1 (gives [0])))).map (fun t => (t.response, t.seq, t.trace)) =
      some (some (.ok 0), .idle, tx0 [0xFF]) := by decide

/-- A data byte is the shadow's own, most significant first (R56, R58). -/
theorem test_data_byte :
    sent (running (.wrreg (.reg .mode) 0x0174) .data 2 (gives [0])) =
      some (.run ⟨.wrreg (.reg .mode) 0x0174, .data, 1, 0, 0⟩, [.txBegin, .xfer 0x01 (.byte 0)]) := by decide

/-- `withFetchWord` places a row where the next step runs it, and a byte that no operation is about to send is refused. -/
theorem test_withFetchWord :
    (nextOf (step (State.reset.withFetchWord 64 0x0D))).map (·.response) = some (some (.ok 0x35)) ∧
    (nextOf (step (State.reset.withFetchWord 8 0x01))).map (·.response) = some (some (.ok 0x01)) ∧
    (nextOf (step ({ State.reset with answers := gives [0] }.withFetchWord 8 0x36))).map (·.trace) =
      some [.txBegin, .xfer 0x36 (.byte 0)] ∧
    refusedWith .wireByteNotDue (exec .cmdRdGain State.reset) = true := by decide

/-! ### Witnesses: values that meet the hypotheses of each statement -/

/-- The state of `start` while the host presents something. -/
def offered (e : HostEvent) (answers : List Answer) : State := { start answers with hostIn := [e] }

theorem wit_DecodeOfEncode :
    moved.wf = true ∧ (Instr.waitrdy (2 ^ 32 - 1)).wf = true ∧ (Instr.setfld .reservedHigh 0xFFFFFF 0xFFFFFF).wf = true ∧
    Instr.cmdWrData.wf = true ∧ Instr.resetByte.wf = true := by decide
theorem wit_EncodeOfDecode :
    decode cfg (.host 0xA0000000FFFFFFFF) = .ok (.convert (2 ^ 32 - 1)) ∧ decode cfg (.wire 0x36) = .ok .cmdRdGain := by decide
/-- Both reasons, at the last bit a format assigns and the first it does not; both host events. -/
theorem wit_IllegalCommandIsNoOp :
    spellsNothing 0xF000000000000000 ∧ spellsNothing 0x0000000000000010 ∧ ¬ spellsNothing 0x000000000000000F ∧
    spellsNothing 0x4008000000000000 ∧ ¬ spellsNothing 0x4007000000000000 ∧
    (offered (.command .byte 0x10) []).seq = .idle ∧ (offered (.command .byte 0x10) []).hostIn = [.command .byte 0x10] ∧
    (offered (.intrude 0x10) []).hostIn = [.intrude 0x10] := by
  unfold spellsNothing; decide
theorem wit_CommandByteFields : moved.wf = true ∧ cfg.wf = true ∧ cmdByte moved .read .gain = cmdByte moved .read .gain ∧
    3 ≠ moved.cmd.wenPos.val ∧ 3 ≠ moved.cmd.rw1Pos.val ∧ 3 ≠ moved.cmd.rw0Pos.val ∧ 3 < 8 ∧ moved.cmd.rsPos.val + 2 < 3 := by
  decide
theorem wit_WireBytesRead : moved.wf = true := by decide
theorem wit_EncodeAnswersCommandByte_table : (start []).cfg.cmd = .default ∧ (start []).cfg.sels = .default := by decide
theorem wit_AssembledLineDecodes : cfg.wf = true ∧ (Instr.waitrdy (2 ^ 32 - 1)).isHostOp = true ∧
    (Instr.waitrdy (2 ^ 32 - 1)).wf = true ∧ assemble cfg "WRREG Mode, 0b1011 ; a mode" = some (.host 0x100000000200000B) := by decide
theorem wit_StepRunsCommand :
    (offered (.command .operation 0x0D) []).seq = .idle ∧
    (offered (.command .operation 0x0D) []).hostIn = [.command .operation 0x0D] ∧
    (offered (.intrude 0x0D) []).hostIn = [.intrude 0x0D] ∧ decode cfg (.host 0x0D) = .ok (.encode .read (.reg .offset)) := by
  decide
theorem wit_StepRunsWireByte :
    commandOf (.rdreg (.reg .gain)) = some (.read, .gain) ∧ decode cfg (.wire (cmdByte cfg .read .gain)) = .ok .cmdRdGain ∧
    (running (.rdreg (.reg .gain)) .cmd 2 []).hostIn = [] ∧
    (running (.rdreg (.reg .gain)) .cmd 2 []).seq = .run ⟨.rdreg (.reg .gain), .cmd, 2, 0, 0⟩ ∧
    { running .chiprst .fill 1 [] with hostIn := [.quiet] }.seq = .run ⟨.chiprst, .fill, 1, 0, 0⟩ ∧
    { running .chiprst .fill 1 [] with hostIn := [.quiet] }.hostIn = [.quiet] ∧
    { running .chiprst .fill 4 [] with hostIn := [.command .byte 0] }.hostIn = [.command .byte 0] ∧
    decode cfg (.wire 0xFF) = .ok .resetByte := by decide
theorem wit_IdleBlockWaits : (start []).seq = .idle ∧ (start []).hostIn = [] ∧ (offered .quiet []).hostIn = [.quiet] := by
  decide
theorem wit_BlockResetState :
    { running .chiprst .fill 2 [] with hostIn := [.reset] }.hostIn = [.reset] ∧
    { running .chiprst .fill 2 [] with hostIn := [.reset] }.cfg.wf = true ∧ Cfg.default.wf = true := by decide
theorem wit_BlockResetIsSilent : (offered .reset []).hostIn = [.reset] := rfl
theorem wit_SecondCommandRefused :
    { running .rdstat .cmd 1 [] with hostIn := [.intrude 0] }.seq = .run ⟨.rdstat, .cmd, 1, 0, 0⟩ ∧
    { running .rdstat .cmd 1 [] with hostIn := [.intrude 0] }.hostIn = [.intrude 0] ∧ Instr.getmode.isHostOp = true := by
  decide
theorem wit_HostOperationsComplete : (Instr.waitrdy 0).isHostOp = true ∧ (start []).seq = .idle := by decide
theorem wit_EncodeAnswersCommandByte : (start []).seq = .idle := rfl
/-- The widest value of a 16-bit register; no failure, a failure at the first and at the last `Xfer`. -/
theorem wit_WrregWritesShadowThenBus :
    (start (failing 3)).seq = .idle ∧ (0xFFFF#24).toNat < 2 ^ ShadowReg.mode.width ∧
    (start (failing 3)).allAnswered (ShadowReg.mode.width / 8 + 1) ∧
    0 ≤ ShadowReg.mode.width / 8 ∧ (start (failing 0)).failsAt 0 ∧
    2 ≤ ShadowReg.mode.width / 8 ∧ (start (failing 2)).failsAt 2 := by
  unfold State.failsAt State.allAnswered; decide
/-- Data with a context, in both word lengths, and without one; a failure at the first and at the last `Xfer`. -/
theorem wit_RdregReadsRegister :
    (withCtx .w24 .bipolar 320 0 1 (failing 4)).ctx.valid = true ∧
    (withCtx .w24 .bipolar 320 0 1 (failing 4)).allAnswered (nbytes (withCtx .w24 .bipolar 320 0 1 []).ctx .data + 1) ∧
    2 ≤ nbytes (withCtx .w16 .bipolar 320 0 1 []).ctx .data ∧ (withCtx .w16 .bipolar 320 0 1 (failing 2)).failsAt 2 ∧
    (start (failing 0)).failsAt 0 ∧ (start (failing 2)).allAnswered (nbytes (start []).ctx .status + 1) ∧
    (start []).ctx.valid = false ∧ (start []).seq = .idle := by
  unfold State.failsAt State.allAnswered; decide
theorem wit_RdregValueFits :
    (nextOf (exec (.rdreg (.reg .gain)) (start (gives [0, 0xFF, 0xFF])))).map (·.response) = some (some (.ok 0xFFFF)) := by
  decide
theorem wit_RefreshCopiesRegister :
    (start (failing 4)).seq = .idle ∧ (start (failing 4)).allAnswered (ShadowReg.offset.width / 8 + 1) ∧
    3 ≤ ShadowReg.offset.width / 8 ∧ (start (failing 3)).failsAt 3 ∧ (start (failing 0)).failsAt 0 := by
  unfold State.failsAt State.allAnswered; decide
theorem wit_ChiprstResets :
    (start (failing 4)).seq = .idle ∧ (start (failing 4)).allAnswered 4 ∧ (start (failing 3)).failsAt 3 ∧
    (start (failing 0)).failsAt 0 ∧ (start []).cfg.wf = true := by
  unfold State.failsAt State.allAnswered; decide
theorem wit_GetshdAnswersShadow : (start []).seq = .idle := rfl
/-- A reserved selector, a selector that is not shadowed, and operands one past the widest. -/
theorem wit_InvalidRegisterIsNoOp :
    registerRefused (.rdreg .reservedLow) ∧ registerRefused (.refresh (.reg .status)) ∧
    registerRefused (.wrreg (.reg .mode) 0x10000) ∧ registerRefused (.setfld (.reg .gain) 0 0x10000) ∧
    (Instr.rdreg .reservedLow).isHostOp = true ∧ (start []).seq = .idle ∧
    (nextOf (exec (.wrreg (.reg .data) 0) (start []))).map (·.response) = some (some (.error .invalidRegister)) := by
  refine ⟨.inl rfl, ?_, ?_, ?_, by decide, by decide, by decide⟩
  · intro g; cases g <;> simp [ShadowReg.reg]
  · intro g; cases g <;> simp [ShadowReg.reg, ShadowReg.width]
  · intro g; cases g <;> simp [ShadowReg.reg, ShadowReg.width]
/-- S2: the loopback's answers to WRREG Offset, 0x800001 and RDREG Offset (or REFRESH Offset). -/
theorem wit_LoopbackRoundTrip :
    let s := start (gives [0, 0, 0, 0, 0, 0x80, 0x00, 0x01])
    let t := nextOf (exec (.wrreg (.reg .offset) 0x800001) s)
    let u := t.bind fun t => nextOf (exec (.rdreg (.reg .offset)) t)
    let w := t.bind fun t => nextOf (exec (.refresh (.reg .offset)) t)
    s.seq = .idle ∧ s.cfg.wf = true ∧ s.trace = [] ∧ (0x800001#24).toNat < 2 ^ ShadowReg.offset.width ∧
    u.map (fun u => Loopback.empty.accepts s.cfg u.trace) = some true ∧
    w.map (fun w => Loopback.empty.accepts s.cfg w.trace) = some true := by decide
theorem wit_MaskedUpdateBits : 15 < 16 := by decide
theorem wit_SetfldUpdatesAndWrites :
    (start (failing 3)).seq = .idle ∧ (0xFFFF#24).toNat < 2 ^ ShadowReg.gain.width ∧
    (0#24).toNat < 2 ^ ShadowReg.gain.width ∧ (start (failing 3)).allAnswered (ShadowReg.gain.width / 8 + 1) ∧
    2 ≤ ShadowReg.gain.width / 8 ∧ (start (failing 2)).failsAt 2 ∧ (start (failing 0)).failsAt 0 := by
  unfold State.failsAt State.allAnswered; decide
theorem wit_SetfldFrame :
    (nextOf (exec (.setfld (.reg .mode) 0x1000 0x1000) (start (failing 1)))).map (·.response) =
      some (some (.error .busError)) ∧
    (nextOf (exec (.setfld (.reg .mode) 0x1000 0x1000) (start (failing 3)))).map (·.response) =
      some (some (.ok 0x1174)) ∧ ShadowReg.filter ≠ ShadowReg.mode := by decide
/-- A value that both take, one that both refuse, and a register that both refuse. -/
theorem wit_WrregIsFullMaskSetfld :
    (nextOf (exec (.wrreg (.reg .mode) 0xFFFF) (start (failing 3)))).map (·.response) = some (some (.ok 0)) ∧
    (nextOf (exec (.setfld (.reg .mode) 0xFFFF 0xFFFF) (start (failing 3)))).map (·.response) =
      some (some (.ok 0xFFFF)) ∧
    (nextOf (exec (.wrreg (.reg .mode) 0x10000) (start []))).map (·.response) =
      some (some (.error .invalidRegister)) ∧
    (nextOf (exec (.setfld (.reg .status) 0 0xFFFFFF) (start []))).map (·.response) =
      some (some (.error .invalidRegister)) := by decide
/-- References one millivolt apart are accepted, equal ones are not. -/
theorem wit_SetctxLoadsContext :
    (start []).seq = .idle ∧ ((10 : Word16) ∈ (start []).cfg.rangeSet ∧ (0 : Word16).toInt < (1 : Word16).toInt) ∧
    ¬ ((10 : Word16) ∈ (start []).cfg.rangeSet ∧ (1 : Word16).toInt < (1 : Word16).toInt) ∧
    ¬ ((300 : Word16) ∈ (start []).cfg.rangeSet ∧ (0 : Word16).toInt < (1 : Word16).toInt) := by decide
theorem wit_GetctxAnswersContext : (start []).seq = .idle ∧ (withCtx .w24 .unipolar 1280 0 1 []).seq = .idle := by decide
/-- The last code in range and the first out of it, in both word lengths. -/
theorem wit_ConvertAnswersVoltage :
    (start []).seq = .idle ∧ (start []).ctx.valid = false ∧ (withCtx .w16 .bipolar 320 0 1 []).ctx.valid = true ∧
    2 ^ (withCtx .w16 .bipolar 320 0 1 []).ctx.wordLength.bits ≤ 65536 ∧
    65535 < 2 ^ (withCtx .w16 .bipolar 320 0 1 []).ctx.wordLength.bits ∧
    16777215 < 2 ^ (withCtx .w24 .bipolar 320 0 1 []).ctx.wordLength.bits ∧
    -2 ^ 63 ≤ toVoltage cfg (withCtx .w24 .bipolar 320 0 1 []).ctx 16777215 ∧
    toVoltage cfg (withCtx .w24 .bipolar 320 0 1 []).ctx 16777215 < 2 ^ 63 := by decide
theorem wit_BipolarTransfer : (withCtx .w16 .bipolar 320 0 1 []).ctx.polarity = .bipolar ∧ 1 ≤ cfg.refNominalMv := by decide
/-- The first and the last code of a word length. -/
theorem wit_OffsetBinaryReading :
    (withCtx .w16 .bipolar 320 0 1 []).ctx.polarity = .bipolar ∧ 1 ≤ cfg.refNominalMv ∧ 0 < 2 ^ WordLength.w16.bits ∧
    65535 < 2 ^ WordLength.w16.bits := by decide
theorem wit_UnipolarTransfer : (withCtx .w16 .unipolar 320 0 1 []).ctx.polarity = .unipolar := rfl
/-- The widest references and range, the last code, and a nominal reference of 1 mV; and the default parameters. -/
theorem wit_VoltageNeverOverflows :
    cfg.pvPerMv = 10 ^ 9 ∧ (0x8000 : Word16).toInt < (0x7FFF : Word16).toInt ∧ 1 ≤ { cfg with refNominalMv := 1 }.refNominalMv ∧
    2 ^ 24 - 1 < 2 ^ WordLength.w24.bits ∧ cfg.rangeSet = Cfg.default.rangeSet ∧ cfg.refNominalMv = 2500 ∧
    cfg.offsetMode = .zero ∧ (1280 : Word16) ∈ cfg.rangeSet := by decide
/-- The smallest range; and the narrowest span of that range with a step of a picovolt or more. -/
theorem wit_VoltageMonotone :
    (0 : Word16).toInt < (3 : Word16).toInt ∧ 1 ≤ cfg.refNominalMv ∧ 0 < 1 ∧ 10 ≤ (10 : Word16).toNat ∧ 10 ^ 9 ≤ cfg.pvPerMv ∧
    (2 : ℤ) ^ (WordLength.w24.bits - 1) * (cfg.refNominalMv : ℤ)
      ≤ (10 : Word16).toNat * ((3 : Word16).toInt - (0 : Word16).toInt) * cfg.pvPerMv := by decide
theorem wit_VoltageEndPoints :
    (withCtx .w24 .unipolar 1280 0 1 []).ctx.polarity = .unipolar ∧
    (withCtx .w24 .bipolar 1280 0 1 []).ctx.polarity = .bipolar ∧ cfg.offsetMode = .zero ∧
    { cfg with offsetMode := .refMinus }.offsetMode = .refMinus := by decide
theorem wit_RdvoltReadsAndConverts :
    (start []).ctx.valid = false ∧ (withCtx .w24 .bipolar 320 0 1 (failing 4)).seq = .idle ∧
    (withCtx .w24 .bipolar 320 0 1 (failing 4)).ctx.valid = true ∧
    (withCtx .w24 .bipolar 320 0 1 (failing 4)).allAnswered (WordLength.w24.bits / 8 + 1) ∧
    -2 ^ 63 ≤ toVoltage cfg (withCtx .w24 .bipolar 320 0 1 (failing 4)).ctx
      ((withCtx .w24 .bipolar 320 0 1 (failing 4)).readValue 3) ∧
    toVoltage cfg (withCtx .w24 .bipolar 320 0 1 (failing 4)).ctx
      ((withCtx .w24 .bipolar 320 0 1 (failing 4)).readValue 3) < 2 ^ 63 ∧
    2 ≤ WordLength.w16.bits / 8 ∧ (withCtx .w16 .bipolar 320 0 1 (failing 2)).failsAt 2 := by
  unfold State.failsAt State.allAnswered; decide
theorem wit_RdvoltIsRdregThenConvert :
    let s := withCtx .w16 .bipolar 320 0 2500 (gives [0, 0x40, 0x00])
    let t := nextOf (exec (.rdreg (.reg .data)) s)
    t.map (·.response) = some (some (.ok 0x4000)) ∧ (t.bind fun t => nextOf (exec (.convert 0x4000) t)).isSome = true ∧
    (nextOf (exec .rdvolt s)).isSome = true := by decide
theorem wit_SetmodeRequestsMode :
    (start (failing 3)).seq = .idle ∧ (start (failing 3)).allAnswered 3 ∧ (start (failing 2)).failsAt 2 ∧
    (start (failing 0)).failsAt 0 := by
  unfold State.failsAt State.allAnswered; decide
theorem wit_GetmodeAnswersMode : (start []).seq = .idle ∧ (start []).cfg.wf = true := by decide
theorem wit_GetmodeAfterSetmode :
    let t := nextOf (exec (.setmode .calSystemFull) (start (failing 1)))
    (start (failing 1)).cfg.wf = true ∧ t.map (·.response) = some (some (.error .busError)) ∧
    (t.bind fun t => nextOf (exec .getmode t)).map (·.response) = some (some (.ok 7)) := by decide
theorem wit_RdstatAnswersFlags :
    (start (failing 2)).seq = .idle ∧ (start (failing 2)).allAnswered 2 ∧ (start (failing 1)).failsAt 1 ∧
    (start (failing 0)).failsAt 0 := by
  unfold State.failsAt State.allAnswered; decide
/-- Ready at the last poll allowed; never ready; a failure in the second poll, at either `Xfer`; no poll allowed. -/
theorem wit_WaitrdyPolls :
    (start []).seq = .idle ∧
    ((start (gives [0, 0x80, 0, 0x0F])).allAnswered (2 * (1 + 1)) ∧
      (∀ i < 1, ¬ (start (gives [0, 0x80, 0, 0x0F])).pollReady i) ∧ (start (gives [0, 0x80, 0, 0x0F])).pollReady 1) ∧
    ((start (gives [0, 0x80, 0, 0x8F])).allAnswered (2 * 2) ∧
      ∀ i < 2, ¬ (start (gives [0, 0x80, 0, 0x8F])).pollReady i) ∧
    ((start (gives [0, 0x80, 0] ++ [.fail])).failsAt 3 ∧
      ∀ i < 3 / 2, ¬ (start (gives [0, 0x80, 0] ++ [.fail])).pollReady i) ∧
    ((start (gives [0, 0x80] ++ [.fail])).failsAt 2 ∧ ∀ i < 2 / 2, ¬ (start (gives [0, 0x80] ++ [.fail])).pollReady i) ∧
    (start []).allAnswered (2 * 0) := by
  unfold State.failsAt State.allAnswered State.pollReady; decide
theorem wit_NeverReadyTimesOut :
    let s := start (gives [0, 0, 0, 0, 0x80, 0, 0x80])
    let t := nextOf (exec (.setmode .convertSingle) s)
    s.seq = .idle ∧ s.allAnswered (3 + 2 * 2) ∧ (∀ j < 2, (s.nextByte (3 + 2 * j + 1)).getLsbD s.cfg.rdyPos = true) ∧
    t.isSome = true ∧ (t.bind fun t => nextOf (exec (.waitrdy 2) t)).map (·.response) = some (some (.error .timeout)) := by
  unfold State.allAnswered; decide
/-- ENCODE's byte; a byte that is answered; a byte that fails. -/
theorem wit_CommandByteIsSent :
    commandOf (.encode .write (.reg .status)) = some (.write, .status) ∧ isEncode (.encode .write (.reg .status)) = true ∧
    commandOf .rdvolt = some (.read, .data) ∧ isEncode .rdvolt = false ∧
    (running .rdvolt .cmd 2 (failing 1)).nextAnswer 0 ≠ .fail ∧ (running .rdvolt .cmd 2 (failing 0)).nextAnswer 0 = .fail ∧
    (running .rdvolt .cmd 2 []).seq = .run ⟨.rdvolt, .cmd, 2, 0, 0⟩ := by decide
theorem wit_ResetByteIsSent :
    (running .chiprst .fill 4 (failing 1)).seq = .run ⟨.chiprst, .fill, 3 + 1, 0, 0⟩ ∧
    (running .chiprst .fill 4 (failing 1)).nextAnswer 0 ≠ .fail ∧
    (running .chiprst .fill 1 (failing 1)).seq = .run ⟨.chiprst, .fill, 0 + 1, 0, 0⟩ ∧
    (running .chiprst .fill 1 (failing 0)).nextAnswer 0 = .fail := by decide
/-- An idle block; another phase; another command; no byte left. -/
theorem wit_WireByteNotDueRefused :
    (start []).seq = .idle ∧ (running .rdstat .data 1 []).seq = .run ⟨.rdstat, .data, 1, 0, 0⟩ ∧
    commandOf .rdstat ≠ some (.read, .data) ∧ (running .chiprst .fill 0 []).seq = .run ⟨.chiprst, .fill, 0, 0, 0⟩ ∧
    Phase.data ≠ .cmd ∧ Phase.data ≠ .fill ∧ Instr.rdstat ≠ .chiprst := by decide
theorem wit_ResetMeetsInvariant : Cfg.default.wf = true ∧ cfg.wf = true := by decide
/-- An idle block; the command phase of a write; the data phase of the last poll of a wait; the last reset byte. -/
theorem wit_StepKeepsInvariant :
    StateOk (start []) = true ∧ StateOk (running (.wrreg (.reg .mode) 0x0174) .cmd 2 (failing 1)) = true ∧
    StateOk { running (.waitrdy 2) .data 1 (failing 1) with
      seq := .run ⟨.waitrdy 2, .data, 1, 0, 1⟩, trace := [.txBegin, .xfer 0x30 (.byte 0)] } = true ∧
    StateOk { running .chiprst .fill 1 (failing 1) with
      trace := [.txBegin, .xfer 0xFF (.byte 0), .xfer 0xFF (.byte 0), .xfer 0xFF (.byte 0)] } = true ∧
    (nextOf (step (running (.wrreg (.reg .mode) 0x0174) .cmd 2 (failing 1)))).isSome = true := by decide
theorem wit_StepNeverFaults :
    StateOk (running .rdstat .cmd 1 []) = true ∧
    StateOk { running .rdstat .cmd 1 [] with hostIn := [.intrude 0] } = true := by decide
theorem wit_GrainsAgree :
    (start (failing 1)).seq = .idle ∧ (start (failing 1)).cfg.wf = true ∧
    (nextOf (step { start (failing 1) with hostIn := [.command .operation 0x1000000003123456] })).map (·.response) =
      some (some (.error .busError)) := by decide
theorem wit_OneXferPerStep :
    let s := running (.rdreg (.reg .gain)) .cmd 2 (failing 1)
    StateOk s = true ∧ s.seq = .run ⟨.rdreg (.reg .gain), .cmd, 2, 0, 0⟩ ∧ s.hostIn = [] ∧
    (nextOf (step s)).isSome = true ∧
    StateOk { running (.encode .read (.reg .data)) .cmd 0 [] with trace := [] } = true := by decide
theorem wit_TraceOnlyGrows :
    (nextOf (step (offered (.command .operation 0x7000000000000000) (failing 1)))).isSome = true ∧
    ∀ rest, (offered (.command .operation 0x7000000000000000) (failing 1)).hostIn ≠ .reset :: rest := by
  refine ⟨by decide, ?_⟩
  intro rest
  simp [offered]
theorem wit_ShadowWriters :
    (start (failing 3)).seq = .idle ∧
    (nextOf (exec (.setmode .standby) (start (failing 3)))).map (fun t => readShadow .mode t) = some 0x6174 ∧
    readShadow .mode (start (failing 3)) = 0x0174 := by decide
theorem wit_ShadowBlindOperations :
    (start (failing 1)).seq = .idle ∧ (nextOf (exec .rdstat (start (failing 1)))).isSome = true := by decide
theorem wit_ContextWriters :
    (start []).seq = .idle ∧ (start []).ctx.valid = false ∧
    (nextOf (exec (.setctx 20 .bipolar 0 1 .w24) (start []))).map (·.ctx) = some ⟨true, .w24, .bipolar, 20, 0, 1⟩ := by
  decide
/-- One state for each error. -/
theorem wit_ErrorOrigins :
    (start []).seq = .idle ∧
    (nextOf (exec (.waitrdy 0) (start []))).map (·.response) = some (some (.error .timeout)) ∧
    (nextOf (exec (.convert 65536) (withCtx .w16 .bipolar 20 0 1 []))).map (·.response) =
      some (some (.error .precisionViolation)) ∧
    (nextOf (exec .rdvolt (start []))).map (·.response) = some (some (.error .invalidContext)) ∧
    (nextOf (exec .rdstat (start (failing 0)))).map (·.response) = some (some (.error .busError)) := by decide
theorem wit_FailedCheckChangesNothing :
    (start []).seq = .idle ∧
    (nextOf (exec (.convert 5) (start []))).map (·.response) = some (some (.error .invalidContext)) ∧
    Err.invalidContext ≠ .busError ∧ Err.invalidContext ≠ .timeout := by decide

end Sys2Proof.Tests
end

section
/-! PROOFS. What one byte of an operation in progress can do (spec/10_state.md R28). -/

namespace Sys2Proof.Machine

/-! ### The step of an operation in progress -/

/-- What a step does with what it has fetched. -/
def Fetched.outcome : Fetched → Host.Outcome State Fault Refusal
  | .instr i t => exec i t
  | .settled o => o

@[simp] theorem Fetched.outcome_instr (i : Instr) (t : State) : (Fetched.instr i t).outcome = exec i t := rfl
@[simp] theorem Fetched.outcome_settled (o : Host.Outcome State Fault Refusal) : (Fetched.settled o).outcome = o := rfl

theorem step_eq_outcome (s : State) : step s = (fetch s).outcome := rfl

/-- What the next byte of the operation `q` does, whatever a host that waits has presented. -/
def runByte (q : Run) (s : State) : Host.Outcome State Fault Refusal := (nextByte q s).outcome

/-- A host that leaves the operation in progress alone: silent, quiet for a step, or waiting with a command. The
second state is the first with what that host has used up taken away. -/
inductive HostWaits (s : State) : State → Prop where
  | silent (h : s.hostIn = []) : HostWaits s s
  | quiet (rest : List HostEvent) (h : s.hostIn = .quiet :: rest) : HostWaits s { s with hostIn := rest }
  | command (g : Grain) (cw : Word64) (rest : List HostEvent) (h : s.hostIn = .command g cw :: rest) : HostWaits s s

theorem fetch_running {s t : State} {q : Run} (hs : s.seq = .run q) (hw : HostWaits s t) : fetch s = nextByte q t := by
  cases hw with
  | silent h => simp [fetch, h, hs]
  | quiet rest h => simp [fetch, h, hs]
  | command g cw rest h => simp [fetch, h, hs]

theorem step_running {s t : State} {q : Run} (hs : s.seq = .run q) (hw : HostWaits s t) : step s = runByte q t := by
  rw [step_eq_outcome, fetch_running hs hw, runByte]

/-- One step of an operation in progress under a host that waits. -/
def ByteStep (s t : State) : Prop := ∃ q, s.seq = .run q ∧ runByte q s = .next t

/-- In the command phase the command byte is emitted. -/
theorem runByte_command {s : State} {q : Run} {d : Dir} {r : Reg} (hs : s.seq = .run q) (hp : q.phase = .cmd)
    (hc : commandOf q.op = some (d, r)) (hw : s.cfg.wf = true) : runByte q s = .next (emitCommand d r q s) := by
  simp [runByte, nextByte, hp, hc, serveWire, decode, decodeWire_cmdByte hw, sendCommand, hs]

/-- In the data phase a data byte moves. -/
theorem runByte_data {s : State} {q : Run} (hp : q.phase = .data) : runByte q s = advanceData q s := by
  simp [runByte, nextByte, hp]

/-- In the fill phase of CHIPRST a reset byte is sent. -/
theorem runByte_fill {s : State} {q : Run} {left : Nat} (hs : s.seq = .run q) (hp : q.phase = .fill)
    (ho : q.op = .chiprst) (hi : q.i = left + 1) : runByte q s = .next (sendReset q left s) := by
  simp [runByte, nextByte, hp, ho, hi, serveWire, decode, execResetByte, hs, emitReset]

/-- Everything the next byte of an operation can do. -/
theorem runByte_cases {s t : State} {q : Run} (hs : s.seq = .run q) (hw : s.cfg.wf = true) (h : runByte q s = .next t) :
    (q.phase = .cmd ∧ ∃ d r, commandOf q.op = some (d, r) ∧ t = emitCommand d r q s) ∨
    (q.phase = .data ∧ advanceData q s = .next t) ∨
    (q.phase = .fill ∧ q.op = .chiprst ∧ ∃ left, q.i = left + 1 ∧ t = sendReset q left s) := by
  cases hp : q.phase with
  | cmd =>
    cases hc : commandOf q.op with
    | none => simp [runByte, nextByte, hp, hc] at h
    | some c =>
      obtain ⟨d, r⟩ := c
      rw [runByte_command hs hp hc hw] at h
      cases h
      exact .inl ⟨rfl, d, r, rfl, rfl⟩
  | data => exact .inr (.inl ⟨rfl, runByte_data hp ▸ h⟩)
  | fill =>
    by_cases hf : q.op = .chiprst ∧ 0 < q.i
    · obtain ⟨ho, hi⟩ := hf
      obtain ⟨left, hl⟩ : ∃ left, q.i = left + 1 := ⟨q.i - 1, by omega⟩
      rw [runByte_fill hs hp ho hl] at h
      cases h
      exact .inr (.inr ⟨rfl, ho, left, hl, rfl⟩)
    · simp [runByte, nextByte, hp, hf] at h

/-- Everything a data byte can do: the transfer fails, or it succeeds and the accumulator takes a byte that is read. -/
theorem advanceData_cases {q : Run} {s t : State} (h : advanceData q s = .next t) :
    ∃ b left d r, q.i = left + 1 ∧ commandOf q.op = some (d, r) ∧
      (s.nextAnswer 0 = .fail ∧ t = respond (.error .busError) (busEnd (xfer b s)) ∨
       s.nextAnswer 0 ≠ .fail ∧
         ∃ acc, (acc = q.acc ∨ acc = shiftIn q.acc (s.nextByte 0)) ∧
           afterByte { q with acc := acc } left (xfer b s) = .next t) := by
  obtain ⟨op, ph, i, acc, polls⟩ := q
  cases i with
  | zero => cases hc : commandOf op <;> simp [advanceData, hc] at h
  | succ left =>
    cases hc : commandOf op with
    | none => simp [advanceData, hc] at h
    | some c =>
      obtain ⟨d, r⟩ := c
      cases d with
      | write =>
        cases hg : shadowOf r with
        | none => simp [advanceData, hc, hg] at h
        | some g =>
          refine ⟨dataByte g left s, left, .write, r, rfl, rfl, ?_⟩
          by_cases hf : s.nextAnswer 0 = .fail
          · exact .inl ⟨hf, by simpa [advanceData, hc, hg, answer_eq_fail hf, eq_comm] using h⟩
          · exact .inr ⟨hf, acc, .inl rfl, by simpa [advanceData, hc, hg, answer_eq_byte hf] using h⟩
      | read =>
        refine ⟨Config.readFill, left, .read, r, rfl, rfl, ?_⟩
        by_cases hf : s.nextAnswer 0 = .fail
        · exact .inl ⟨hf, by simpa [advanceData, hc, answer_eq_fail hf, eq_comm] using h⟩
        · exact .inr ⟨hf, _, .inr rfl, by simpa [advanceData, hc, answer_eq_byte hf] using h⟩

/-- Everything the completion of an operation can do: it responds, REFRESH after its shadow takes the value read, or
WAITRDY opens its next poll. -/
theorem complete_cases {q : Run} {s t : State} (h : complete q s = .next t) :
    (∃ x, t = respond x s) ∨ (∃ x g v, t = respond x (writeShadow g v s)) ∨
    (∃ n, q.op = .waitrdy n ∧ q.polls + 1 < n ∧ t = openCommand q.op .status (q.polls + 1) s) := by
  obtain ⟨op, ph, i, acc, polls⟩ := q
  cases op with
  | waitrdy n =>
    simp only [complete] at h
    split at h
    · cases h; exact .inl ⟨_, rfl⟩
    · split at h
      · cases h; exact .inr (.inr ⟨n, rfl, by assumption, rfl⟩)
      · cases h; exact .inl ⟨_, rfl⟩
  | refresh sel =>
    cases hg : shadowedReg sel with
    | ok g => simp only [complete, hg] at h; cases h; exact .inr (.inl ⟨_, g, acc, rfl⟩)
    | error e => simp [complete, hg] at h
  | setfld sel bits mask =>
    cases hg : shadowedReg sel with
    | ok g => simp only [complete, hg] at h; cases h; exact .inl ⟨_, rfl⟩
    | error e => simp [complete, hg] at h
  | wrreg sel v => cases h; exact .inl ⟨_, rfl⟩
  | rdreg sel => cases h; exact .inl ⟨_, rfl⟩
  | setmode m => cases h; exact .inl ⟨_, rfl⟩
  | rdstat => cases h; exact .inl ⟨_, rfl⟩
  | rdvolt => cases h; exact .inl ⟨_, rfl⟩
  | _ => simp [complete] at h

end Sys2Proof.Machine
end

section
/-! PROOFS. The bytes of an operation, one a step, and its atomic transition (spec/10_state.md R29). -/

namespace Sys2Proof.Machine

/-! ### An operation byte by byte and as one transition -/

/-- The state `s` of the atomic form, in which the byte form stands at `q`. -/
def State.during (s : State) (q : Run) : State := { s with seq := .run q, response := none }

@[simp] theorem during_seq (s : State) (q : Run) : (s.during q).seq = .run q := rfl
@[simp] theorem during_cfg (s : State) (q : Run) : (s.during q).cfg = s.cfg := rfl
@[simp] theorem during_xfers (s : State) (q : Run) : (s.during q).xfers = s.xfers := rfl
@[simp] theorem answer_during (s : State) (q : Run) (n : Nat) : (s.during q).answer n = s.answer n := rfl
@[simp] theorem respond_during (x : Response) (s : State) (q : Run) : respond x (s.during q) = respond x s := rfl
@[simp] theorem busEnd_during (s : State) (q : Run) : busEnd (s.during q) = (busEnd s).during q := rfl
@[simp] theorem xfer_during (b : Byte) (s : State) (q : Run) : xfer b (s.during q) = (xfer b s).during q := rfl
theorem afterByte_during (q q' : Run) (n : Nat) (s : State) :
    afterByte q (n + 1) (s.during q') = .next (s.during { q with i := n + 1 }) := rfl
@[simp] theorem readShadow_during (g : ShadowReg) (s : State) (q : Run) : readShadow g (s.during q) = readShadow g s := by
  cases g <;> rfl
@[simp] theorem writeShadow_during (g : ShadowReg) (v : Word24) (s : State) (q : Run) :
    writeShadow g v (s.during q) = (writeShadow g v s).during q := by cases g <;> rfl

theorem enter_eq_during (op : Instr) (p : Phase) (i polls : Nat) (s : State) :
    enter op p i polls s = s.during { op := op, phase := p, i := i, acc := 0, polls := polls } := rfl

/-- Some steps of the operation in progress, one after another. -/
abbrev ByteSteps : State → State → Prop := Relation.ReflTransGen ByteStep

theorem byteSteps_head {s t u : State} {q : Run} (h : runByte q (s.during q) = .next t) (ht : ByteSteps t u) :
    ByteSteps (s.during q) u := .head ⟨q, rfl, h⟩ ht

theorem byteSteps_one {s t : State} {q : Run} (h : runByte q (s.during q) = .next t) : ByteSteps (s.during q) t :=
  byteSteps_head h .refl

/-- The end of a transaction that only sends: `End`, and the payload or `BusError`. -/
def closeWith (payload : Word64) (r : Bool × State) : State :=
  if r.1 then reply payload (busEnd r.2) else raise .busError (busEnd r.2)

/-- The end of a transaction that reads: `End`, and what follows from the value, or `BusError`. -/
def closeRead (k : Word24 → State → State) (r : Option Word24 × State) : State :=
  match r.1 with
  | some acc => k acc (busEnd r.2)
  | none => raise .busError (busEnd r.2)

@[simp] theorem closeWith_true (payload : Word64) (s : State) :
    closeWith payload (true, s) = respond (.ok payload) (busEnd s) := rfl
@[simp] theorem closeWith_false (payload : Word64) (s : State) :
    closeWith payload (false, s) = respond (.error .busError) (busEnd s) := rfl
@[simp] theorem closeRead_some (k : Word24 → State → State) (acc : Word24) (s : State) :
    closeRead k (some acc, s) = k acc (busEnd s) := rfl
@[simp] theorem closeRead_none (k : Word24 → State → State) (s : State) :
    closeRead k (none, s) = respond (.error .busError) (busEnd s) := rfl

theorem loadRegister_eq_closeRead {r : Reg} {s t : State} {v : Option Word24} (k : Word24 → State → State)
    (h : memRead r (nbytes s.ctx r) s = (v, busEnd t)) : loadRegister r k s = closeRead k (v, t) := by
  cases v <;> simp [loadRegister, h]

theorem sendBytes_cons_byte {s : State} {x : Byte} (h : s.answer s.xfers = .byte x) (b : Byte) (bs : List Byte) :
    sendBytes (b :: bs) s = sendBytes bs (xfer b s) := by simp [sendBytes, h]
theorem sendBytes_cons_fail {s : State} (h : s.answer s.xfers = .fail) (b : Byte) (bs : List Byte) :
    sendBytes (b :: bs) s = (false, xfer b s) := by simp [sendBytes, h]
theorem receiveBytes_succ_byte {s : State} {x : Byte} (h : s.answer s.xfers = .byte x) (n : Nat) (acc : Word24) :
    receiveBytes (n + 1) acc s = receiveBytes n (shiftIn acc x) (xfer Config.readFill s) := by simp [receiveBytes, h]
theorem receiveBytes_succ_fail {s : State} (h : s.answer s.xfers = .fail) (n : Nat) (acc : Word24) :
    receiveBytes (n + 1) acc s = (none, xfer Config.readFill s) := by simp [receiveBytes, h]

/-- A write's data bytes, one a step, end as they do sent at once. -/
theorem byteSteps_writeData {op : Instr} {g : ShadowReg} {v : Word24} {payload : Word64}
    (hc : commandOf op = some (.write, g.reg))
    (hdone : ∀ (q : Run) (u : State), q.op = op → readShadow g u = v → complete q u = .next (reply payload u))
    (polls n : Nat) (acc : Word24) (s : State) (hv : readShadow g s = v) :
    ByteSteps (s.during ⟨op, .data, n + 1, acc, polls⟩) (closeWith payload (sendBytes (wireBytes v (n + 1)) s)) := by
  induction n generalizing s with
  | zero =>
    apply byteSteps_one
    rw [runByte_data rfl]
    cases ha : s.answer s.xfers with
    | fail => simp [advanceData, hc, ha, wireBytes, sendBytes_cons_fail, dataByte, hv]
    | byte x => simp [advanceData, hc, ha, wireBytes, sendBytes_cons_byte, sendBytes, dataByte, hv, hdone]
  | succ n ih =>
    cases ha : s.answer s.xfers with
    | fail =>
      apply byteSteps_one
      rw [runByte_data rfl]
      simp [advanceData, hc, ha, wireBytes, sendBytes_cons_fail, dataByte, hv]
    | byte x =>
      rw [wireBytes, sendBytes_cons_byte ha]
      refine byteSteps_head ?_ (ih (xfer _ s) (by simpa using hv))
      rw [runByte_data rfl]
      simp [advanceData, hc, ha, dataByte, hv, afterByte_during, -afterByte_succ]

/-- A read's data bytes, one a step, end as they do received at once, if the completion leads on as the atomic form
does. -/
theorem byteSteps_readData {op : Instr} {r : Reg} {k : Word24 → State → State} {polls : Nat} {cfg : Cfg}
    (hc : commandOf op = some (.read, r))
    (hdone : ∀ (acc : Word24) (q : Run) (u : State), u.cfg = cfg →
      ∃ t, complete ⟨op, .data, 0, acc, polls⟩ (u.during q) = .next t ∧ ByteSteps t (k acc u))
    (n : Nat) (acc : Word24) (s : State) (hs : s.cfg = cfg) :
    ByteSteps (s.during ⟨op, .data, n + 1, acc, polls⟩) (closeRead k (receiveBytes (n + 1) acc s)) := by
  induction n generalizing s acc with
  | zero =>
    cases ha : s.answer s.xfers with
    | fail =>
      apply byteSteps_one
      rw [runByte_data rfl]
      simp [advanceData, hc, ha, receiveBytes_succ_fail]
    | byte x =>
      obtain ⟨t, ht, hk⟩ := hdone (shiftIn acc x) ⟨op, .data, 1, acc, polls⟩ (busEnd (xfer Config.readFill s)) hs
      rw [receiveBytes_succ_byte ha]
      refine byteSteps_head ?_ hk
      rw [runByte_data rfl]
      simp [advanceData, hc, ha, ht]
  | succ n ih =>
    cases ha : s.answer s.xfers with
    | fail =>
      apply byteSteps_one
      rw [runByte_data rfl]
      simp [advanceData, hc, ha, receiveBytes_succ_fail]
    | byte x =>
      rw [receiveBytes_succ_byte ha]
      refine byteSteps_head ?_ (ih (shiftIn acc x) (xfer Config.readFill s) hs)
      rw [runByte_data rfl]
      simp [advanceData, hc, ha, afterByte_during, -afterByte_succ]

/-- The command byte of a bus operation, answered or not. -/
theorem runByte_emit {op : Instr} {d : Dir} {r : Reg} (hc : commandOf op = some (d, r)) (he : isEncode op = false)
    (i polls : Nat) (s : State) (hw : s.cfg.wf = true) :
    (∀ x, s.answer s.xfers = .byte x → runByte ⟨op, .cmd, i, 0, polls⟩ (s.during ⟨op, .cmd, i, 0, polls⟩) =
      .next ((xfer (cmdByte s.cfg d r) s).during ⟨op, .data, i, 0, polls⟩)) ∧
    (s.answer s.xfers = .fail → runByte ⟨op, .cmd, i, 0, polls⟩ (s.during ⟨op, .cmd, i, 0, polls⟩) =
      .next (respond (.error .busError) (busEnd (xfer (cmdByte s.cfg d r) s)))) := by
  have h := runByte_command (s := s.during ⟨op, .cmd, i, 0, polls⟩) rfl rfl hc hw
  rw [h]
  exact ⟨fun x ha => by simp only [emitCommand, he, answer_during, during_xfers, ha]; rfl, fun ha => by simp [emitCommand, he, ha]⟩

/-- A write opened and run byte by byte ends as `storeRegister`. -/
theorem byteSteps_storeRegister {op : Instr} {g : ShadowReg} {v : Word24} {payload : Word64} {s : State}
    (hc : commandOf op = some (.write, g.reg)) (he : isEncode op = false) (hv : fits g v = true) (hw : s.cfg.wf = true)
    (hdone : ∀ (q : Run) (u : State), q.op = op → readShadow g u = v → complete q u = .next (reply payload u)) :
    ByteSteps (openCommand op g.reg 0 (writeShadow g v s)) (storeRegister g v payload s) := by
  have hstore : storeRegister g v payload s = closeWith payload
      (sendBytes (cmdByte s.cfg .write g.reg :: wireBytes v (nbytes s.ctx g.reg)) (busBegin (writeShadow g v s))) := by
    simp only [storeRegister, memWrite, sendFramed, readShadow_writeShadow g v s hv, writeShadow_ctx, writeShadow_cfg]
    rfl
  obtain ⟨n, hn⟩ : ∃ n, nbytes s.ctx g.reg = n + 1 := ⟨_, (Nat.succ_pred_eq_of_pos (nbytes_pos s.ctx g.reg)).symm⟩
  obtain ⟨hbyte, hfail⟩ := runByte_emit hc he (n + 1) 0 (busBegin (writeShadow g v s)) (by simpa using hw)
  rw [openCommand_eq_enter, enter_eq_during, writeShadow_ctx, hstore, hn]
  cases ha : (busBegin (writeShadow g v s)).answer (busBegin (writeShadow g v s)).xfers with
  | fail => exact byteSteps_one (by rw [hfail ha, sendBytes_cons_fail ha]; simp)
  | byte x =>
    rw [sendBytes_cons_byte ha]
    refine byteSteps_head (hbyte x ha) ?_
    simpa using byteSteps_writeData hc hdone 0 n 0 (xfer (cmdByte s.cfg .write g.reg) (busBegin (writeShadow g v s)))
      (by simpa using readShadow_writeShadow g v s hv)

/-- A read opened and run byte by byte ends as `loadRegister`, if its completion leads on as the atomic form does. -/
theorem byteSteps_loadRegister {op : Instr} {r : Reg} {k : Word24 → State → State} {polls : Nat} {s : State}
    (hc : commandOf op = some (.read, r)) (he : isEncode op = false) (hw : s.cfg.wf = true)
    (hdone : ∀ (acc : Word24) (q : Run) (u : State), u.cfg = s.cfg →
      ∃ t, complete ⟨op, .data, 0, acc, polls⟩ (u.during q) = .next t ∧ ByteSteps t (k acc u)) :
    ByteSteps (openCommand op r polls s) (loadRegister r k s) := by
  obtain ⟨n, hn⟩ : ∃ n, nbytes s.ctx r = n + 1 := ⟨_, (Nat.succ_pred_eq_of_pos (nbytes_pos s.ctx r)).symm⟩
  obtain ⟨hbyte, hfail⟩ := runByte_emit hc he (n + 1) polls (busBegin s) hw
  rw [openCommand_eq_enter, enter_eq_during, hn]
  cases ha : (busBegin s).answer (busBegin s).xfers with
  | fail =>
    have hmem : memRead r (nbytes s.ctx r) s = (none, busEnd (xfer (cmdByte s.cfg .read r) (busBegin s))) := by
      simp only [memRead, ha]
    rw [loadRegister_eq_closeRead k hmem]
    exact byteSteps_one (hfail ha)
  | byte x =>
    have hmem : memRead r (nbytes s.ctx r) s =
        ((receiveBytes (n + 1) 0 (xfer (cmdByte s.cfg .read r) (busBegin s))).1,
          busEnd (receiveBytes (n + 1) 0 (xfer (cmdByte s.cfg .read r) (busBegin s))).2) := by
      simp only [memRead, ha, hn]
    rw [loadRegister_eq_closeRead k hmem]
    exact byteSteps_head (hbyte x ha) (byteSteps_readData hc hdone n 0 _ rfl)

/-- A read whose operation answers at once with what it read. -/
theorem byteSteps_loadRegister_of_complete {op : Instr} {r : Reg} {k : Word24 → State → State} {s : State}
    (hc : commandOf op = some (.read, r)) (he : isEncode op = false) (hw : s.cfg.wf = true)
    (hdone : ∀ (acc : Word24) (q : Run) (u : State), complete ⟨op, .data, 0, acc, 0⟩ (u.during q) = .next (k acc u)) :
    ByteSteps (openCommand op r 0 s) (loadRegister r k s) :=
  byteSteps_loadRegister hc he hw fun acc q u _ => ⟨_, hdone acc q u, .refl⟩

/-- WAITRDY's next poll and all that follow, byte by byte, end as the loop does. -/
theorem byteSteps_pollLoop {maxPolls : Nat} (left polls : Nat) (s : State) (hp : polls + left + 1 = maxPolls)
    (hw : s.cfg.wf = true) :
    ByteSteps (openCommand (.waitrdy maxPolls) .status polls s) (pollLoop (left + 1) polls s) := by
  induction left generalizing polls s with
  | zero =>
    refine byteSteps_loadRegister rfl rfl hw fun acc q u hu => ⟨_, ?_, .refl⟩
    by_cases hr : ready u.cfg (acc.setWidth 8) = true
    · simp [complete, hr]
    · simp [complete, hr, pollLoop, show ¬ polls + 1 < maxPolls by omega]
  | succ left ih =>
    refine byteSteps_loadRegister rfl rfl hw fun acc q u hu => ?_
    by_cases hr : ready u.cfg (acc.setWidth 8) = true
    · exact ⟨reply (pollPayload (polls + 1) (acc.setWidth 8)) u, by simp [complete, hr], by simp [hr, Relation.ReflTransGen.refl]⟩
    · refine ⟨openCommand (.waitrdy maxPolls) .status (polls + 1) u, ?_, ?_⟩
      · simp [complete, hr, show polls + 1 < maxPolls by omega]
        rfl
      · simpa [hr] using ih (polls + 1) u (by omega) (hu ▸ hw)

/-- CHIPRST's reset bytes, one a step, end as they do sent at once. -/
theorem byteSteps_fill (n : Nat) (s : State) :
    ByteSteps (s.during ⟨.chiprst, .fill, n + 1, 0, 0⟩)
      (closeWith 0 (sendBytes (List.replicate (n + 1) Config.resetByte) s)) := by
  induction n generalizing s with
  | zero =>
    apply byteSteps_one
    rw [runByte_fill (left := 0) rfl rfl rfl rfl]
    cases ha : s.answer s.xfers with
    | fail => simp [sendReset, ha, sendBytes]
    | byte x => simp [sendReset, ha, sendBytes]
  | succ n ih =>
    cases ha : s.answer s.xfers with
    | fail =>
      apply byteSteps_one
      rw [runByte_fill (left := n + 1) rfl rfl rfl rfl]
      simp [sendReset, ha, List.replicate_succ, sendBytes]
    | byte x =>
      rw [List.replicate_succ, sendBytes_cons_byte ha]
      refine byteSteps_head ?_ (ih (xfer Config.resetByte s))
      rw [runByte_fill (left := n + 1) rfl rfl rfl rfl]
      simp only [sendReset, answer_during, during_xfers, ha]
      rfl

end Sys2Proof.Machine
end

section
/-! PROOFS. Issuing an operation, and the agreement of the two forms of R29. -/

namespace Sys2Proof.Machine

/-! ### Issuing an operation -/

/-- A masked update of what fits a register with bits that fit it fits the register (spec/42_shadow_store.md R130). -/
theorem fits_merge {g : ShadowReg} {old bits mask : Word24} (ho : fits g old = true) (hb : fits g bits = true) :
    fits g (merge old bits mask) = true := by
  simp only [fits, decide_eq_true_eq] at *
  simp only [merge, BitVec.toNat_or, BitVec.toNat_and]
  exact Nat.or_lt_two_pow (Nat.lt_of_le_of_lt Nat.and_le_left ho) (Nat.lt_of_le_of_lt Nat.and_le_left hb)

/-- The MD field's bits fit Mode. -/
theorem fits_mdBits (cfg : Cfg) (m : ModeState) : fits .mode ((mdBits cfg m).setWidth 24) = true := by
  have h := (mdBits cfg m).isLt
  simp only [fits, ShadowReg.width, BitVec.toNat_setWidth, decide_eq_true_eq]
  omega

/-- What a masked update leaves under its mask are the new bits (R130). -/
theorem merge_and_mask {w : Nat} (old bits mask : BitVec w) : merge old bits mask &&& mask = bits &&& mask := by
  ext i hi
  simp only [merge, BitVec.getElem_and, BitVec.getElem_or, BitVec.getElem_not]
  cases mask[i] <;> simp

/-- The codes of a well-formed configuration are those of one mode each (spec/44_mode_state_machine.md R171). -/
theorem mdDecode_mdCode {cfg : Cfg} (hw : cfg.wf = true) (m : ModeState) :
    mdDecode cfg.mdCodes (mdCode cfg.mdCodes m) = m := by
  have hn : cfg.mdCodes.toList.Nodup := by
    simp only [Cfg.wf, Bool.and_eq_true, decide_eq_true_eq] at hw; tauto
  simp only [MdCodes.toList, List.nodup_cons, List.mem_cons, List.not_mem_nil, or_false, not_or] at hn
  cases m <;> simp_all [mdDecode, allModes, mdCode]

/-- The low three bits of `MD_MASK` before it is shifted to the MD field (R170). -/
theorem getElem_seven : ∀ {i : Nat} (hi : i < 3), (7#16)[i]'(by omega) = true := by decide

/-- SETMODE's masked update puts the mode's code in the MD field (R172). -/
theorem mdField_merge (cfg : Cfg) (m : ModeState) (old : Word24) :
    (((merge old ((mdBits cfg m).setWidth 24) ((mdMask cfg).setWidth 24)).setWidth 16 : Word16)).extractLsb' cfg.mdLo 3 =
      mdCode cfg.mdCodes m := by
  have hlo := cfg.mdLo.isLt
  ext i hi
  have h16 : (cfg.mdLo : Nat) + i < 16 := by omega
  simp [merge, mdBits, mdMask, h16, hi, getElem_seven hi]

/-- After SETMODE's update the block's mode is the one requested (R172, R26). -/
theorem modeState_setmode {cfg : Cfg} (hw : cfg.wf = true) (m : ModeState) (old : Word24) :
    modeState cfg ((merge old ((mdBits cfg m).setWidth 24) ((mdMask cfg).setWidth 24)).setWidth 16) = m := by
  rw [modeState, mdField_merge, mdDecode_mdCode hw]

/-- What WRREG's checks let through (R111). -/
theorem checkWrreg_ok {sel : Sel} {v : Word24} {g : ShadowReg} (h : checkWrreg sel v = .ok g) :
    sel = .reg g.reg ∧ fits g v = true := by
  unfold checkWrreg at h
  cases hs : shadowedReg sel with
  | error e => simp [hs] at h
  | ok g' =>
    rw [hs] at h
    by_cases hf : fits g' v = true
    · simp only [hf, if_true, Except.ok.injEq] at h
      subst h
      exact ⟨(shadowedReg_ok_iff sel g').1 hs, hf⟩
    · simp [hf] at h

/-- What SETFLD's checks let through (R131, R132). -/
theorem checkSetfld_ok {sel : Sel} {bits mask : Word24} {g : ShadowReg} (h : checkSetfld sel bits mask = .ok g) :
    sel = .reg g.reg ∧ fits g mask = true ∧ fits g bits = true := by
  unfold checkSetfld at h
  cases hs : shadowedReg sel with
  | error e => simp [hs] at h
  | ok g' =>
    rw [hs] at h
    by_cases hm : fits g' mask = true
    · by_cases hb : fits g' bits = true
      · simp only [hm, hb, Bool.not_true, Bool.false_eq_true, if_false, Except.ok.injEq] at h
        subst h
        exact ⟨(shadowedReg_ok_iff sel g').1 hs, hm, hb⟩
      · simp [hm, hb] at h
    · simp [hm] at h

/-- What RDREG's checks let through (R112). -/
theorem checkRdreg_ok {sel : Sel} {x : Ctx} {r : Reg} (h : checkRdreg sel x = .ok r) : sel = .reg r := by
  rcases sel with r' | _ | _
  · simp only [checkRdreg, validReg] at h
    split at h <;> simp_all
  · simp [checkRdreg, validReg] at h
  · simp [checkRdreg, validReg] at h

/-- What ENCODE's check lets through (R100). -/
theorem validReg_ok {sel : Sel} {r : Reg} (h : validReg sel = .ok r) : sel = .reg r := by
  rcases sel with r' | _ | _ <;> simp_all [validReg]

/-- On an idle block only a host operation has a next state (spec/30_encoding.md R73, R76). -/
theorem isHostOp_of_exec_idle {i : Instr} {s t : State} (hs : s.seq = .idle) (h : exec i s = .next t) :
    i.isHostOp = true := by
  rcases instr_cases i with hi | ⟨d, r, rfl⟩ | rfl
  · exact hi
  · simp [sendCommand, hs] at h
  · simp [execResetByte, hs] at h

/-- What a host operation on an idle block comes to is its body. -/
theorem next_of_hostOp {body : State → State} {s t : State} (hs : s.seq = .idle) (h : hostOp body s = .next t) :
    t = body s := by
  rw [hostOp_idle body s hs] at h
  cases h
  rfl

/-- Issued on the state `s` and run byte by byte, the operation ends in `t`. -/
def IssueReaches (i : Instr) (s t : State) : Prop := ∃ u, issue i s = .next u ∧ ByteSteps u t

theorem issueReaches_of_issue {i : Instr} {s t : State} (h : issue i s = .next t) : IssueReaches i s t := ⟨t, h, .refl⟩

theorem issueReaches_encode (d : Dir) (sel : Sel) (s : State) (hw : s.cfg.wf = true) :
    IssueReaches (.encode d sel) s (doEncode d sel s) := by
  cases hv : validReg sel with
  | error e => exact issueReaches_of_issue (by simp [issue, doEncode, hv])
  | ok r =>
    obtain rfl := validReg_ok hv
    refine ⟨enter (.encode d (.reg r)) .cmd 0 0 s, by simp [issue, hv], byteSteps_one ?_⟩
    have h := runByte_command (s := enter (.encode d (.reg r)) .cmd 0 0 s) (d := d) (r := r) rfl rfl rfl hw
    refine h.trans ?_
    simp [emitCommand, isEncode, doEncode, hv, enter_eq_during]

theorem issueReaches_wrreg (sel : Sel) (v : Word24) (s : State) (hw : s.cfg.wf = true) :
    IssueReaches (.wrreg sel v) s (doWrreg sel v s) := by
  cases hc : checkWrreg sel v with
  | error e => exact issueReaches_of_issue (by simp [issue, doWrreg, hc])
  | ok g =>
    obtain ⟨rfl, hf⟩ := checkWrreg_ok hc
    refine ⟨openCommand (.wrreg (.reg g.reg) v) g.reg 0 (writeShadow g v s), by simp [issue, hc], ?_⟩
    simp only [doWrreg, hc]
    exact byteSteps_storeRegister (by simp [commandOf]) rfl hf hw fun q u hq _ => by simp [complete, hq]

theorem issueReaches_rdreg (sel : Sel) (s : State) (hw : s.cfg.wf = true) :
    IssueReaches (.rdreg sel) s (doRdreg sel s) := by
  cases hc : checkRdreg sel s.ctx with
  | error e => exact issueReaches_of_issue (by simp [issue, doRdreg, hc])
  | ok r =>
    obtain rfl := checkRdreg_ok hc
    refine ⟨openCommand (.rdreg (.reg r)) r 0 s, by simp [issue, hc], ?_⟩
    simp only [doRdreg, hc]
    exact byteSteps_loadRegister_of_complete rfl rfl hw fun acc q u => by simp [complete]

theorem issueReaches_refresh (sel : Sel) (s : State) (hw : s.cfg.wf = true) :
    IssueReaches (.refresh sel) s (doRefresh sel s) := by
  cases hc : shadowedReg sel with
  | error e => exact issueReaches_of_issue (by simp [issue, doRefresh, hc])
  | ok g =>
    obtain rfl := (shadowedReg_ok_iff sel g).1 hc
    refine ⟨openCommand (.refresh (.reg g.reg)) g.reg 0 s, by simp [issue], ?_⟩
    simp only [doRefresh, hc]
    exact byteSteps_loadRegister_of_complete (by simp [commandOf]) rfl hw fun acc q u => by simp [complete]

theorem issueReaches_setfld (sel : Sel) (bits mask : Word24) (s : State) (hw : s.cfg.wf = true) :
    IssueReaches (.setfld sel bits mask) s (doSetfld sel bits mask s) := by
  cases hc : checkSetfld sel bits mask with
  | error e => exact issueReaches_of_issue (by simp [issue, doSetfld, hc])
  | ok g =>
    obtain ⟨rfl, hm, hb⟩ := checkSetfld_ok hc
    refine ⟨openCommand (.setfld (.reg g.reg) bits mask) g.reg 0
      (writeShadow g (merge (readShadow g s) bits mask) s), by simp [issue, hc], ?_⟩
    simp only [doSetfld, hc, updateField]
    exact byteSteps_storeRegister (by simp [commandOf]) rfl (fits_merge (fits_readShadow g s) hb) hw
      fun q u hq hv => by simp [complete, hq, hv]

theorem issueReaches_setmode (m : ModeState) (s : State) (hw : s.cfg.wf = true) :
    IssueReaches (.setmode m) s (doSetmode m s) :=
  ⟨_, rfl, byteSteps_storeRegister (g := .mode) rfl rfl (fits_merge (fits_readShadow .mode s) (fits_mdBits _ _)) hw
    fun q u hq hv => by simp [complete, hq, hv]⟩

theorem issueReaches_waitrdy (n : Nat) (s : State) (hw : s.cfg.wf = true) :
    IssueReaches (.waitrdy n) s (doWaitrdy n s) := by
  cases n with
  | zero => exact issueReaches_of_issue (by simp [issue, doWaitrdy, pollLoop])
  | succ n =>
    exact ⟨openCommand (.waitrdy (n + 1)) .status 0 s, by simp [issue], byteSteps_pollLoop n 0 s (by omega) hw⟩

theorem issueReaches_rdstat (s : State) (hw : s.cfg.wf = true) : IssueReaches .rdstat s (doRdstat s) :=
  ⟨_, rfl, byteSteps_loadRegister_of_complete rfl rfl hw fun acc q u => by simp [complete]⟩

theorem issueReaches_chiprst (s : State) : IssueReaches .chiprst s (doChiprst s) :=
  ⟨_, rfl, byteSteps_fill 3 (busBegin (toDefaults s))⟩

theorem issueReaches_rdvolt (s : State) (hw : s.cfg.wf = true) : IssueReaches .rdvolt s (doRdvolt s) := by
  by_cases hv : s.ctx.valid = true
  · refine ⟨openCommand .rdvolt .data 0 s, by simp [issue, hv], ?_⟩
    simp only [doRdvolt, hv, if_true]
    exact byteSteps_loadRegister_of_complete rfl rfl hw fun acc q u => rfl
  · exact issueReaches_of_issue (by simp [issue, doRdvolt, hv])

/-- The byte form of an operation on an idle block ends where its atomic form does (R29). -/
theorem issueReaches_of_exec {i : Instr} {s t : State} (hs : s.seq = .idle) (hw : s.cfg.wf = true)
    (h : exec i s = .next t) : IssueReaches i s t := by
  have hop := isHostOp_of_exec_idle hs h
  cases i with
  | encode d sel => obtain rfl := next_of_hostOp hs h; exact issueReaches_encode d sel s hw
  | wrreg sel v => obtain rfl := next_of_hostOp hs h; exact issueReaches_wrreg sel v s hw
  | rdreg sel => obtain rfl := next_of_hostOp hs h; exact issueReaches_rdreg sel s hw
  | refresh sel => obtain rfl := next_of_hostOp hs h; exact issueReaches_refresh sel s hw
  | setfld sel b m => obtain rfl := next_of_hostOp hs h; exact issueReaches_setfld sel b m s hw
  | setmode m => obtain rfl := next_of_hostOp hs h; exact issueReaches_setmode m s hw
  | waitrdy n => obtain rfl := next_of_hostOp hs h; exact issueReaches_waitrdy n s hw
  | rdstat => obtain rfl := next_of_hostOp hs h; exact issueReaches_rdstat s hw
  | chiprst => obtain rfl := next_of_hostOp hs h; exact issueReaches_chiprst s
  | rdvolt => obtain rfl := next_of_hostOp hs h; exact issueReaches_rdvolt s hw
  | setctx range pol lo hi wl => obtain rfl := next_of_hostOp hs h; exact issueReaches_of_issue rfl
  | convert c => obtain rfl := next_of_hostOp hs h; exact issueReaches_of_issue rfl
  | getshd sel => obtain rfl := next_of_hostOp hs h; exact issueReaches_of_issue rfl
  | getmode => obtain rfl := next_of_hostOp hs h; exact issueReaches_of_issue rfl
  | getctx => obtain rfl := next_of_hostOp hs h; exact issueReaches_of_issue rfl
  | _ => simp [Instr.isHostOp] at hop

/-! ### The step of an idle block -/

/-- A command word that spells no operation is answered `IllegalCommand` in both forms (R85). -/
theorem serve_error {cw : Word64} {s : State} {e : Reject} (h : decode s.cfg (.host cw) = .error e) (g : Grain) :
    serve g cw s = .settled (.next (raise .illegalCommand s)) := by simp [serve, h]

theorem serve_operation {cw : Word64} {s : State} {i : Instr} (h : decode s.cfg (.host cw) = .ok i) :
    serve .operation cw s = .instr i s := by simp [serve, h]

theorem serve_byte {cw : Word64} {s : State} {i : Instr} (h : decode s.cfg (.host cw) = .ok i) :
    serve .byte cw s = .settled (issue i s) := by simp [serve, h]

theorem step_idle_command {s : State} (hs : s.seq = .idle) {g : Grain} {cw : Word64} {rest : List HostEvent}
    (hh : s.hostIn = .command g cw :: rest) : step s = (serve g cw { s with hostIn := rest }).outcome := by
  rw [step_eq_outcome, fetch, hh, hs]

/-- GETSHD only responds (R118). -/
theorem doGetshd_cases (sel : Sel) (s : State) : ∃ x, doGetshd sel s = respond x s := by
  cases hc : shadowedReg sel with
  | error e => exact ⟨.error e, by simp [doGetshd, hc]⟩
  | ok g => exact ⟨.ok ((readShadow g s).setWidth 64), by simp [doGetshd, hc]⟩

/-- What `issue` does with an operation on an idle block, where it has a next state: it responds, SETCTX after its context
is loaded; it opens a transaction, with the shadow written first where the operation writes one; ENCODE stands with its byte,
and CHIPRST with the block at its defaults. -/
theorem issue_cases {i : Instr} {s u : State} (hw : s.cfg.wf = true) (hi : i.wf = true) (h : issue i s = .next u) :
    (∃ x, u = respond x s) ∨
    (∃ x c, ctxOk s.cfg c = true ∧ u = respond x { s with ctx := c }) ∨
    (∃ d r m, (m = s ∨ ∃ g v, m = writeShadow g v s) ∧ commandOf i = some (d, r) ∧ isEncode i = false ∧
      admitted m i = true ∧ u = openCommand i r 0 m) ∨
    (isEncode i = true ∧ (commandOf i).isSome = true ∧ admitted s i = true ∧ u = enter i .cmd 0 0 s) ∨
    (i = .chiprst ∧ u = enter .chiprst .fill Config.resetCount 0 (busBegin (toDefaults s))) := by
  cases i with
  | encode d sel =>
    cases hv : validReg sel with
    | error e => simp only [issue, hv] at h; cases h; exact .inl ⟨_, rfl⟩
    | ok r =>
      simp only [issue, hv] at h; cases h
      obtain rfl := validReg_ok hv
      exact .inr (.inr (.inr (.inl ⟨rfl, rfl, rfl, rfl⟩)))
  | wrreg sel v =>
    cases hc : checkWrreg sel v with
    | error e => simp only [issue, hc] at h; cases h; exact .inl ⟨_, rfl⟩
    | ok g =>
      simp only [issue, hc] at h; cases h
      obtain ⟨rfl, hf⟩ := checkWrreg_ok hc
      exact .inr (.inr (.inl ⟨.write, g.reg, _, .inr ⟨g, v, rfl⟩, by simp [commandOf], rfl,
        by simp [admitted, hc, readShadow_writeShadow g v s hf], rfl⟩))
  | rdreg sel =>
    cases hc : checkRdreg sel s.ctx with
    | error e => simp only [issue, hc] at h; cases h; exact .inl ⟨_, rfl⟩
    | ok r =>
      simp only [issue, hc] at h; cases h
      obtain rfl := checkRdreg_ok hc
      exact .inr (.inr (.inl ⟨.read, r, s, .inl rfl, rfl, rfl, by simp [admitted, hc, Except.isOk, Except.toBool], rfl⟩))
  | refresh sel =>
    cases hc : shadowedReg sel with
    | error e => simp only [issue, hc] at h; cases h; exact .inl ⟨_, rfl⟩
    | ok g =>
      simp only [issue, hc] at h; cases h
      obtain rfl := (shadowedReg_ok_iff sel g).1 hc
      exact .inr (.inr (.inl ⟨.read, g.reg, s, .inl rfl, by simp [commandOf], rfl,
        by simp [admitted, Except.isOk, Except.toBool], rfl⟩))
  | setfld sel bits mask =>
    cases hc : checkSetfld sel bits mask with
    | error e => simp only [issue, hc] at h; cases h; exact .inl ⟨_, rfl⟩
    | ok g =>
      simp only [issue, hc] at h; cases h
      obtain ⟨rfl, hm, hb⟩ := checkSetfld_ok hc
      refine .inr (.inr (.inl ⟨.write, g.reg, _, .inr ⟨g, _, rfl⟩, by simp [commandOf], rfl, ?_, rfl⟩))
      simp [admitted, hc, readShadow_writeShadow g _ s (fits_merge (fits_readShadow g s) hb), merge_and_mask]
  | setmode m =>
    cases h
    exact .inr (.inr (.inl ⟨.write, .mode, _, .inr ⟨.mode, _, rfl⟩, rfl, rfl,
      by simp [admitted, modeState_setmode hw], rfl⟩))
  | waitrdy n =>
    by_cases hn : n = 0
    · simp only [issue, hn, if_true] at h; cases h; exact .inl ⟨_, rfl⟩
    · simp only [issue, hn, if_false] at h; cases h
      have hlt : n < 2 ^ 32 := by simpa [Instr.wf] using hi
      exact .inr (.inr (.inl ⟨.read, .status, s, .inl rfl, rfl, rfl, by simp [admitted]; omega, rfl⟩))
  | rdstat => cases h; exact .inr (.inr (.inl ⟨.read, .status, s, .inl rfl, rfl, rfl, rfl, rfl⟩))
  | chiprst => cases h; exact .inr (.inr (.inr (.inr ⟨rfl, rfl⟩)))
  | setctx range pol refMinus refPlus wl =>
    cases h
    by_cases hc : contextOk s.cfg range refMinus refPlus = true
    · exact .inr (.inl ⟨.ok 0, ⟨true, wl, pol, range, refMinus, refPlus⟩, by simp [ctxOk, hc], by simp [doSetctx, hc]⟩)
    · exact .inl ⟨.error .invalidContext, by simp [doSetctx, hc]⟩
  | convert c =>
    cases h
    cases hc : checkConvert s.ctx c with
    | error e => exact .inl ⟨.error e, by simp [doConvert, hc]⟩
    | ok _ => exact .inl ⟨.ok (voltagePayload s.cfg s.ctx c), by simp [doConvert, hc]⟩
  | rdvolt =>
    by_cases hv : s.ctx.valid = true
    · simp only [issue, hv, if_true] at h; cases h
      exact .inr (.inr (.inl ⟨.read, .data, s, .inl rfl, rfl, rfl, hv, rfl⟩))
    · simp only [issue, hv] at h; cases h; exact .inl ⟨_, rfl⟩
  | getshd sel =>
    cases h
    exact .inl (doGetshd_cases sel s)
  | getmode => cases h; exact .inl ⟨_, rfl⟩
  | getctx => cases h; exact .inl ⟨_, rfl⟩
  | _ => simp [issue] at h

/-- The bytes of an operation leave the host's events alone. -/
theorem runByte_hostIn_cfg {s t : State} {q : Run} (hs : s.seq = .run q) (hw : s.cfg.wf = true)
    (h : runByte q s = .next t) : t.hostIn = s.hostIn ∧ t.cfg = s.cfg := by
  rcases runByte_cases hs hw h with ⟨-, d, r, -, rfl⟩ | ⟨-, hd⟩ | ⟨-, -, left, -, rfl⟩
  · rcases emitCommand_cases d r q s with ⟨-, he⟩ | ⟨-, -, he⟩ | ⟨-, -, he⟩ <;> simp [he]
  · obtain ⟨b, left, d, r, -, -, ⟨-, rfl⟩ | ⟨-, acc, -, ha⟩⟩ := advanceData_cases hd
    · simp
    · cases left with
      | zero =>
        rcases complete_cases ha with ⟨x, rfl⟩ | ⟨x, g, v, rfl⟩ | ⟨n, -, -, rfl⟩ <;> simp
      | succ n => cases ha; simp
  · rcases sendReset_cases q s left with ⟨-, he⟩ | ⟨-, -, he⟩ | ⟨-, -, he⟩ <;> simp [he]

theorem core_run_succ (M : Host.Core) {s u : M.State} (h : M.step s = .next u) (k : Nat) :
    M.run (k + 1) s = M.run k u := by simp only [Host.Core.run, h]

/-- A step and `k` more are `k + 1` steps. -/
theorem run_succ {s u : State} (h : step s = .next u) (k : Nat) :
    Host.Core.run Sys2Proof.core (k + 1) s = Host.Core.run Sys2Proof.core k u := core_run_succ Sys2Proof.core h k

/-- Under a silent host the steps of an operation in progress are steps of the machine. -/
theorem run_of_byteSteps {s t : State} (h : ByteSteps s t) (hh : s.hostIn = []) (hw : s.cfg.wf = true) :
    ∃ k, Host.Core.run Sys2Proof.core k s = .next t := by
  induction h using Relation.ReflTransGen.head_induction_on with
  | refl => exact ⟨0, rfl⟩
  | @head s u hsu _ ih =>
    obtain ⟨q, hs, hu⟩ := hsu
    obtain ⟨hhost, hcfg⟩ := runByte_hostIn_cfg hs hw hu
    obtain ⟨k, hk⟩ := ih (hhost ▸ hh) (hcfg ▸ hw)
    refine ⟨k + 1, ?_⟩
    rw [run_succ ((step_running hs (.silent hh)).trans hu)]
    exact hk

/-- What `issue` leaves alone. -/
theorem issue_hostIn_cfg {i : Instr} {s u : State} (hw : s.cfg.wf = true) (hi : i.wf = true) (h : issue i s = .next u) :
    u.hostIn = s.hostIn ∧ u.cfg = s.cfg := by
  rcases issue_cases hw hi h with ⟨x, rfl⟩ | ⟨x, c, -, rfl⟩ |
    ⟨d, r, m, rfl | ⟨g, v, rfl⟩, -, -, -, rfl⟩ | ⟨-, -, -, rfl⟩ | ⟨-, rfl⟩ <;> simp

/-- The decoder's operands fit their fields (R83). -/
theorem wf_of_decodeHost {cfg : Cfg} {cw : Word64} {i : Instr} (h : decode cfg (.host cw) = .ok i) : i.wf = true := by
  have hop : ∀ op, (operation cfg.sels op cw).wf = true := by
    intro op
    have hlt := (field cw 0 32).isLt
    unfold operation
    split <;> simp [Instr.wf]
    all_goals simpa using hlt
  simp only [decode, decodeHost] at h
  split at h
  · simp at h
  · split at h
    · cases h; exact hop _
    · simp at h

/-- A command word served on an idle block in either form comes to the same state (R29). -/
theorem serve_agrees {s t : State} {cw : Word64} (hs : s.seq = .idle) (hw : s.cfg.wf = true)
    (h : (serve .operation cw s).outcome = .next t) :
    ∃ u, (serve .byte cw s).outcome = .next u ∧ ByteSteps u t ∧ u.hostIn = s.hostIn ∧ u.cfg = s.cfg := by
  cases hd : decode s.cfg (.host cw) with
  | error e =>
    rw [serve_error hd] at h ⊢
    cases h
    exact ⟨_, rfl, .refl, rfl, rfl⟩
  | ok i =>
    rw [serve_operation hd] at h
    obtain ⟨u, hu, ht⟩ := issueReaches_of_exec hs hw h
    rw [serve_byte hd]
    exact ⟨u, hu, ht, issue_hostIn_cfg hw (wf_of_decodeHost hd) hu⟩

/-- Settles O53: each byte of the byte form does its part of the atomic form. -/
theorem grainsAgree : Obligations.GrainsAgree := by
  unfold Obligations.GrainsAgree
  intro s t cw hs hw h
  have hstep : ∀ g, step { s with hostIn := [.command g cw] } = (serve g cw { s with hostIn := [] }).outcome :=
    fun g => step_idle_command (s := { s with hostIn := [.command g cw] }) hs rfl
  rw [hstep] at h
  obtain ⟨u, hu, ht, hhost, hcfg⟩ := serve_agrees (s := { s with hostIn := [] }) hs hw h
  obtain ⟨k, hk⟩ := run_of_byteSteps ht hhost (hcfg ▸ hw)
  exact ⟨k + 1, (run_succ ((hstep .byte).trans hu) k).trans hk⟩

end Sys2Proof.Machine
end

section
/-! PROOFS. The invariant of the machine: reset, every step, and one transfer a byte (spec/10_state.md R25, R28, R34, R35). -/

namespace Sys2Proof.Machine

/-! ### The invariant in parts -/

/-- The part of the invariant that does not look at the sequencer: a well-formed configuration, the context invariant, and
a bus that stands at `p`. -/
structure BlockOk (p : BusPhase) (s : State) : Prop where
  wf : s.cfg.wf = true
  ctx : ctxOk s.cfg s.ctx = true
  bus : busAfter s.cfg .closed s.trace = some p

/-- The invariant of an idle block. -/
theorem stateOk_idle_iff {s : State} (hs : s.seq = .idle) : StateOk s = true ↔ BlockOk .closed s := by
  simp only [StateOk, hs, busOf, Bool.and_eq_true, beq_iff_eq, and_true]
  exact ⟨fun ⟨⟨hw, hc⟩, hb⟩ => ⟨hw, hc, hb⟩, fun ⟨hw, hc, hb⟩ => ⟨⟨hw, hc⟩, hb⟩⟩

/-- The invariant of an operation in progress. -/
theorem stateOk_run_iff {s : State} {q : Run} (hs : s.seq = .run q) :
    StateOk s = true ↔ BlockOk (busOf (.run q)) s ∧ runOk s q = true ∧ s.response = none := by
  simp only [StateOk, hs, Bool.and_eq_true, beq_iff_eq]
  exact ⟨fun ⟨⟨⟨hw, hc⟩, hr, hn⟩, hb⟩ => ⟨⟨hw, hc, hb⟩, hr, hn⟩, fun ⟨⟨hw, hc, hb⟩, hr, hn⟩ => ⟨⟨⟨hw, hc⟩, hr, hn⟩, hb⟩⟩

theorem stateOk_respond {s : State} (h : BlockOk .closed s) (x : Response) : StateOk (respond x s) = true :=
  (stateOk_idle_iff rfl).2 ⟨h.wf, h.ctx, h.bus⟩

/-- Only the configuration, the context and the bus record matter. -/
theorem BlockOk.congr {p : BusPhase} {s t : State} (h : BlockOk p s) (hcfg : t.cfg = s.cfg) (hctx : t.ctx = s.ctx)
    (htrace : t.trace = s.trace) : BlockOk p t :=
  ⟨hcfg ▸ h.wf, by rw [hcfg, hctx]; exact h.ctx, by rw [hcfg, htrace]; exact h.bus⟩

/-- The block with one more bus event. -/
theorem BlockOk.event {p p' : BusPhase} {s t : State} {e : BusEvent} (h : BlockOk p s) (hcfg : t.cfg = s.cfg)
    (hctx : t.ctx = s.ctx) (htrace : t.trace = s.trace ++ [e]) (hp : p.next s.cfg e = some p') : BlockOk p' t := by
  refine ⟨hcfg ▸ h.wf, by rw [hcfg, hctx]; exact h.ctx, ?_⟩
  rw [hcfg, htrace, busAfter_append, h.bus]
  simp [busAfter, hp]

theorem BlockOk.busBegin {s : State} (h : BlockOk .closed s) : BlockOk .fresh (busBegin s) := h.event rfl rfl rfl rfl

theorem BlockOk.busEnd {p : BusPhase} {s : State} (h : BlockOk p s) (hp : p.next s.cfg .txEnd = some .closed) :
    BlockOk .closed (busEnd s) := h.event rfl rfl rfl hp

theorem BlockOk.xfer_byte {p p' : BusPhase} {s : State} {b : Byte} (h : BlockOk p s) (ha : s.nextAnswer 0 ≠ .fail)
    (hp : ∀ x, p.next s.cfg (.xfer b (.byte x)) = some p') : BlockOk p' (xfer b s) :=
  h.event rfl rfl rfl (by rw [answer_eq_byte ha]; exact hp _)

/-- A failed `Xfer` where one is allowed, then `End`: no transaction is open (R54). -/
theorem BlockOk.abort {p : BusPhase} {s : State} {b : Byte} (h : BlockOk p s) (ha : s.nextAnswer 0 = .fail)
    (hp : p.next s.cfg (.xfer b .fail) = some .failed) : BlockOk .closed (Machine.busEnd (xfer b s)) :=
  (h.event (t := xfer b s) rfl rfl rfl (by rw [answer_eq_fail ha]; exact hp)).busEnd rfl

/-! ### The sequencer's part -/

/-- What the checks of an operation look at: the shadows, the context and the configuration. -/
theorem admitted_congr {s t : State} (op : Instr) (hshadow : ∀ g, readShadow g t = readShadow g s)
    (hmode : t.mode = s.mode) (hctx : t.ctx = s.ctx) (hcfg : t.cfg = s.cfg) : admitted t op = admitted s op := by
  cases op <;> simp only [admitted, hshadow, hmode, hctx, hcfg]

theorem bytesOf_congr {s t : State} (op : Instr) (hctx : t.ctx = s.ctx) : bytesOf t op = bytesOf s op := by
  simp only [bytesOf, hctx]

/-- A bus operation moves the bytes of its register. -/
theorem bytesOf_command {s : State} {op : Instr} {d : Dir} {r : Reg} (hc : commandOf op = some (d, r))
    (he : isEncode op = false) : bytesOf s op = nbytes s.ctx r := by
  have ho : op ≠ .chiprst := by rintro rfl; simp [commandOf] at hc
  simp [bytesOf, ho, he, hc]

/-- An operation that passed its checks stands at no poll made. -/
theorem pollsOk_zero {s : State} {op : Instr} (h : admitted s op = true) (p : Phase) (i : Nat) (acc : Word24) :
    pollsOk ⟨op, p, i, acc, 0⟩ = true := by
  cases op <;> simp_all [pollsOk, admitted]

/-- What `runOk` says of an operation at its command byte. -/
theorem runOk_cmd_iff {s : State} {q : Run} (hp : q.phase = .cmd) :
    runOk s q = true ↔ admitted s q.op = true ∧ pollsOk q = true ∧ (commandOf q.op).isSome = true ∧ q.i = bytesOf s q.op ∧
      q.acc = 0 := by
  simp only [runOk, hp, Bool.and_eq_true, beq_iff_eq, and_assoc]

/-- What `runOk` says of an operation at its data bytes. -/
theorem runOk_data_iff {s : State} {q : Run} (hp : q.phase = .data) :
    runOk s q = true ↔ admitted s q.op = true ∧ pollsOk q = true ∧ (commandOf q.op).isSome = true ∧
      isEncode q.op = false ∧ 1 ≤ q.i ∧ q.i ≤ bytesOf s q.op ∧ q.acc.toNat < 2 ^ (8 * (bytesOf s q.op - q.i)) := by
  simp only [runOk, hp, Bool.and_eq_true, Bool.not_eq_true', decide_eq_true_eq, and_assoc]

/-- What `runOk` says of an operation at its reset bytes. -/
theorem runOk_fill_iff {s : State} {q : Run} (hp : q.phase = .fill) :
    runOk s q = true ↔ admitted s q.op = true ∧ pollsOk q = true ∧ q.op = .chiprst ∧ 1 ≤ q.i ∧ q.i ≤ Config.resetCount ∧
      q.acc = 0 := by
  simp only [runOk, hp, Bool.and_eq_true, beq_iff_eq, decide_eq_true_eq, and_assoc]

/-- A transaction opened for an operation that has passed its checks. -/
theorem stateOk_openCommand {s : State} {op : Instr} {d : Dir} {r : Reg} {polls : Nat} (h : BlockOk .closed s)
    (hc : commandOf op = some (d, r)) (he : isEncode op = false) (ha : admitted s op = true)
    (hp : pollsOk ⟨op, .cmd, nbytes s.ctx r, 0, polls⟩ = true) : StateOk (openCommand op r polls s) = true := by
  have ha' : admitted (openCommand op r polls s) op = true := by
    rw [admitted_congr (s := s) op (by simp) (by simp) (by simp) (by simp)]
    exact ha
  refine (stateOk_run_iff (q := ⟨op, .cmd, nbytes s.ctx r, 0, polls⟩) rfl).2 ⟨?_, (runOk_cmd_iff rfl).2 ?_, rfl⟩
  · simp only [busOf, he]
    exact h.busBegin.congr rfl rfl rfl
  · exact ⟨ha', hp, by simp [hc], (bytesOf_command hc he).symm, rfl⟩

/-- One more byte in the accumulator keeps it in range (R28, R57). -/
theorem shiftIn_lt {acc : Word24} {b : Byte} {k : Nat} (hk : k ≤ 2) (h : acc.toNat < 2 ^ (8 * k)) :
    (shiftIn acc b).toNat < 2 ^ (8 * (k + 1)) := by
  have hb := b.isLt
  have hle : 2 ^ (8 * k) ≤ 2 ^ 16 := Nat.pow_le_pow_right (by decide) (by omega)
  rw [shiftIn_toNat acc b (by omega), Nat.mul_succ, Nat.pow_add]
  omega

/-! ### The bytes at the head of a transaction -/

/-- The command byte of an operation on the bus is one of the ten (R54, R73). -/
theorem sendable_cmdByte {cfg : Cfg} {op : Instr} {d : Dir} {r : Reg} (hc : commandOf op = some (d, r))
    (he : isEncode op = false) : sendable cfg (cmdByte cfg d r) = true := by
  refine List.any_eq_true.2 ⟨r, mem_allRegs r, ?_⟩
  cases d with
  | read => simp
  | write =>
    obtain h | ⟨g, rfl⟩ := commandOf_write hc
    · simp [he] at h
    · simp

/-- A command byte is not the reset byte (R70, R76). -/
theorem cmdByte_ne_resetByte {cfg : Cfg} (hw : cfg.wf = true) (d : Dir) (r : Reg) : cmdByte cfg d r ≠ Config.resetByte :=
  (layoutByte_fields cfg.cmd (Cfg.wf_cmd hw) d.code (r.code cfg.sels)).2.2.2.2

/-! ### The bytes of an operation keep the invariant -/

theorem stateOk_emitCommand {s : State} {q : Run} {d : Dir} {r : Reg} (h : StateOk s = true) (hs : s.seq = .run q)
    (hp : q.phase = .cmd) (hc : commandOf q.op = some (d, r)) : StateOk (emitCommand d r q s) = true := by
  obtain ⟨hblock, hrun, hnone⟩ := (stateOk_run_iff hs).1 h
  obtain ⟨hadm, hpolls, -, hi, hacc⟩ := (runOk_cmd_iff hp).1 hrun
  rcases emitCommand_cases d r q s with ⟨he, ht⟩ | ⟨he, ha, ht⟩ | ⟨he, ha, ht⟩
  · rw [ht]
    exact stateOk_respond (by simpa [busOf, hp, he] using hblock) _
  · have hfresh : BlockOk .fresh s := by simpa [busOf, hp, he] using hblock
    have hbytes : bytesOf s q.op = nbytes s.ctx r := bytesOf_command hc he
    rw [ht]
    refine (stateOk_run_iff (q := { q with phase := .data }) rfl).2
      ⟨?_, (runOk_data_iff rfl).2 ⟨?_, hpolls, ?_, he, ?_, ?_, ?_⟩, hnone⟩
    · exact (hfresh.xfer_byte (p' := .inside) ha fun x => by
        simp [BusPhase.next, sendable_cmdByte hc he, cmdByte_ne_resetByte hfresh.wf]).congr rfl rfl rfl
    · exact hadm
    · simp [hc]
    · have := nbytes_pos s.ctx r
      simp only; omega
    · exact hi.le
    · simp [hacc]
  · have hfresh : BlockOk .fresh s := by simpa [busOf, hp, he] using hblock
    rw [ht]
    exact stateOk_respond (hfresh.abort ha (by simp [BusPhase.next, sendable_cmdByte hc he])) _

theorem stateOk_complete {s t : State} {q : Run} (h : BlockOk .closed s) (ha : admitted s q.op = true)
    (ht : complete q s = .next t) : StateOk t = true := by
  rcases complete_cases ht with ⟨x, rfl⟩ | ⟨x, g, v, rfl⟩ | ⟨n, hop, hlt, rfl⟩
  · exact stateOk_respond h x
  · exact stateOk_respond (h.congr (by simp) (by simp) (by simp)) x
  · rw [hop] at ha ⊢
    exact stateOk_openCommand (d := .read) h rfl rfl ha (by simp [pollsOk, hlt])

theorem stateOk_advanceData {s t : State} {q : Run} (h : StateOk s = true) (hs : s.seq = .run q) (hp : q.phase = .data)
    (ht : advanceData q s = .next t) : StateOk t = true := by
  obtain ⟨hblock, hrun, hnone⟩ := (stateOk_run_iff hs).1 h
  obtain ⟨hadm, hpolls, hsome, he, hpos, hle, hacc⟩ := (runOk_data_iff hp).1 hrun
  have hin : BlockOk .inside s := by simpa [busOf, hp] using hblock
  obtain ⟨b, left, d, r, hi, hc, ⟨ha, rfl⟩ | ⟨ha, acc, hacc', hnext⟩⟩ := advanceData_cases ht
  · exact stateOk_respond (hin.abort ha rfl) _
  · have hin' : BlockOk .inside (xfer b s) := hin.xfer_byte ha fun x => rfl
    cases left with
    | zero => exact stateOk_complete (q := { q with acc := acc, i := 0 }) (hin'.busEnd rfl) hadm hnext
    | succ n =>
      cases hnext
      have hb3 : bytesOf s q.op ≤ 3 := by rw [bytesOf_command hc he]; exact nbytes_le _ _
      refine (stateOk_run_iff (q := { q with acc := acc, i := n + 1 }) rfl).2
        ⟨?_, (runOk_data_iff (q := { q with acc := acc, i := n + 1 }) hp).2 ⟨hadm, hpolls, hsome, he, ?_, ?_, ?_⟩, hnone⟩
      · simp only [busOf, hp]
        exact hin'.congr rfl rfl rfl
      · simp
      · show n + 1 ≤ bytesOf s q.op
        omega
      · show acc.toNat < 2 ^ (8 * (bytesOf s q.op - (n + 1)))
        have hk : bytesOf s q.op - (n + 1) = bytesOf s q.op - q.i + 1 := by omega
        rw [hk]
        rcases hacc' with rfl | rfl
        · exact hacc.trans_le (Nat.pow_le_pow_right (by decide) (by omega))
        · exact shiftIn_lt (by omega) hacc

theorem stateOk_sendReset {s : State} {q : Run} {left : Nat} (h : StateOk s = true) (hs : s.seq = .run q)
    (hp : q.phase = .fill) (hi : q.i = left + 1) : StateOk (sendReset q left s) = true := by
  obtain ⟨hblock, hrun, hnone⟩ := (stateOk_run_iff hs).1 h
  obtain ⟨hadm, hpolls, hop, hpos, hle, hacc⟩ := (runOk_fill_iff hp).1 hrun
  have hcount : Config.resetCount = 4 := rfl
  have hnext : ∀ a, (busOf (.run q)).next s.cfg (.xfer Config.resetByte a) =
      some (match a with | .byte _ => .filling (Config.resetCount - left) | .fail => .failed) := by
    intro a
    have hbyte : ∀ k, k < 4 → BusPhase.next s.cfg (.filling k) (.xfer Config.resetByte a) =
        some (match a with | .byte _ => .filling (k + 1) | .fail => .failed) := by
      intro k hk
      cases a <;> simp [BusPhase.next, hcount, hk]
    by_cases hl : left = 3
    · subst hl
      cases a <;> simp [busOf, hp, hi, hcount, BusPhase.next]
    · simp only [busOf, hp, hi, hcount]
      rw [if_neg (by omega), hbyte _ (by omega), show 4 - (left + 1) + 1 = 4 - left by omega]
  rcases sendReset_cases q s left with ⟨ha, ht⟩ | ⟨ha, hl, ht⟩ | ⟨ha, hl, ht⟩
  · rw [ht]
    exact stateOk_respond (hblock.abort ha (hnext _)) _
  · rw [ht]
    exact stateOk_respond ((hblock.xfer_byte ha fun x => hnext _).busEnd (by simp [BusPhase.next, hl])) _
  · rw [ht]
    refine (stateOk_run_iff (q := { q with i := left }) rfl).2
      ⟨?_, (runOk_fill_iff (q := { q with i := left }) hp).2 ⟨hadm, hpolls, hop, hl, ?_, hacc⟩, hnone⟩
    · have hbus : busOf (.run { q with i := left }) = .filling (Config.resetCount - left) := by
        simp only [busOf, hp]
        rw [if_neg (by omega)]
      rw [hbus]
      exact (hblock.xfer_byte ha fun x => hnext _).congr rfl rfl rfl
    · show left ≤ Config.resetCount
      omega

/-! ### One transfer a byte -/

/-- The command byte makes one `Xfer`; ENCODE's makes none (log 7). -/
theorem xfers_emitCommand (d : Dir) (r : Reg) (q : Run) (s : State) :
    (emitCommand d r q s).xfers = s.xfers + (if isEncode q.op then 0 else 1) := by
  rcases emitCommand_cases d r q s with ⟨he, ht⟩ | ⟨he, -, ht⟩ | ⟨he, -, ht⟩ <;> simp [ht, he]

theorem xfers_complete {q : Run} {s t : State} (h : complete q s = .next t) : t.xfers = s.xfers := by
  rcases complete_cases h with ⟨x, rfl⟩ | ⟨x, g, v, rfl⟩ | ⟨n, -, -, rfl⟩ <;> simp

/-- A data byte makes one `Xfer`. -/
theorem xfers_advanceData {q : Run} {s t : State} (h : advanceData q s = .next t) : t.xfers = s.xfers + 1 := by
  obtain ⟨b, left, d, r, -, -, ⟨-, rfl⟩ | ⟨-, acc, -, hnext⟩⟩ := advanceData_cases h
  · rfl
  · cases left with
    | zero => exact xfers_complete hnext
    | succ n => cases hnext; rfl

/-- A reset byte makes one `Xfer`. -/
theorem xfers_sendReset (q : Run) (left : Nat) (s : State) : (sendReset q left s).xfers = s.xfers + 1 := by
  rcases sendReset_cases q s left with ⟨-, ht⟩ | ⟨-, -, ht⟩ | ⟨-, -, ht⟩ <;> rw [ht] <;> rfl

/-- Every byte of an operation in progress keeps the invariant. -/
theorem stateOk_byteStep {s t : State} (h : StateOk s = true) (hst : ByteStep s t) : StateOk t = true := by
  obtain ⟨q, hs, ht⟩ := hst
  obtain ⟨hblock, -, -⟩ := (stateOk_run_iff hs).1 h
  rcases runByte_cases hs hblock.wf ht with ⟨hp, d, r, hc, rfl⟩ | ⟨hp, hd⟩ | ⟨hp, -, left, hi, rfl⟩
  · exact stateOk_emitCommand h hs hp hc
  · exact stateOk_advanceData h hs hp hd
  · exact stateOk_sendReset h hs hp hi

theorem stateOk_byteSteps {s t : State} (h : StateOk s = true) (hst : ByteSteps s t) : StateOk t = true := by
  induction hst with
  | refl => exact h
  | tail _ hstep ih => exact stateOk_byteStep ih hstep

/-! ### Issuing an operation keeps the invariant -/

theorem stateOk_issue {i : Instr} {s t : State} (h : BlockOk .closed s) (hi : i.wf = true) (ht : issue i s = .next t) :
    StateOk t = true := by
  rcases issue_cases h.wf hi ht with ⟨x, rfl⟩ | ⟨x, c, hc, rfl⟩ | ⟨d, r, m, hm, hc, he, ha, rfl⟩ | ⟨he, hc, ha, rfl⟩ |
    ⟨rfl, rfl⟩
  · exact stateOk_respond h x
  · exact stateOk_respond (s := { s with ctx := c }) ⟨h.wf, hc, h.bus⟩ x
  · have hblock : BlockOk .closed m := by
      rcases hm with rfl | ⟨g, v, rfl⟩
      · exact h
      · exact h.congr (by simp) (by simp) (by simp)
    exact stateOk_openCommand hblock hc he ha (pollsOk_zero ha _ _ _)
  · refine (stateOk_run_iff (q := ⟨i, .cmd, 0, 0, 0⟩) rfl).2
      ⟨?_, (runOk_cmd_iff rfl).2 ⟨?_, pollsOk_zero ha _ _ _, hc, ?_, rfl⟩, rfl⟩
    · simp only [busOf, he]
      exact h.congr rfl rfl rfl
    · rw [admitted_congr (s := s) i (by simp) (by simp) (by simp) (by simp)]
      exact ha
    · have ho : i ≠ .chiprst := by rintro rfl; simp [isEncode] at he
      simp [bytesOf, ho, he]
  · have hblock : BlockOk .closed (toDefaults s) := ⟨h.wf, by simp [ctxOk], h.bus⟩
    exact (stateOk_run_iff (q := ⟨.chiprst, .fill, Config.resetCount, 0, 0⟩) rfl).2
      ⟨hblock.busBegin.congr rfl rfl rfl, (runOk_fill_iff rfl).2 (by simp [admitted, pollsOk, Config.resetCount]), rfl⟩

/-- A command word served on an idle block, in either form: the atomic form goes where the byte form does. -/
theorem stateOk_serve {s t : State} {cw : Word64} {g : Grain} (hs : s.seq = .idle) (h : BlockOk .closed s)
    (ht : (serve g cw s).outcome = .next t) : StateOk t = true := by
  have hbyte : ∀ u, (serve .byte cw s).outcome = .next u → StateOk u = true := by
    intro u hu
    cases hd : decode s.cfg (.host cw) with
    | error e =>
      rw [serve_error hd] at hu
      cases hu
      exact stateOk_respond h _
    | ok i =>
      rw [serve_byte hd] at hu
      exact stateOk_issue h (wf_of_decodeHost hd) hu
  cases g with
  | byte => exact hbyte t ht
  | operation =>
    obtain ⟨u, hu, hut, -, -⟩ := serve_agrees hs h.wf ht
    exact stateOk_byteSteps (hbyte u hu) hut

/-- What a step of an idle block can do: block reset, no change but to the host's events, or a command word served. -/
theorem step_idle_cases {s t : State} (hs : s.seq = .idle) (h : step s = .next t) :
    (∃ rest, t = blockReset { s with hostIn := rest }) ∨ (∃ rest, t = { s with hostIn := rest }) ∨
    (∃ g cw rest, (serve g cw { s with hostIn := rest }).outcome = .next t) := by
  rcases hh : s.hostIn with _ | ⟨e, rest⟩
  · rw [step_eq_outcome, fetch, hh, hs] at h
    cases h
    exact .inr (.inl ⟨s.hostIn, rfl⟩)
  · cases e with
    | reset => rw [step_eq_outcome, fetch, hh] at h; cases h; exact .inl ⟨rest, rfl⟩
    | quiet => rw [step_eq_outcome, fetch, hh, hs] at h; cases h; exact .inr (.inl ⟨rest, hs ▸ rfl⟩)
    | command g cw => exact .inr (.inr ⟨g, cw, rest, step_idle_command hs hh ▸ h⟩)
    | intrude cw =>
      rw [step_eq_outcome, fetch, hh, hs] at h
      exact .inr (.inr ⟨.operation, cw, rest, hs ▸ h⟩)

/-- What a step of an operation in progress can do: block reset, or the next byte. -/
theorem step_running_cases {s t : State} {q : Run} (hs : s.seq = .run q) (h : step s = .next t) :
    (∃ rest, t = blockReset { s with hostIn := rest }) ∨ (∃ rest, ByteStep { s with hostIn := rest } t) := by
  have hbyte : ∀ rest, HostWaits s { s with hostIn := rest } → ByteStep { s with hostIn := rest } t :=
    fun rest hu => ⟨q, hs, (step_running hs hu).symm.trans h⟩
  rcases hh : s.hostIn with _ | ⟨e, rest⟩
  · exact .inr ⟨s.hostIn, hbyte _ (.silent hh)⟩
  · cases e with
    | reset => rw [step_eq_outcome, fetch, hh] at h; cases h; exact .inl ⟨rest, rfl⟩
    | quiet => exact .inr ⟨rest, hbyte _ (.quiet rest hh)⟩
    | command g cw => exact .inr ⟨s.hostIn, hbyte _ (.command g cw rest hh)⟩
    | intrude cw => rw [step_eq_outcome, fetch, hh, hs] at h; cases h

/-- The invariant does not look at the host's events. -/
theorem stateOk_withHostIn {s : State} (h : StateOk s = true) (rest : List HostEvent) :
    StateOk { s with hostIn := rest } = true := h

/-- Block reset brings the invariant about, whatever the block was doing (R35; spec/70_reset_and_hazards.md R210). -/
theorem stateOk_blockReset {s : State} (hw : s.cfg.wf = true) : StateOk (blockReset s) = true :=
  (stateOk_idle_iff rfl).2 ⟨hw, rfl, rfl⟩

theorem wf_of_stateOk {s : State} (h : StateOk s = true) : s.cfg.wf = true := by
  simp only [StateOk, Bool.and_eq_true] at h
  tauto

/-- Settles O51: block reset, a served command word and each byte keep the invariant. -/
theorem stepKeepsInvariant : Obligations.StepKeepsInvariant := by
  unfold Obligations.StepKeepsInvariant
  intro s t h ht
  have hreset : ∀ rest, StateOk (blockReset { s with hostIn := rest }) = true :=
    fun rest => stateOk_blockReset (s := { s with hostIn := rest }) (wf_of_stateOk h)
  cases hs : s.seq with
  | idle =>
    rcases step_idle_cases hs ht with ⟨rest, rfl⟩ | ⟨rest, rfl⟩ | ⟨g, cw, rest, hserve⟩
    · exact hreset rest
    · exact stateOk_withHostIn h rest
    · have hblock := (stateOk_idle_iff (s := { s with hostIn := rest }) hs).1 (stateOk_withHostIn h rest)
      exact stateOk_serve (s := { s with hostIn := rest }) hs hblock hserve
  | run q =>
    rcases step_running_cases hs ht with ⟨rest, rfl⟩ | ⟨rest, hbyte⟩
    · exact hreset rest
    · exact stateOk_byteStep (stateOk_withHostIn h rest) hbyte

/-- Settles O50: both reset states are idle, with no context and an empty bus record. -/
theorem resetMeetsInvariant : Obligations.ResetMeetsInvariant := by
  have h : ∀ cfg : Cfg, cfg.wf = true → StateOk (State.resetWith cfg) = true :=
    fun cfg hw => (stateOk_idle_iff rfl).2 ⟨hw, rfl, rfl⟩
  exact ⟨h Cfg.default (by decide), h⟩

/-- Settles O54: outside ENCODE the step of an operation in progress is one byte on the bus, in every phase. -/
theorem oneXferPerStep : Obligations.OneXferPerStep := by
  unfold Obligations.OneXferPerStep
  intro s t q h hs hh ht
  obtain ⟨hblock, hrun, -⟩ := (stateOk_run_iff hs).1 h
  rw [step_running hs (.silent hh)] at ht
  refine ⟨?_, (runByte_hostIn_cfg hs hblock.wf ht).1.trans hh⟩
  rcases runByte_cases hs hblock.wf ht with ⟨-, d, r, -, rfl⟩ | ⟨hp, hd⟩ | ⟨-, hop, left, -, rfl⟩
  · exact xfers_emitCommand d r q s
  · obtain ⟨-, -, -, he, -⟩ := (runOk_data_iff hp).1 hrun
    rw [he, xfers_advanceData hd]
    rfl
  · rw [hop, xfers_sendReset]
    rfl

end Sys2Proof.Machine
end

section
/-! PROOFS. Wire bytes as steps, and who writes a shadow and the context (spec/10_state.md R23, R25, R28). -/

namespace Sys2Proof.Machine

/-- Settles O10: the wire decoder reads the due byte, and what it reads runs. -/
theorem stepRunsWireByte : Obligations.StepRunsWireByte := by
  unfold Obligations.StepRunsWireByte
  intro s t q rest hs hhost
  obtain ⟨hwaits, hcfg⟩ : HostWaits s t ∧ t.cfg = s.cfg := by
    rcases hhost with ⟨hh, rfl⟩ | ⟨hh, rfl⟩ | ⟨⟨g, cw, hh⟩, rfl⟩
    · exact ⟨.silent hh, rfl⟩
    · exact ⟨.quiet rest hh, rfl⟩
    · exact ⟨.command g cw rest hh, rfl⟩
  rw [step_running hs hwaits, ← hcfg]
  refine ⟨fun d r i hp hc hd => ?_, fun i hp ho hi hd => ?_⟩
  · simp [runByte, nextByte, hp, hc, serveWire, hd]
  · have hd' : decode t.cfg (.wire Config.resetByte) = .ok i := hd
    simp [runByte, nextByte, hp, ho, hi, serveWire, hd']

/-! ### What the shared operations leave alone -/

/-- Whatever the bus answers, `storeRegister` writes the shadow, makes one transaction and responds. -/
theorem storeRegister_cases (g : ShadowReg) (v : Word24) (payload : Word64) (s : State) :
    ∃ x bytes, storeRegister g v payload s = respond x ((writeShadow g v s).afterTransaction bytes) := by
  simp only [storeRegister]
  rcases memWrite_cases g.reg (nbytes (writeShadow g v s).ctx g.reg) (readShadow g (writeShadow g v s))
    (writeShadow g v s) with ⟨-, h⟩ | ⟨k, -, -, h⟩ <;> rw [h]
  · exact ⟨_, _, rfl⟩
  · exact ⟨_, _, rfl⟩

theorem ctx_storeRegister (g : ShadowReg) (v : Word24) (payload : Word64) (s : State) :
    (storeRegister g v payload s).ctx = s.ctx := by
  obtain ⟨x, bytes, h⟩ := storeRegister_cases g v payload s
  simp [h]

theorem readShadow_storeRegister_ne {g g' : ShadowReg} (h : g ≠ g') (v : Word24) (payload : Word64) (s : State) :
    readShadow g' (storeRegister g v payload s) = readShadow g' s := by
  obtain ⟨x, bytes, hx⟩ := storeRegister_cases g v payload s
  simp [hx, readShadow_writeShadow_ne g g' v s h]

theorem ctx_loadRegister (r : Reg) {k : Word24 → State → State} (hk : ∀ acc u, (k acc u).ctx = u.ctx) (s : State) :
    (loadRegister r k s).ctx = s.ctx := by
  rcases loadRegister_cases r k s with ⟨-, h⟩ | ⟨j, -, -, h⟩ <;> simp [h, hk]

theorem ctx_loadRegister_reply (r : Reg) (payload : Word24 → State → Word64) (s : State) :
    (loadRegister r (fun acc t => reply (payload acc t) t) s).ctx = s.ctx :=
  ctx_loadRegister r (k := fun acc t => reply (payload acc t) t) (fun _ _ => rfl) s

theorem ctx_pollLoop (left polls : Nat) (s : State) : (pollLoop left polls s).ctx = s.ctx := by
  induction left generalizing polls s with
  | zero => rfl
  | succ left ih =>
    refine ctx_loadRegister .status (fun acc u => ?_) s
    split
    · rfl
    · exact ih _ u

/-- REFRESH of one register leaves the shadows of the others alone. -/
theorem readShadow_loadRegister_writeShadow_ne {g g' : ShadowReg} (h : g ≠ g') (r : Reg) (s : State) :
    readShadow g' (loadRegister r (fun acc t => reply (acc.setWidth 64) (writeShadow g acc t)) s) = readShadow g' s := by
  rcases loadRegister_cases r (fun acc t => reply (acc.setWidth 64) (writeShadow g acc t)) s with ⟨-, ht⟩ | ⟨j, -, -, ht⟩
  · rw [ht]
    simp [readShadow_writeShadow_ne g g' _ _ h]
  · rw [ht]
    simp

/-! ### The operations that are blind to the shadows -/

/-- The state with other shadows. -/
def State.withShadows (m : Word16) (f o : Word24) (g : Word16) (s : State) : State :=
  { s with mode := m, filter := f, offset := o, gain := g }

section
variable (m : Word16) (f o : Word24) (g : Word16)

@[simp] theorem withShadows_cfg (s : State) : (s.withShadows m f o g).cfg = s.cfg := rfl
@[simp] theorem withShadows_ctx (s : State) : (s.withShadows m f o g).ctx = s.ctx := rfl
@[simp] theorem withShadows_xfers (s : State) : (s.withShadows m f o g).xfers = s.xfers := rfl
@[simp] theorem answer_withShadows (s : State) (n : Nat) : (s.withShadows m f o g).answer n = s.answer n := rfl
@[simp] theorem respond_withShadows (x : Response) (s : State) :
    respond x (s.withShadows m f o g) = (respond x s).withShadows m f o g := rfl
@[simp] theorem busBegin_withShadows (s : State) :
    busBegin (s.withShadows m f o g) = (busBegin s).withShadows m f o g := rfl
@[simp] theorem busEnd_withShadows (s : State) : busEnd (s.withShadows m f o g) = (busEnd s).withShadows m f o g := rfl
@[simp] theorem xfer_withShadows (b : Byte) (s : State) :
    xfer b (s.withShadows m f o g) = (xfer b s).withShadows m f o g := rfl

/-- Receiving bytes is blind to the shadows. -/
theorem receiveBytes_withShadows (n : Nat) (acc : Word24) (s : State) :
    receiveBytes n acc (s.withShadows m f o g) =
      ((receiveBytes n acc s).1, (receiveBytes n acc s).2.withShadows m f o g) := by
  induction n generalizing acc s with
  | zero => rfl
  | succ n ih =>
    cases ha : s.answer s.xfers with
    | byte x =>
      rw [receiveBytes_succ_byte ha, receiveBytes_succ_byte (s := s.withShadows m f o g) ha, xfer_withShadows, ih]
    | fail => rw [receiveBytes_succ_fail ha, receiveBytes_succ_fail (s := s.withShadows m f o g) ha, xfer_withShadows]

/-- A register read is blind to the shadows, if what follows it is. -/
theorem loadRegister_withShadows (r : Reg) {k : Word24 → State → State}
    (hk : ∀ acc u, k acc (u.withShadows m f o g) = (k acc u).withShadows m f o g) (s : State) :
    loadRegister r k (s.withShadows m f o g) = (loadRegister r k s).withShadows m f o g := by
  have hread : memRead r (nbytes s.ctx r) (s.withShadows m f o g) =
      ((memRead r (nbytes s.ctx r) s).1, (memRead r (nbytes s.ctx r) s).2.withShadows m f o g) := by
    cases ha : (busBegin s).answer (busBegin s).xfers with
    | byte x => simp only [memRead, busBegin_withShadows, withShadows_cfg, withShadows_xfers, answer_withShadows, ha,
        xfer_withShadows, receiveBytes_withShadows, busEnd_withShadows]
    | fail => simp only [memRead, busBegin_withShadows, withShadows_cfg, withShadows_xfers, answer_withShadows, ha,
        xfer_withShadows, busEnd_withShadows]
  simp only [loadRegister, withShadows_ctx, hread]
  cases (memRead r (nbytes s.ctx r) s).1 with
  | some acc => exact hk acc _
  | none => rfl

/-- A register read whose value is answered is blind to the shadows. -/
theorem loadRegister_reply_withShadows (r : Reg) (payload : Word24 → Cfg → Ctx → Word64) (s : State) :
    loadRegister r (fun acc t => reply (payload acc t.cfg t.ctx) t) (s.withShadows m f o g) =
      (loadRegister r (fun acc t => reply (payload acc t.cfg t.ctx) t) s).withShadows m f o g :=
  loadRegister_withShadows m f o g r (k := fun acc t => reply (payload acc t.cfg t.ctx) t) (fun _ _ => rfl) s

theorem pollLoop_withShadows (left polls : Nat) (s : State) :
    pollLoop left polls (s.withShadows m f o g) = (pollLoop left polls s).withShadows m f o g := by
  induction left generalizing polls s with
  | zero => rfl
  | succ left ih =>
    refine loadRegister_withShadows m f o g .status (fun acc u => ?_) s
    by_cases hr : ready u.cfg (acc.setWidth 8) = true
    · simp [hr]
    · simp [hr, ih]

theorem doEncode_withShadows (d : Dir) (sel : Sel) (s : State) :
    doEncode d sel (s.withShadows m f o g) = (doEncode d sel s).withShadows m f o g := by
  cases hv : validReg sel <;> simp [doEncode, hv]

theorem doRdreg_withShadows (sel : Sel) (s : State) :
    doRdreg sel (s.withShadows m f o g) = (doRdreg sel s).withShadows m f o g := by
  cases hc : checkRdreg sel s.ctx with
  | error e => simp [doRdreg, hc]
  | ok r =>
    simp only [doRdreg, withShadows_ctx, hc]
    exact loadRegister_reply_withShadows m f o g r (fun acc _ _ => acc.setWidth 64) s

theorem doRdvolt_withShadows (s : State) : doRdvolt (s.withShadows m f o g) = (doRdvolt s).withShadows m f o g := by
  by_cases hv : s.ctx.valid = true
  · simp only [doRdvolt, withShadows_ctx, hv, if_true]
    exact loadRegister_reply_withShadows m f o g .data (fun acc cfg x => voltagePayload cfg x acc.toNat) s
  · simp [doRdvolt, hv]

theorem doConvert_withShadows (c : Nat) (s : State) :
    doConvert c (s.withShadows m f o g) = (doConvert c s).withShadows m f o g := by
  cases hc : checkConvert s.ctx c <;> simp [doConvert, hc]

theorem doSetctx_withShadows (range : Word16) (pol : Polarity) (refMinus refPlus : Word16) (wl : WordLength) (s : State) :
    doSetctx range pol refMinus refPlus wl (s.withShadows m f o g) =
      (doSetctx range pol refMinus refPlus wl s).withShadows m f o g := by
  by_cases hc : contextOk s.cfg range refMinus refPlus = true
  · simp only [doSetctx, withShadows_cfg, hc, if_true]
    rfl
  · simp [doSetctx, hc]

end

/-- What an operation that commutes with a change of the shadows does to them: nothing, and it cannot tell (R23). -/
theorem shadowBlind_of_commutes {body : State → State} {s t : State} (hs : s.seq = .idle)
    (hbody : ∀ m f o g, body (s.withShadows m f o g) = (body s).withShadows m f o g) (h : hostOp body s = .next t)
    (m : Word16) (f o : Word24) (g : Word16) :
    t.mode = s.mode ∧ t.filter = s.filter ∧ t.offset = s.offset ∧ t.gain = s.gain ∧
      hostOp body { s with mode := m, filter := f, offset := o, gain := g } =
        .next { t with mode := m, filter := f, offset := o, gain := g } := by
  obtain rfl := next_of_hostOp hs h
  have hself : body s = (body s).withShadows s.mode s.filter s.offset s.gain := hbody s.mode s.filter s.offset s.gain
  refine ⟨congrArg (fun u => u.mode) hself, congrArg (fun u => u.filter) hself, congrArg (fun u => u.offset) hself,
    congrArg (fun u => u.gain) hself, ?_⟩
  exact (hostOp_idle body (s.withShadows m f o g) hs).trans (congrArg Host.Outcome.next (hbody m f o g))

/-- Settles O57: each of the operations commutes with a change of the shadows. -/
theorem shadowBlindOperations : Obligations.ShadowBlindOperations := by
  unfold Obligations.ShadowBlindOperations
  intro i s t m f o g hs hi h
  cases i with
  | rdreg sel => exact shadowBlind_of_commutes hs (fun m f o g => doRdreg_withShadows m f o g sel s) h m f o g
  | rdstat =>
    exact shadowBlind_of_commutes hs (fun m f o g =>
      loadRegister_reply_withShadows m f o g .status (fun acc cfg _ => statusPayload cfg (acc.setWidth 8)) s) h m f o g
  | waitrdy n => exact shadowBlind_of_commutes hs (fun m f o g => pollLoop_withShadows m f o g n 0 s) h m f o g
  | rdvolt => exact shadowBlind_of_commutes hs (fun m f o g => doRdvolt_withShadows m f o g s) h m f o g
  | convert c => exact shadowBlind_of_commutes hs (fun m f o g => doConvert_withShadows m f o g c s) h m f o g
  | encode d sel => exact shadowBlind_of_commutes hs (fun m f o g => doEncode_withShadows m f o g d sel s) h m f o g
  | setctx range pol refMinus refPlus wl =>
    exact shadowBlind_of_commutes hs
      (fun m f o g => doSetctx_withShadows m f o g range pol refMinus refPlus wl s) h m f o g
  | getctx => exact shadowBlind_of_commutes hs (fun m f o g => rfl) h m f o g
  | _ => exact hi.elim

/-! ### Who writes a shadow, and who the context -/

/-- WRREG refuses, or stores the register it names. -/
theorem doWrreg_cases (sel : Sel) (v : Word24) (s : State) :
    (∃ e, doWrreg sel v s = respond (.error e) s) ∨
    ∃ g : ShadowReg, sel = .reg g.reg ∧ doWrreg sel v s = storeRegister g v 0 s := by
  cases hc : checkWrreg sel v with
  | error e => exact .inl ⟨e, by simp [doWrreg, hc]⟩
  | ok g => exact .inr ⟨g, (checkWrreg_ok hc).1, by simp only [doWrreg, hc]⟩

/-- SETFLD refuses, or stores the register it names. -/
theorem doSetfld_cases (sel : Sel) (bits mask : Word24) (s : State) :
    (∃ e, doSetfld sel bits mask s = respond (.error e) s) ∨
    ∃ g : ShadowReg, sel = .reg g.reg ∧ ∃ v payload, doSetfld sel bits mask s = storeRegister g v payload s := by
  cases hc : checkSetfld sel bits mask with
  | error e => exact .inl ⟨e, by simp [doSetfld, hc]⟩
  | ok g =>
    refine .inr ⟨g, (checkSetfld_ok hc).1, merge (readShadow g s) bits mask,
      (merge (readShadow g s) bits mask).setWidth 64, ?_⟩
    simp only [doSetfld, hc, updateField]

/-- REFRESH refuses, or loads the register it names into its shadow. -/
theorem doRefresh_cases (sel : Sel) (s : State) :
    (∃ e, doRefresh sel s = respond (.error e) s) ∨
    ∃ g : ShadowReg, sel = .reg g.reg ∧
      doRefresh sel s = loadRegister g.reg (fun acc t => reply (acc.setWidth 64) (writeShadow g acc t)) s := by
  cases hc : shadowedReg sel with
  | error e => exact .inl ⟨e, by simp [doRefresh, hc]⟩
  | ok g => exact .inr ⟨g, (shadowedReg_ok_iff sel g).1 hc, by simp only [doRefresh, hc]⟩

theorem readShadow_congr {s t : State} (h : t.mode = s.mode ∧ t.filter = s.filter ∧ t.offset = s.offset ∧ t.gain = s.gain)
    (g : ShadowReg) : readShadow g t = readShadow g s := by
  obtain ⟨hm, hf, ho, hg⟩ := h
  cases g <;> simp only [readShadow, hm, hf, ho, hg]

/-- Settles O56: every instruction but the listed writers leaves the shadow as it was. -/
theorem shadowWriters : Obligations.ShadowWriters := by
  unfold Obligations.ShadowWriters
  intro g i s t hs h hne
  have hop := isHostOp_of_exec_idle hs h
  have hblind := fun hi => shadowBlindOperations i s t s.mode s.filter s.offset s.gain hs hi h
  cases i with
  | wrreg sel v =>
    obtain rfl := next_of_hostOp hs h
    rcases doWrreg_cases sel v s with ⟨e, he⟩ | ⟨g', rfl, hstore⟩
    · simp [he] at hne
    · by_cases hg : g' = g
      · exact .inl ⟨v, by rw [hg]⟩
      · exact absurd (hstore ▸ readShadow_storeRegister_ne hg v 0 s) hne
  | setfld sel bits mask =>
    obtain rfl := next_of_hostOp hs h
    rcases doSetfld_cases sel bits mask s with ⟨e, he⟩ | ⟨g', rfl, v, payload, hstore⟩
    · simp [he] at hne
    · by_cases hg : g' = g
      · exact .inr (.inl ⟨bits, mask, by rw [hg]⟩)
      · exact absurd (hstore ▸ readShadow_storeRegister_ne hg v payload s) hne
  | refresh sel =>
    obtain rfl := next_of_hostOp hs h
    rcases doRefresh_cases sel s with ⟨e, he⟩ | ⟨g', rfl, hload⟩
    · simp [he] at hne
    · by_cases hg : g' = g
      · exact .inr (.inr (.inl (by rw [hg])))
      · exact absurd (hload ▸ readShadow_loadRegister_writeShadow_ne hg g'.reg s) hne
  | setmode m =>
    obtain rfl := next_of_hostOp hs h
    by_cases hg : ShadowReg.mode = g
    · exact .inr (.inr (.inr (.inl ⟨hg.symm, m, rfl⟩)))
    · exact absurd (readShadow_storeRegister_ne hg _ _ s) hne
  | chiprst => exact .inr (.inr (.inr (.inr rfl)))
  | getshd sel =>
    obtain rfl := next_of_hostOp hs h
    obtain ⟨x, hx⟩ := doGetshd_cases sel s
    simp [hx] at hne
  | getmode =>
    obtain rfl := next_of_hostOp hs h
    simp [doGetmode] at hne
  | rdreg _ | rdstat | waitrdy _ | rdvolt | convert _ | encode _ _ | setctx _ _ _ _ _ | getctx =>
    obtain ⟨hm, hf, ho, hg, -⟩ := hblind trivial
    exact absurd (readShadow_congr ⟨hm, hf, ho, hg⟩ g) hne
  | _ => simp [Instr.isHostOp] at hop

/-- Every operation on an idle block but SETCTX and CHIPRST leaves the context as it was (R25). -/
theorem ctx_of_exec {i : Instr} {s t : State} (hs : s.seq = .idle) (h : exec i s = .next t) :
    t.ctx = s.ctx ∨ i = .chiprst ∨ ∃ r p a b w, i = .setctx r p a b w := by
  have hop := isHostOp_of_exec_idle hs h
  cases i with
  | encode d sel =>
    obtain rfl := next_of_hostOp hs h
    left; cases hv : validReg sel <;> simp [doEncode, hv]
  | wrreg sel v =>
    obtain rfl := next_of_hostOp hs h
    left
    rcases doWrreg_cases sel v s with ⟨e, he⟩ | ⟨g, -, hstore⟩
    · simp [he]
    · rw [hstore, ctx_storeRegister]
  | setfld sel bits mask =>
    obtain rfl := next_of_hostOp hs h
    left
    rcases doSetfld_cases sel bits mask s with ⟨e, he⟩ | ⟨g, -, v, payload, hstore⟩
    · simp [he]
    · rw [hstore, ctx_storeRegister]
  | setmode m =>
    obtain rfl := next_of_hostOp hs h
    exact .inl (ctx_storeRegister _ _ _ _)
  | rdreg sel =>
    obtain rfl := next_of_hostOp hs h
    left
    cases hc : checkRdreg sel s.ctx with
    | error e => simp [doRdreg, hc]
    | ok r => simp only [doRdreg, hc]; exact ctx_loadRegister_reply r _ s
  | refresh sel =>
    obtain rfl := next_of_hostOp hs h
    left
    rcases doRefresh_cases sel s with ⟨e, he⟩ | ⟨g, -, hload⟩
    · simp [he]
    · rw [hload]; exact ctx_loadRegister g.reg (by simp) s
  | waitrdy n => obtain rfl := next_of_hostOp hs h; exact .inl (ctx_pollLoop n 0 s)
  | rdstat => obtain rfl := next_of_hostOp hs h; exact .inl (ctx_loadRegister_reply .status _ s)
  | rdvolt =>
    obtain rfl := next_of_hostOp hs h
    left
    by_cases hv : s.ctx.valid = true
    · simp only [doRdvolt, hv, if_true]; exact ctx_loadRegister_reply .data _ s
    · simp [doRdvolt, hv]
  | convert c =>
    obtain rfl := next_of_hostOp hs h
    left; cases hc : checkConvert s.ctx c <;> simp [doConvert, hc]
  | getshd sel =>
    obtain rfl := next_of_hostOp hs h
    obtain ⟨x, hx⟩ := doGetshd_cases sel s
    simp [hx]
  | getmode => obtain rfl := next_of_hostOp hs h; exact .inl rfl
  | getctx => obtain rfl := next_of_hostOp hs h; exact .inl rfl
  | chiprst => exact .inr (.inl rfl)
  | setctx range pol refMinus refPlus wl => exact .inr (.inr ⟨_, _, _, _, _, rfl⟩)
  | _ => simp [Instr.isHostOp] at hop

/-- CHIPRST leaves no context loaded (R116). -/
theorem valid_doChiprst (s : State) : (doChiprst s).ctx.valid = false := by
  rcases allAnswered_or_failsAt (toDefaults s) Config.resetCount with h | ⟨k, hk, h⟩
  · simp [doChiprst, sendFramed_all (List.replicate Config.resetCount Config.resetByte) _ h]
  · simp [doChiprst, sendFramed_fails (List.replicate Config.resetCount Config.resetByte) _ k hk h]

/-- Settles O58: only SETCTX and CHIPRST touch the context, and CHIPRST leaves none loaded. -/
theorem contextWriters : Obligations.ContextWriters := by
  unfold Obligations.ContextWriters
  intro i s t hs h
  refine ⟨fun hne => (ctx_of_exec hs h).resolve_left hne, fun hnot hvalid => ?_⟩
  rcases ctx_of_exec hs h with hsame | rfl | hset
  · simp [hsame, hnot] at hvalid
  · obtain rfl := next_of_hostOp hs h
    simp [valid_doChiprst] at hvalid
  · exact hset

end Sys2Proof.Machine
end

section
/-! PROOFS. The order of the bus events, and the configuration no step changes (spec/20_memory.md R62). -/

namespace Sys2Proof.Machine

/-! ### Growth of the bus record -/

/-- The state `t` comes after `s` in the one order of the bus events (R62): under the same configuration and environment,
its bus record begins with that of `s`. -/
structure BusGrows (s t : State) : Prop where
  cfg : t.cfg = s.cfg
  answers : t.answers = s.answers
  xfers : s.xfers ≤ t.xfers
  trace : s.trace <+: t.trace

theorem BusGrows.refl (s : State) : BusGrows s s := ⟨rfl, rfl, le_rfl, List.prefix_rfl⟩

theorem BusGrows.trans {s t u : State} (h : BusGrows s t) (h' : BusGrows t u) : BusGrows s u :=
  ⟨h'.cfg.trans h.cfg, h'.answers.trans h.answers, h.xfers.trans h'.xfers, h.trace.trans h'.trace⟩

/-- Only the configuration, the environment and the bus record matter. -/
theorem BusGrows.congr {s t u : State} (h : BusGrows s t) (hcfg : u.cfg = t.cfg) (hanswers : u.answers = t.answers)
    (hxfers : u.xfers = t.xfers) (htrace : u.trace = t.trace) : BusGrows s u :=
  h.trans ⟨hcfg, hanswers, hxfers.ge, htrace ▸ List.prefix_rfl⟩

section
variable {s t : State} (h : BusGrows s t)
include h

theorem BusGrows.respond (x : Response) : BusGrows s (respond x t) := h.congr rfl rfl rfl rfl
theorem BusGrows.enter (op : Instr) (p : Phase) (i polls : Nat) : BusGrows s (enter op p i polls t) :=
  h.congr rfl rfl rfl rfl
theorem BusGrows.toDefaults : BusGrows s (toDefaults t) := h.congr rfl rfl rfl rfl
theorem BusGrows.withSeq (q : Seq) : BusGrows s { t with seq := q } := h.congr rfl rfl rfl rfl
theorem BusGrows.withHostIn (es : List HostEvent) : BusGrows s { t with hostIn := es } := h.congr rfl rfl rfl rfl
theorem BusGrows.withCtx (x : Ctx) : BusGrows s { t with ctx := x } := h.congr rfl rfl rfl rfl
theorem BusGrows.writeShadow (g : ShadowReg) (v : Word24) : BusGrows s (writeShadow g v t) :=
  h.congr (by simp) (by simp) (by simp) (by simp)

theorem BusGrows.busBegin : BusGrows s (busBegin t) := h.trans ⟨rfl, rfl, le_rfl, List.prefix_append _ _⟩
theorem BusGrows.busEnd : BusGrows s (busEnd t) := h.trans ⟨rfl, rfl, le_rfl, List.prefix_append _ _⟩
theorem BusGrows.xfer (b : Byte) : BusGrows s (xfer b t) :=
  h.trans ⟨rfl, rfl, Nat.le_succ _, List.prefix_append _ _⟩
theorem BusGrows.afterTransaction (bytes : List Byte) : BusGrows s (t.afterTransaction bytes) :=
  h.trans ⟨rfl, rfl, Nat.le_add_right _ _, List.prefix_append _ _⟩
theorem BusGrows.openCommand (op : Instr) (r : Reg) (polls : Nat) : BusGrows s (openCommand op r polls t) :=
  h.busBegin.enter op .cmd _ polls

end

/-! ### The operations as one transition -/

theorem busGrows_storeRegister (g : ShadowReg) (v : Word24) (payload : Word64) (s : State) :
    BusGrows s (storeRegister g v payload s) := by
  obtain ⟨x, bytes, hx⟩ := storeRegister_cases g v payload s
  rw [hx]
  exact (((BusGrows.refl s).writeShadow g v).afterTransaction bytes).respond x

theorem busGrows_loadRegister (r : Reg) {k : Word24 → State → State} (hk : ∀ acc u, BusGrows u (k acc u)) (s : State) :
    BusGrows s (loadRegister r k s) := by
  rcases loadRegister_cases r k s with ⟨-, h⟩ | ⟨j, -, -, h⟩ <;> rw [h]
  · exact ((BusGrows.refl s).afterTransaction _).trans (hk _ _)
  · exact ((BusGrows.refl s).afterTransaction _).respond _

theorem busGrows_loadRegister_reply (r : Reg) (payload : Word24 → State → Word64) (s : State) :
    BusGrows s (loadRegister r (fun acc t => reply (payload acc t) t) s) :=
  busGrows_loadRegister r (k := fun acc t => reply (payload acc t) t) (fun _ u => (BusGrows.refl u).respond _) s

theorem busGrows_pollLoop (left polls : Nat) (s : State) : BusGrows s (pollLoop left polls s) := by
  induction left generalizing polls s with
  | zero => exact (BusGrows.refl s).respond _
  | succ left ih =>
    refine busGrows_loadRegister .status (fun acc u => ?_) s
    split
    · exact (BusGrows.refl u).respond _
    · exact ih _ u

theorem busGrows_doEncode (d : Dir) (sel : Sel) (s : State) : BusGrows s (doEncode d sel s) := by
  cases hv : validReg sel <;> simp only [doEncode, hv] <;> exact (BusGrows.refl s).respond _

theorem busGrows_doWrreg (sel : Sel) (v : Word24) (s : State) : BusGrows s (doWrreg sel v s) := by
  rcases doWrreg_cases sel v s with ⟨e, he⟩ | ⟨g, -, hstore⟩
  · rw [he]; exact (BusGrows.refl s).respond _
  · rw [hstore]; exact busGrows_storeRegister g v 0 s

theorem busGrows_doSetfld (sel : Sel) (bits mask : Word24) (s : State) : BusGrows s (doSetfld sel bits mask s) := by
  rcases doSetfld_cases sel bits mask s with ⟨e, he⟩ | ⟨g, -, v, payload, hstore⟩
  · rw [he]; exact (BusGrows.refl s).respond _
  · rw [hstore]; exact busGrows_storeRegister g v payload s

theorem busGrows_doRdreg (sel : Sel) (s : State) : BusGrows s (doRdreg sel s) := by
  cases hc : checkRdreg sel s.ctx with
  | error e => simp only [doRdreg, hc]; exact (BusGrows.refl s).respond _
  | ok r => simp only [doRdreg, hc]; exact busGrows_loadRegister_reply r _ s

theorem busGrows_doRefresh (sel : Sel) (s : State) : BusGrows s (doRefresh sel s) := by
  rcases doRefresh_cases sel s with ⟨e, he⟩ | ⟨g, -, hload⟩
  · rw [he]; exact (BusGrows.refl s).respond _
  · rw [hload]
    exact busGrows_loadRegister g.reg (fun acc u => ((BusGrows.refl u).writeShadow g acc).respond _) s

theorem busGrows_doRdvolt (s : State) : BusGrows s (doRdvolt s) := by
  unfold doRdvolt
  split
  · exact busGrows_loadRegister_reply .data _ s
  · exact (BusGrows.refl s).respond _

theorem busGrows_doConvert (c : Nat) (s : State) : BusGrows s (doConvert c s) := by
  cases hc : checkConvert s.ctx c <;> simp only [doConvert, hc] <;> exact (BusGrows.refl s).respond _

theorem busGrows_doSetctx (range : Word16) (pol : Polarity) (refMinus refPlus : Word16) (wl : WordLength) (s : State) :
    BusGrows s (doSetctx range pol refMinus refPlus wl s) := by
  unfold doSetctx
  split
  · exact ((BusGrows.refl s).withCtx _).respond _
  · exact (BusGrows.refl s).respond _

theorem busGrows_doGetshd (sel : Sel) (s : State) : BusGrows s (doGetshd sel s) := by
  obtain ⟨x, hx⟩ := doGetshd_cases sel s
  rw [hx]
  exact (BusGrows.refl s).respond x

/-- Whatever the bus answers, CHIPRST goes to its defaults, makes one transaction and responds (R116). -/
theorem doChiprst_cases (s : State) : ∃ x bytes, doChiprst s = respond x ((toDefaults s).afterTransaction bytes) := by
  rcases allAnswered_or_failsAt (toDefaults s) Config.resetCount with h | ⟨k, hk, h⟩
  · exact ⟨.ok 0, _, by
      simp only [doChiprst, sendFramed_all (List.replicate Config.resetCount Config.resetByte) _ h]; rfl⟩
  · exact ⟨.error .busError, _, by
      simp only [doChiprst, sendFramed_fails (List.replicate Config.resetCount Config.resetByte) _ k hk h]; rfl⟩

theorem busGrows_doChiprst (s : State) : BusGrows s (doChiprst s) := by
  obtain ⟨x, bytes, hx⟩ := doChiprst_cases s
  rw [hx]
  exact ((BusGrows.refl s).toDefaults.afterTransaction bytes).respond x

/-- A host operation that has a next state is its body's. -/
theorem busGrows_hostOp {body : State → State} {s t : State} (hbody : BusGrows s (body s))
    (h : hostOp body s = .next t) : BusGrows s t := by
  rcases hostOp_cases body s with ⟨-, hn⟩ | ⟨-, hr⟩
  · rw [hn] at h; cases h; exact hbody
  · rw [hr] at h; cases h

/-! ### The bytes of an operation -/

theorem busGrows_emitCommand (d : Dir) (r : Reg) (q : Run) (s : State) : BusGrows s (emitCommand d r q s) := by
  rcases emitCommand_cases d r q s with ⟨-, h⟩ | ⟨-, -, h⟩ | ⟨-, -, h⟩ <;> rw [h]
  · exact (BusGrows.refl s).respond _
  · exact ((BusGrows.refl s).xfer _).withSeq _
  · exact ((BusGrows.refl s).xfer _).busEnd.respond _

theorem busGrows_sendReset (q : Run) (left : Nat) (s : State) : BusGrows s (sendReset q left s) := by
  have hx := (BusGrows.refl s).xfer Config.resetByte
  rcases sendReset_cases q s left with ⟨-, h⟩ | ⟨-, -, h⟩ | ⟨-, -, h⟩ <;> rw [h]
  · exact hx.busEnd.respond _
  · exact hx.busEnd.respond _
  · exact hx.withSeq _

theorem busGrows_complete {q : Run} {s t : State} (h : complete q s = .next t) : BusGrows s t := by
  rcases complete_cases h with ⟨x, rfl⟩ | ⟨x, g, v, rfl⟩ | ⟨n, -, -, rfl⟩
  · exact (BusGrows.refl s).respond x
  · exact ((BusGrows.refl s).writeShadow g v).respond x
  · exact (BusGrows.refl s).openCommand _ _ _

theorem busGrows_advanceData {q : Run} {s t : State} (h : advanceData q s = .next t) : BusGrows s t := by
  obtain ⟨b, left, d, r, -, -, ⟨-, rfl⟩ | ⟨-, acc, -, hnext⟩⟩ := advanceData_cases h
  · exact ((BusGrows.refl s).xfer b).busEnd.respond _
  · cases left with
    | zero => exact ((BusGrows.refl s).xfer b).busEnd.trans (busGrows_complete hnext)
    | succ n => cases hnext; exact ((BusGrows.refl s).xfer b).withSeq _

/-- A command byte that is sent is emitted for the operation in progress. -/
theorem sendCommand_next {d : Dir} {r : Reg} {s t : State} (h : sendCommand d r s = .next t) :
    ∃ q, t = emitCommand d r q s := by
  cases hs : s.seq with
  | idle => simp [sendCommand, hs] at h
  | run q =>
    simp only [sendCommand, hs] at h
    split at h
    · cases h; exact ⟨q, rfl⟩
    · cases h

/-- A reset byte that is sent is one of the operation in progress. -/
theorem execResetByte_next {s t : State} (h : execResetByte s = .next t) : ∃ q left, t = sendReset q left s := by
  cases hs : s.seq with
  | idle => simp [execResetByte, hs] at h
  | run q =>
    simp only [execResetByte, hs] at h
    split at h
    · cases hi : q.i with
      | zero => simp [emitReset, hi] at h
      | succ left => simp only [emitReset, hi] at h; cases h; exact ⟨q, left, rfl⟩
    · cases h

/-! ### Every instruction and every step -/

/-- No instruction changes the configuration or takes a bus event back, whatever the configuration and on whatever block. -/
theorem busGrows_exec {i : Instr} {s t : State} (h : exec i s = .next t) : BusGrows s t := by
  rcases instr_cases i with hop | ⟨d, r, rfl⟩ | rfl
  · cases i with
    | encode d sel => exact busGrows_hostOp (busGrows_doEncode d sel s) h
    | wrreg sel v => exact busGrows_hostOp (busGrows_doWrreg sel v s) h
    | rdreg sel => exact busGrows_hostOp (busGrows_doRdreg sel s) h
    | refresh sel => exact busGrows_hostOp (busGrows_doRefresh sel s) h
    | setfld sel bits mask => exact busGrows_hostOp (busGrows_doSetfld sel bits mask s) h
    | setmode m => exact busGrows_hostOp (body := doSetmode m) (busGrows_storeRegister .mode _ _ s) h
    | waitrdy n => exact busGrows_hostOp (body := doWaitrdy n) (busGrows_pollLoop n 0 s) h
    | rdstat => exact busGrows_hostOp (body := doRdstat) (busGrows_loadRegister_reply .status _ s) h
    | chiprst => exact busGrows_hostOp (busGrows_doChiprst s) h
    | setctx range pol refMinus refPlus wl =>
      exact busGrows_hostOp (busGrows_doSetctx range pol refMinus refPlus wl s) h
    | convert c => exact busGrows_hostOp (busGrows_doConvert c s) h
    | rdvolt => exact busGrows_hostOp (busGrows_doRdvolt s) h
    | getshd sel => exact busGrows_hostOp (busGrows_doGetshd sel s) h
    | getmode => exact busGrows_hostOp (body := doGetmode) ((BusGrows.refl s).respond _) h
    | getctx => exact busGrows_hostOp (body := doGetctx) ((BusGrows.refl s).respond _) h
    | _ => simp [Instr.isHostOp] at hop
  · obtain ⟨q, rfl⟩ := sendCommand_next (exec_ofCommand d r s ▸ h)
    exact busGrows_emitCommand d r q s
  · obtain ⟨q, left, rfl⟩ := execResetByte_next h
    exact busGrows_sendReset q left s

/-- Issuing an operation, for the byte form of R29, takes no bus event back. -/
theorem busGrows_issue {i : Instr} {s t : State} (h : issue i s = .next t) : BusGrows s t := by
  have hs := BusGrows.refl s
  cases i with
  | encode d sel =>
    cases hv : validReg sel <;> simp only [issue, hv] at h <;> cases h
    · exact hs.respond _
    · exact hs.enter _ _ _ _
  | wrreg sel v =>
    cases hc : checkWrreg sel v <;> simp only [issue, hc] at h <;> cases h
    · exact hs.respond _
    · exact (hs.writeShadow _ _).openCommand _ _ _
  | rdreg sel =>
    cases hc : checkRdreg sel s.ctx <;> simp only [issue, hc] at h <;> cases h
    · exact hs.respond _
    · exact hs.openCommand _ _ _
  | refresh sel =>
    cases hc : shadowedReg sel <;> simp only [issue, hc] at h <;> cases h
    · exact hs.respond _
    · exact hs.openCommand _ _ _
  | setfld sel bits mask =>
    cases hc : checkSetfld sel bits mask <;> simp only [issue, hc] at h <;> cases h
    · exact hs.respond _
    · exact (hs.writeShadow _ _).openCommand _ _ _
  | setmode m => cases h; exact (hs.writeShadow _ _).openCommand _ _ _
  | waitrdy n =>
    simp only [issue] at h
    split at h <;> cases h
    · exact hs.respond _
    · exact hs.openCommand _ _ _
  | rdstat => cases h; exact hs.openCommand _ _ _
  | chiprst => cases h; exact hs.toDefaults.busBegin.enter _ _ _ _
  | setctx range pol refMinus refPlus wl => cases h; exact busGrows_doSetctx range pol refMinus refPlus wl s
  | convert c => cases h; exact busGrows_doConvert c s
  | rdvolt =>
    simp only [issue] at h
    split at h <;> cases h
    · exact hs.openCommand _ _ _
    · exact hs.respond _
  | getshd sel => cases h; exact busGrows_doGetshd sel s
  | getmode => cases h; exact hs.respond _
  | getctx => cases h; exact hs.respond _
  | _ => simp [issue] at h

theorem busGrows_serve {g : Grain} {cw : Word64} {s t : State} (h : (serve g cw s).outcome = .next t) : BusGrows s t := by
  cases hd : decode s.cfg (.host cw) with
  | error e => rw [serve_error hd] at h; cases h; exact (BusGrows.refl s).respond _
  | ok i =>
    cases g with
    | operation => rw [serve_operation hd] at h; exact busGrows_exec h
    | byte => rw [serve_byte hd] at h; exact busGrows_issue h

/-- A wire byte runs as whatever instruction it decodes to. Outside `Cfg.wf` that need not be the one meant. -/
theorem busGrows_serveWire {b : Byte} {s t : State} (h : (serveWire b s).outcome = .next t) : BusGrows s t := by
  cases hd : decode s.cfg (.wire b) with
  | error e => simp [serveWire, hd] at h
  | ok i => simp only [serveWire, hd] at h; exact busGrows_exec h

theorem busGrows_runByte {q : Run} {s t : State} (h : runByte q s = .next t) : BusGrows s t := by
  cases hp : q.phase with
  | cmd =>
    cases hc : commandOf q.op with
    | none => simp [runByte, nextByte, hp, hc] at h
    | some c => simp only [runByte, nextByte, hp, hc] at h; exact busGrows_serveWire h
  | data => exact busGrows_advanceData (runByte_data hp ▸ h)
  | fill =>
    simp only [runByte, nextByte, hp] at h
    split at h
    · exact busGrows_serveWire h
    · cases h

/-- A host that waits has at most used up an event. -/
theorem BusGrows.of_hostWaits {s t : State} (h : HostWaits s t) : BusGrows s t := by
  cases h with
  | silent => exact .refl s
  | quiet rest => exact (BusGrows.refl s).withHostIn rest
  | command => exact .refl s

/-- `rst` acts at once, whatever the block is doing (spec/70_reset_and_hazards.md R210). -/
theorem step_reset {s : State} {rest : List HostEvent} (hh : s.hostIn = .reset :: rest) :
    step s = .next (blockReset { s with hostIn := rest }) := by
  rw [step_eq_outcome, fetch, hh, Fetched.outcome_settled]

theorem step_idle_quiet {s : State} {rest : List HostEvent} (hs : s.seq = .idle) (hh : s.hostIn = .quiet :: rest) :
    step s = .next { s with hostIn := rest } := by
  rw [step_eq_outcome, fetch, hh, hs, Fetched.outcome_settled]

theorem step_idle_intrude {s : State} {cw : Word64} {rest : List HostEvent} (hs : s.seq = .idle)
    (hh : s.hostIn = .intrude cw :: rest) : step s = (serve .operation cw { s with hostIn := rest }).outcome := by
  rw [step_eq_outcome, fetch, hh, hs]

/-- Every step but a block reset only appends to the bus record (R62). -/
theorem busGrows_step {s t : State} (hr : ∀ rest, s.hostIn ≠ .reset :: rest) (h : step s = .next t) : BusGrows s t := by
  have hs := BusGrows.refl s
  cases hseq : s.seq with
  | idle =>
    rcases hh : s.hostIn with _ | ⟨e, rest⟩
    · rw [step_eq_outcome, fetch, hh, hseq] at h; cases h; exact hs
    · cases e with
      | reset => exact absurd hh (hr rest)
      | quiet => rw [step_idle_quiet hseq hh] at h; cases h; exact hs.withHostIn rest
      | command g cw => rw [step_idle_command hseq hh] at h; exact (hs.withHostIn rest).trans (busGrows_serve h)
      | intrude cw => rw [step_idle_intrude hseq hh] at h; exact (hs.withHostIn rest).trans (busGrows_serve h)
  | run q =>
    have hbyte : ∀ u, HostWaits s u → BusGrows s t := fun u hu =>
      (BusGrows.of_hostWaits hu).trans (busGrows_runByte ((step_running hseq hu).symm.trans h))
    rcases hh : s.hostIn with _ | ⟨e, rest⟩
    · exact hbyte _ (.silent hh)
    · cases e with
      | reset => exact absurd hh (hr rest)
      | quiet => exact hbyte _ (.quiet rest hh)
      | command g cw => exact hbyte _ (.command g cw rest hh)
      | intrude cw => rw [step_eq_outcome, fetch, hh, hseq] at h; cases h

/-- Settles O55: a block reset keeps the configuration and the environment, and every other step grows the bus record. -/
theorem traceOnlyGrows : Obligations.TraceOnlyGrows := by
  unfold Obligations.TraceOnlyGrows
  intro s t h
  by_cases hr : ∃ rest, s.hostIn = .reset :: rest
  · obtain ⟨rest, hh⟩ := hr
    rw [step_reset hh] at h
    cases h
    exact ⟨rfl, rfl, le_rfl, fun hne => absurd hh (hne rest)⟩
  · obtain ⟨hcfg, hanswers, hxfers, evs, htrace⟩ := busGrows_step (not_exists.1 hr) h
    exact ⟨hcfg, hanswers, hxfers, fun _ => ⟨evs, htrace.symm⟩⟩

end Sys2Proof.Machine
end

section
/-! PROOFS. The two encodings are inverse to one another (spec/30_encoding.md R71 to R86). -/

namespace Sys2Proof

/-! ### Operand codes are read back to themselves (R83) -/

@[simp] theorem Dir.code_ofCode (b : BitVec 1) : (Dir.ofCode b).code = b := by revert b; decide
@[simp] theorem ModeState.ordinal_ofOrdinal (b : BitVec 3) : (ModeState.ofOrdinal b).ordinal = b := by revert b; decide
@[simp] theorem WordLength.code_ofCode (b : BitVec 1) : (WordLength.ofCode b).code = b := by revert b; decide
@[simp] theorem Polarity.code_ofCode (b : BitVec 1) : (Polarity.ofCode b).code = b := by revert b; decide

end Sys2Proof

namespace Sys2Proof.Machine

/-! ### The fields of a command word -/

/-- Below the opcode a command word holds its operands (R81). -/
theorem field_operands (op : BitVec 4) {n : Nat} (v : BitVec n) {lo len : Nat} (h : lo + len ≤ 60) :
    field (op ++ v.setWidth 60) lo len = v.extractLsb' lo len :=
  (BitVec.extractLsb'_append_eq_of_add_le h).trans (BitVec.extractLsb'_setWidth_of_le h)

/-- Two neighbouring fields of a command word are one field (R81). -/
theorem field_append (cw : Word64) {lo hi a b : Nat} (h : hi = lo + b) :
    field cw hi a ++ field cw lo b = field cw lo (a + b) :=
  BitVec.extractLsb'_append_extractLsb'_eq_extractLsb' h

/-- The bits below the opcode are the operands, if the must-be-zero bits are zero (R85). -/
theorem setWidth_field {cw : Word64} {n : Nat} (hn : n ≤ 60) (hz : field cw n (60 - n) = 0) :
    (field cw 0 n).setWidth 60 = field cw 0 60 := by
  have hlt : (field cw 0 n).toNat < 2 ^ 60 :=
    Nat.lt_of_lt_of_le (field cw 0 n).isLt (Nat.pow_le_pow_right (by decide) hn)
  have hparts := congrArg BitVec.toNat (field_append cw (lo := 0) (a := 60 - n) (Nat.zero_add n).symm)
  rw [hz, toNat_concat, Nat.sub_add_cancel hn] at hparts
  apply BitVec.eq_of_toNat_eq
  rw [BitVec.toNat_setWidth, Nat.mod_eq_of_lt hlt]
  simpa using hparts

/-- A command word is its opcode over its operands, if its must-be-zero bits are zero (R81, R85). -/
theorem hostWord_fields {cw : Word64} {n : Nat} (hn : n ≤ 60) (hz : field cw n (60 - n) = 0) :
    hostWord (field cw 60 4) (field cw 0 n) = .host cw := by
  rw [hostWord, setWidth_field hn hz]
  exact congrArg Code.host ((field_append cw rfl).trans BitVec.extractLsb'_eq_self)

/-! ### Decoding what was encoded -/

/-- Decoding the command word of a host operation gives the operation back (R81, R82, R83). The widths of concatenated
operands stay sums, so that the lemmas about fields apply. -/
theorem decode_encode_hostOp {cfg : Cfg} (h : cfg.sels.toList.Nodup) {i : Instr} (hi : i.wf = true)
    (hh : i.isHostOp = true) : decode cfg (encode cfg i) = .ok i := by
  have hsel := Sel.ofCode_code h
  cases i with
  | encode | wrreg | rdreg | refresh | setfld | setmode | setctx | getshd =>
    rw [encode, decode_hostWord cfg _ _ (by decide) rfl]
    simp (disch := decide) [operation, field_operands, hsel, BitVec.extractLsb'_append_eq_of_le,
      BitVec.extractLsb'_append_eq_of_add_le, -Nat.reduceAdd]
  | waitrdy n | convert n =>
    have hn : n < 2 ^ 32 := by simpa [Instr.wf] using hi
    rw [encode, decode_hostWord cfg _ _ (by decide) rfl]
    simpa (disch := decide) [operation, field_operands] using hn
  | rdstat | chiprst | rdvolt | getmode | getctx => exact decode_hostWord cfg _ 0 (by decide) rfl
  | _ => cases hh

/-- A wire instruction is encoded as the command byte of its direction and register (R71, R73). -/
@[simp] theorem encode_ofCommand (cfg : Cfg) (d : Dir) (r : Reg) :
    encode cfg (Instr.ofCommand d r) = .wire (cmdByte cfg d r) := by cases d <;> cases r <;> rfl

/-- Settles O1: a host operation is read back field by field, a wire instruction by the fields of its byte. -/
theorem decodeOfEncode : Obligations.DecodeOfEncode := by
  unfold Obligations.DecodeOfEncode
  intro cfg i hcfg hi
  rcases instr_cases i with hh | ⟨d, r, rfl⟩ | rfl
  · exact decode_encode_hostOp (Cfg.wf_sels hcfg) hi hh
  · rw [encode_ofCommand]; exact decodeWire_cmdByte hcfg d r
  · exact decodeWire_resetByte cfg

/-! ### Encoding what was decoded -/

/-- An opcode is the four bits of its number. -/
theorem opcode_eq {op : BitVec 4} {k : Nat} (h : op.toNat = k) : op = BitVec.ofNat 4 k := by
  rw [← h, BitVec.ofNat_toNat, BitVec.setWidth_eq]

/-- Encoding the operation of an opcode puts its operand fields back where they were read (R82, R83): neighbouring fields
are joined, in the order of each format. -/
theorem encode_operation {cfg : Cfg} (h : cfg.sels.toList.Nodup) {op : BitVec 4} {n : Nat} (hop : operandBits op = some n)
    (cw : Word64) : n ≤ 60 ∧ encode cfg (operation cfg.sels op cw) = hostWord op (field cw 0 n) := by
  have hsel := Sel.code_ofCode h
  unfold operandBits at hop
  split at hop
  all_goals
    rename_i ho
    cases hop
  all_goals
    obtain rfl := opcode_eq ho
    refine ⟨by decide, ?_⟩
    simp (disch := decide) [operation, encode, hsel, field_append, BitVec.of_length_zero, -Nat.reduceAdd]

/-- What a command word must be to be read, and what it is read as (R82, R85). -/
theorem decodeHost_ok {cfg : Cfg} {cw : Word64} {i : Instr} (h : decode cfg (.host cw) = .ok i) :
    ∃ n, operandBits (field cw 60 4) = some n ∧ field cw n (60 - n) = 0 ∧ i = operation cfg.sels (field cw 60 4) cw := by
  simp only [decode, decodeHost] at h
  split at h
  · cases h
  · rename_i n hop
    split at h
    · rename_i hz
      cases h
      exact ⟨n, hop, hz, rfl⟩
    · cases h

/-- A byte with WEN = 0, equal RW bits, no bit outside the fields and a register's code is that register's command byte
(R71, R77). -/
theorem eq_cmdByte_of_fields {cfg : Cfg} (hcfg : cfg.wf = true) {b : Byte} {r : Reg} (hwen : wireWen cfg.cmd b = false)
    (hzero : b &&& ~~~fieldBits cfg.cmd = 0) (hrw : wireRw cfg.cmd b ≠ 0b00 → wireRw cfg.cmd b = 0b11)
    (hr : Sel.ofCode cfg.sels (wireRs cfg.cmd b) = .reg r) :
    b = cmdByte cfg (if wireRw cfg.cmd b = 0b11 then .read else .write) r := by
  obtain ⟨hwrite, hread⟩ := eq_layoutByte cfg.cmd (Cfg.wf_cmd hcfg) b hwen hzero
  have hcode : r.code cfg.sels = wireRs cfg.cmd b := by
    rw [← Sel.code_ofCode (Cfg.wf_sels hcfg) (wireRs cfg.cmd b), hr, Sel.code]
  rw [cmdByte_eq, hcode]
  by_cases hrd : wireRw cfg.cmd b = 0b11
  · rw [if_pos hrd]; exact hread hrd
  · rw [if_neg hrd]; exact hwrite (by_contra fun hne => hrd (hrw hne))

/-- The bytes the wire decoder reads, and what it reads them as (R73 to R76). -/
theorem decodeWire_ok_iff {cfg : Cfg} (hcfg : cfg.wf = true) {b : Byte} {i : Instr} :
    decode cfg (.wire b) = .ok i ↔
      (b = Config.resetByte ∧ i = .resetByte) ∨ ∃ d r, b = cmdByte cfg d r ∧ i = Instr.ofCommand d r := by
  constructor
  · intro h
    simp only [decode, decodeWire] at h
    split at h
    next hb => cases h; exact .inl ⟨hb, rfl⟩
    next =>
      split at h
      next => cases h
      next hfields =>
        simp only [Bool.or_eq_true, Bool.and_eq_true, bne_iff_ne, not_or, not_and, not_not, Bool.not_eq_true] at hfields
        obtain ⟨⟨hwen, hzero⟩, hrw⟩ := hfields
        split at h
        next r hr => cases h; exact .inr ⟨_, r, eq_cmdByte_of_fields hcfg hwen hzero hrw hr, rfl⟩
        next => cases h
        next => cases h
  · rintro (⟨rfl, rfl⟩ | ⟨d, r, rfl, rfl⟩)
    · exact decodeWire_resetByte cfg
    · exact decodeWire_cmdByte hcfg d r

/-- The bytes the wire decoder reads: the reset byte and the command bytes (R73 to R76). -/
theorem exists_decodeWire_iff {cfg : Cfg} (hcfg : cfg.wf = true) (b : Byte) :
    (∃ i, decode cfg (.wire b) = .ok i) ↔ b = Config.resetByte ∨ ∃ d r, b = cmdByte cfg d r := by
  simp only [decodeWire_ok_iff hcfg]
  constructor
  · rintro ⟨i, ⟨hb, -⟩ | ⟨d, r, hb, -⟩⟩
    · exact .inl hb
    · exact .inr ⟨d, r, hb⟩
  · rintro (hb | ⟨d, r, hb⟩)
    · exact ⟨_, .inl ⟨hb, rfl⟩⟩
    · exact ⟨_, .inr ⟨d, r, hb, rfl⟩⟩

/-- A wire instruction has no operand to fit (R73). -/
@[simp] theorem wf_ofCommand (d : Dir) (r : Reg) : (Instr.ofCommand d r).wf = true := by cases d <;> cases r <;> rfl

/-- Settles O2: the operand fields of a command word are put back together below its opcode, and a byte is the command
byte of its fields. -/
theorem encodeOfDecode : Obligations.EncodeOfDecode := by
  unfold Obligations.EncodeOfDecode
  intro cfg c i hcfg h
  cases c with
  | host cw =>
    refine ⟨wf_of_decodeHost h, ?_⟩
    obtain ⟨n, hop, hz, rfl⟩ := decodeHost_ok h
    obtain ⟨hn, hcw⟩ := encode_operation (Cfg.wf_sels hcfg) hop cw
    rw [hcw, hostWord_fields hn hz]
  | wire b =>
    rcases (decodeWire_ok_iff hcfg).1 h with ⟨rfl, rfl⟩ | ⟨d, r, rfl, rfl⟩
    · exact ⟨rfl, rfl⟩
    · exact ⟨wf_ofCommand d r, encode_ofCommand cfg d r⟩

/-! ### The bytes on the wire -/

/-- The table of R73 with the reset byte of R76: for each register its write and its read. -/
theorem commandTable_eq :
    ([0x00, 0x30, 0x01, 0x31, 0x02, 0x32, 0x03, 0x33, 0x05, 0x35, 0x06, 0x36, 0xFF] : List Byte) =
      (allRegs.flatMap fun r => [cmdByte Cfg.default .write r, cmdByte Cfg.default .read r]) ++ [Config.resetByte] := by
  decide

/-- Settles O6: what the decoder reads is the reset byte or a command byte, whose table is that of R73. -/
theorem wireBytesRead : Obligations.WireBytesRead := by
  unfold Obligations.WireBytesRead
  refine ⟨fun cfg b hcfg => exists_decodeWire_iff hcfg b, fun b => ?_⟩
  rw [exists_decodeWire_iff (by decide) b, commandTable_eq, List.mem_append, List.mem_flatMap, List.mem_singleton, or_comm]
  refine or_congr_left ⟨?_, ?_⟩
  · rintro ⟨d, r, rfl⟩
    exact ⟨r, mem_allRegs r, by cases d <;> simp⟩
  · rintro ⟨r, -, hb⟩
    rcases List.mem_pair.1 hb with rfl | rfl
    · exact ⟨.write, r, rfl⟩
    · exact ⟨.read, r, rfl⟩

/-- A bit that no field of a layout covers (R70). -/
theorem getLsbD_fieldBits (l : CmdLayout) {j : Nat} (hj : j < 8) (hwen : j ≠ l.wenPos) (hrw1 : j ≠ l.rw1Pos)
    (hrw0 : j ≠ l.rw0Pos) (hrs : j < l.rsPos ∨ l.rsPos + 2 < j) : (fieldBits l).getLsbD j = false := by
  have shifted : ∀ (x : Byte) (p : Nat), (p ≤ j → x.getLsbD (j - p) = false) → (x <<< p).getLsbD j = false := by
    intro x p hx
    rw [BitVec.getLsbD_shiftLeft]
    by_cases hp : p ≤ j
    · rw [hx hp, Bool.and_false]
    · simp [Nat.lt_of_not_le hp]
  have one : ∀ k, 0 < k → (1 : Byte).getLsbD k = false := fun k hk => by simp [BitVec.getLsbD_one, hk.ne']
  have seven : ∀ k < 8, 2 < k → (7 : Byte).getLsbD k = false := by decide
  rw [fieldBits, BitVec.getLsbD_or, BitVec.getLsbD_or, BitVec.getLsbD_or,
    shifted 1 l.wenPos fun _ => one _ (by omega), shifted 1 l.rw1Pos fun _ => one _ (by omega),
    shifted 1 l.rw0Pos fun _ => one _ (by omega), shifted 7 l.rsPos fun _ => seven _ (by omega) (by omega)]
  rfl

/-- The fields of a command byte read back, and no other bit is set (R71, R77). -/
theorem cmdByte_fields {cfg : Cfg} (hcfg : cfg.wf = true) (d : Dir) (r : Reg) :
    wireWen cfg.cmd (cmdByte cfg d r) = false ∧
    wireRw cfg.cmd (cmdByte cfg d r) = (if d = .read then 0b11 else 0b00) ∧
    wireRs cfg.cmd (cmdByte cfg d r) = r.code cfg.sels ∧ cmdByte cfg d r &&& ~~~fieldBits cfg.cmd = 0 := by
  obtain ⟨hwen, hrw, hrs, hzero, -⟩ := layoutByte_fields cfg.cmd (Cfg.wf_cmd hcfg) d.code (r.code cfg.sels)
  exact ⟨hwen, hrw.trans (by cases d <;> rfl), hrs, hzero⟩

/-- Settles O5: the byte is made of its fields, so that they, and with them the direction and the register, are read
from it. -/
theorem commandByteFields : Obligations.CommandByteFields := by
  unfold Obligations.CommandByteFields
  refine ⟨fun cfg hcfg => ?_, fun d r => by cases d <;> cases r <;> decide⟩
  refine ⟨fun d r => ?_, fun d d' r r' he => ?_⟩
  · obtain ⟨hwen, hrw, hrs, hzero⟩ := cmdByte_fields hcfg d r
    refine ⟨hwen, hrw, hrs, fun j hj hjwen hjrw1 hjrw0 hjrs => ?_⟩
    have hbit := congrArg (·.getLsbD j) hzero
    simpa only [BitVec.getLsbD_and, BitVec.getLsbD_not, getLsbD_fieldBits cfg.cmd hj hjwen hjrw1 hjrw0 hjrs,
      hj, BitVec.ofNat_eq_ofNat, BitVec.getLsbD_zero, decide_true, Bool.not_false, Bool.and_true] using hbit
  · obtain ⟨-, hrw, hrs, -⟩ := cmdByte_fields hcfg d r
    obtain ⟨-, hrw', hrs', -⟩ := cmdByte_fields hcfg d' r'
    rw [he] at hrw hrs
    refine ⟨?_, code_inj (Cfg.wf_sels hcfg) (hrs.symm.trans hrs')⟩
    have hdir := hrw.symm.trans hrw'
    cases d <;> cases d' <;> simp at hdir ⊢

/-- Settles O3: each word is taken apart by the decoder. -/
theorem specWordsDecode : Obligations.SpecWordsDecode := by
  unfold Obligations.SpecWordsDecode
  decide

end Sys2Proof.Machine
end

section
/-! PROOFS. The lines of spec/30_encoding.md R87: what is printed is read back, and what is read is a host operation. -/

namespace Sys2Proof.Machine

/-! ### Operands -/

@[simp] theorem parseDir_name (d : Dir) : parseDir d.name.toList = some d := by cases d <;> rfl
@[simp] theorem parsePol_name (p : Polarity) : parsePol p.name.toList = some p := by cases p <;> rfl
@[simp] theorem parseWordLength_name (w : WordLength) : parseWordLength w.name.toList = some w := by cases w <;> rfl
@[simp] theorem parseMode_name (m : ModeState) : parseMode m.name.toList = some m := by cases m <;> rfl

/-- A bit field's value is read back as an operand of its width. -/
theorem parseUnsigned_toNat (x : Radix) {w : Nat} (hw : w ≤ 32) (v : BitVec w) :
    parseUnsigned w (numberText x v.toNat) = some v.toNat := parseUnsigned_numberText x hw v.isLt

/-- What is read as an operand fits its field. -/
theorem parseUnsigned_lt {bits n : Nat} {cs : List Char} (h : parseUnsigned bits cs = some n) : n < 2 ^ bits := by
  simpa using (Option.filter_eq_some_iff.1 h).2

/-- A text that stands between the separators of a line: one word, and not an empty one. -/
def operandText (cs : List Char) : Prop := wordText cs ∧ cs ≠ []

theorem operandText_number (x : Radix) (n : Nat) : operandText (numberText x n) :=
  ⟨wordText_numberText x n, numberText_ne_nil x n⟩

theorem operandText_signed (x : Radix) (v : Word16) : operandText (signedText x v) := by
  refine ⟨wordText_signedText x v, ?_⟩
  unfold signedText
  split
  · exact List.cons_ne_nil _ _
  · exact numberText_ne_nil x _

theorem operandText_sel (sels : SelCodes) (x : Radix) (sel : Sel) : operandText (selText sels x sel) := by
  refine ⟨wordText_selText sels x sel, ?_⟩
  rcases sel with r | _ | _
  · cases r <;> exact List.cons_ne_nil _ _
  · exact List.cons_ne_nil _ _
  · exact List.cons_ne_nil _ _

theorem operandText_dir (d : Dir) : operandText d.name.toList := ⟨wordText_dirName d, by cases d <;> decide⟩
theorem operandText_pol (p : Polarity) : operandText p.name.toList := ⟨wordText_polName p, by cases p <;> decide⟩
theorem operandText_wl (w : WordLength) : operandText w.name.toList := ⟨wordText_wlName w, by cases w <;> decide⟩
theorem operandText_mode (m : ModeState) : operandText m.name.toList := ⟨wordText_modeName m, by cases m <;> decide⟩

/-! ### Operations -/

/-- A mnemonic and its printed operands are read back as the operation (R87). -/
theorem parseOperation_operationText {sels : SelCodes} (h : sels.toList.Nodup) {x : Radix} {i : Instr} (hi : i.wf = true)
    {m : String} {ops : List (List Char)} (ht : operationText sels x i = some (m, ops)) :
    parseOperation sels m ops = some i := by
  have hsel := parseSel_selText h x
  have h16 := parseUnsigned_toNat x (w := 16) (by decide)
  have h24 := parseUnsigned_toNat x (w := 24) (by decide)
  cases i with
  | encode | wrreg | rdreg | refresh | setfld | setmode | setctx | getshd =>
    cases ht
    simp [parseOperation, hsel, h16, h24]
  | waitrdy n | convert n =>
    have hn : n < 2 ^ 32 := by simpa [Instr.wf] using hi
    cases ht
    simp [parseOperation, parseUnsigned_numberText x le_rfl hn]
  | rdstat | chiprst | rdvolt | getmode | getctx =>
    cases ht
    rfl
  | _ => cases ht

/-- The mnemonic and the operands that are printed are words (R87). -/
theorem operandText_operationText {sels : SelCodes} {x : Radix} {i : Instr} {m : String} {ops : List (List Char)}
    (ht : operationText sels x i = some (m, ops)) : operandText m.toList ∧ ∀ o ∈ ops, operandText o := by
  have mnemonic : ∀ cs : List Char, (cs.all fun c => !isBlank c && c != ',' && c != ';') = true → cs ≠ [] →
      operandText cs := fun cs hw hne => ⟨wordText_of_all hw, hne⟩
  cases i with
  | encode | wrreg | rdreg | refresh | setfld | setmode | waitrdy | rdstat | chiprst | setctx | convert | rdvolt | getshd
  | getmode | getctx =>
    cases ht
    refine ⟨mnemonic _ (by decide) (by decide), ?_⟩
    simp [operandText_number, operandText_signed, operandText_sel, operandText_dir, operandText_pol, operandText_wl,
      operandText_mode]
  | _ => cases ht

/-- The host operations are what has a line (R87). -/
theorem isSome_operationText (sels : SelCodes) (x : Radix) (i : Instr) :
    (operationText sels x i).isSome = i.isHostOp := by cases i <;> rfl

/-- What is read from a line is a host operation whose operands fit their fields (R82, R83, R87). -/
theorem isHostOp_and_wf_of_parseOperation {sels : SelCodes} {m : String} {ops : List (List Char)} {i : Instr}
    (h : parseOperation sels m ops = some i) : i.isHostOp = true ∧ i.wf = true := by
  unfold parseOperation at h
  split at h
  all_goals
    simp only [Option.bind_eq_bind, Option.bind_eq_some_iff, Option.pure_def, Option.some.injEq, reduceCtorEq] at h
  case h_1 | h_2 => obtain ⟨_, -, _, -, rfl⟩ := h; exact ⟨rfl, rfl⟩
  case h_3 | h_4 | h_6 | h_13 => obtain ⟨_, -, rfl⟩ := h; exact ⟨rfl, rfl⟩
  case h_5 => obtain ⟨_, -, _, -, _, -, rfl⟩ := h; exact ⟨rfl, rfl⟩
  case h_7 | h_11 => obtain ⟨n, hn, rfl⟩ := h; exact ⟨rfl, decide_eq_true (parseUnsigned_lt hn)⟩
  case h_8 | h_9 | h_12 | h_14 | h_15 => obtain rfl := h; exact ⟨rfl, rfl⟩
  case h_10 => obtain ⟨_, -, _, -, _, -, _, -, _, -, rfl⟩ := h; exact ⟨rfl, rfl⟩

/-- The line printed for an operation assembles to its command word, with or without a comment (R87). -/
theorem assemble_lineText {cfg : Cfg} (hcfg : cfg.wf = true) {x : Radix} {i : Instr} (hi : i.wf = true) {line : List Char}
    (hl : lineText cfg x i = some line) {tail : List Char} (ht : tail = [] ∨ ∃ c, tail = ' ' :: ';' :: c) :
    assemble cfg (String.ofList (line ++ tail)) = some (encode cfg i) := by
  obtain ⟨⟨m, ops⟩, hp, rfl⟩ := Option.map_eq_some_iff.1 hl
  obtain ⟨⟨hm, hne⟩, hops⟩ := operandText_operationText hp
  rw [assemble, parseLine_text cfg m.toList ops hm hne hops tail ht, String.ofList_toList,
    parseOperation_operationText (Cfg.wf_sels hcfg) hi hp, Option.map_some]

/-- Settles O8: the printed line is read back part by part, and a line that is read holds a host operation. -/
theorem assembledLineDecodes : Obligations.AssembledLineDecodes := by
  unfold Obligations.AssembledLineDecodes
  refine ⟨fun cfg x i hcfg hi hh => ?_, fun cfg line c hcfg h => ?_, ?_⟩
  · obtain ⟨p, hp⟩ := Option.isSome_iff_exists.1 ((isSome_operationText cfg.sels x i).trans hh)
    have hl : lineText cfg x i = some _ := congrArg (Option.map _) hp
    refine ⟨_, hl, ?_, fun comment => assemble_lineText hcfg hi hl (.inr ⟨comment, rfl⟩)⟩
    simpa using assemble_lineText hcfg hi hl (tail := []) (.inl rfl)
  · obtain ⟨i, hp, rfl⟩ := Option.map_eq_some_iff.1 h
    obtain ⟨hh, hi⟩ := isHostOp_and_wf_of_parseOperation hp
    exact ⟨i, hp, hh, decodeOfEncode cfg i hcfg hi⟩
  · decide

end Sys2Proof.Machine
end

section
/-! PROOFS. The step of an idle block, the wire bytes as steps of the sequencer, and RDVOLT as RDREG and CONVERT
(spec/30_encoding.md R73, R76, R80, R84, R88). -/

namespace Sys2Proof.Machine

/-! ### The step of an idle block -/

/-- Settles O7: the numbers are those of the definition. -/
theorem responseNumbers : Obligations.ResponseNumbers :=
  ⟨fun _ => rfl, rfl, rfl, rfl, rfl, rfl, rfl⟩

/-- Settles O9: either host event serves the word on the idle block. -/
theorem stepRunsCommand : Obligations.StepRunsCommand := by
  unfold Obligations.StepRunsCommand
  intro s cw i rest hs hhost hd
  have hstep : step s = (serve .operation cw { s with hostIn := rest }).outcome :=
    hhost.elim (step_idle_command hs) (step_idle_intrude hs)
  rw [hstep, serve_operation (s := { s with hostIn := rest }) hd, Fetched.outcome_instr]

theorem step_idle_silent {s : State} (hs : s.seq = .idle) (hh : s.hostIn = []) : step s = .next s := by
  rw [step_eq_outcome, fetch, hh, hs, Fetched.outcome_settled]

/-- Settles O11: the step of an idle block with no command presented is settled by `fetch`. -/
theorem idleBlockWaits : Obligations.IdleBlockWaits :=
  fun _ hs => ⟨step_idle_silent hs, fun _ => step_idle_quiet hs⟩

/-! ### The wire bytes -/

/-- A command byte is sent by an operation that stands at it (R73). -/
theorem sendCommand_due {d : Dir} {r : Reg} {s : State} {q : Run} (hs : s.seq = .run q) (hp : q.phase = .cmd)
    (hc : commandOf q.op = some (d, r)) : sendCommand d r s = .next (emitCommand d r q s) := by
  simp [sendCommand, hs, hp, hc]

/-- A reset byte is sent by CHIPRST with one left to send (R76). -/
theorem execResetByte_due {s : State} {q : Run} {left : Nat} (hs : s.seq = .run q) (hp : q.phase = .fill)
    (ho : q.op = .chiprst) (hi : q.i = left + 1) : execResetByte s = .next (sendReset q left s) := by
  simp [execResetByte, hs, hp, ho, emitReset, hi]

theorem xfer_eq (b : Byte) (s : State) :
    xfer b s = { s with xfers := s.xfers + 1, trace := s.trace ++ [.xfer b (s.nextAnswer 0)] } := rfl

/-- The last `Xfer` of a transaction and its `End` (spec/20_memory.md R54). -/
theorem busEnd_xfer (b : Byte) (s : State) :
    busEnd (xfer b s) = { s with xfers := s.xfers + 1, trace := s.trace ++ [.xfer b (s.nextAnswer 0), .txEnd] } := by
  simp [busEnd, xfer_eq]

/-- Settles O47: what `emitCommand` does in each of its three cases. -/
theorem commandByteIsSent : Obligations.CommandByteIsSent := by
  unfold Obligations.CommandByteIsSent
  intro d r s q hs hp hc
  rw [exec_ofCommand, sendCommand_due hs hp hc]
  rcases emitCommand_cases d r q s with ⟨he, h⟩ | ⟨he, hf, h⟩ | ⟨he, hf, h⟩
  · simp [he, h]
  · simp [he, hf, h, xfer_eq]
  · simp [he, hf, h, busEnd_xfer]

/-- Settles O48: what `sendReset` does in each of its three cases. -/
theorem resetByteIsSent : Obligations.ResetByteIsSent := by
  unfold Obligations.ResetByteIsSent
  intro s q k hs hp ho hi
  rw [exec_resetByte, execResetByte_due hs hp ho hi]
  rcases sendReset_cases q s k with ⟨hf, h⟩ | ⟨hf, rfl, h⟩ | ⟨hf, hk, h⟩
  · simp [hf, h, busEnd_xfer, Config.resetByte]
  · simp [hf, h, busEnd_xfer, Config.resetByte]
  · simp [hf, h, hk, hk.ne', xfer_eq, Config.resetByte]

/-- Settles O49: the guards of the two wire instructions. -/
theorem wireByteNotDueRefused : Obligations.WireByteNotDueRefused := by
  unfold Obligations.WireByteNotDueRefused
  intro d r s
  simp only [exec_ofCommand, exec_resetByte]
  refine ⟨fun hs => by simp [sendCommand, execResetByte, hs], fun q hs h => ?_, fun q hs h => ?_⟩
  · rcases h with h | h <;> simp [sendCommand, hs, h]
  · by_cases hdue : q.phase = .fill ∧ q.op = .chiprst
    · obtain ⟨hp, ho⟩ := hdue
      have hi : q.i = 0 := by simpa [hp, ho] using h
      simp [execResetByte, hs, hp, ho, emitReset, hi]
    · simp [execResetByte, hs, hdue]

/-! ### RDVOLT -/

/-- The accumulator has room for the bytes of a register (R57). -/
theorem toNat_readValue (s : State) (r : Reg) :
    (BitVec.ofNat 24 (s.readValue (nbytes s.ctx r))).toNat = s.readValue (nbytes s.ctx r) :=
  Nat.mod_eq_of_lt (Nat.lt_of_lt_of_le (readValue_lt s _)
    (Nat.pow_le_pow_right (n := 256) (by decide) (nbytes_le s.ctx r)))

/-- What RDREG Data has done where it answers OK: the block was idle with a context loaded, and the answer is the value of
one whole wire read (R112). -/
theorem exec_rdreg_data_ok {s t : State} {v : Word64} (h : exec (.rdreg (.reg .data)) s = .next t)
    (hr : t.response = some (.ok v)) :
    s.seq = .idle ∧ s.ctx.valid = true ∧ s.allAnswered (nbytes s.ctx .data + 1) ∧
      v.toNat = s.readValue (nbytes s.ctx .data) ∧
      t = respond (.ok v) (s.afterTransaction (readBytes s.cfg .data (nbytes s.ctx .data))) := by
  rw [exec_rdreg] at h
  rcases hostOp_cases (doRdreg (.reg .data)) s with ⟨hs, hbody⟩ | ⟨-, hbusy⟩
  · rw [hbody] at h
    cases h
    cases hv : s.ctx.valid with
    | false => simp [doRdreg, checkRdreg, validReg, hv] at hr
    | true =>
      have hread : doRdreg (.reg .data) s = loadRegister .data (fun acc t => reply (acc.setWidth 64) t) s := by
        simp [doRdreg, checkRdreg, validReg, hv]
      rw [hread] at hr ⊢
      rcases loadRegister_cases .data (fun acc t => reply (acc.setWidth 64) t) s with ⟨hall, h⟩ | ⟨j, -, -, h⟩
      · rw [h, reply_eq_respond, respond_response, Option.some.injEq, Response.ok.injEq] at hr
        refine ⟨hs, rfl, hall, ?_, ?_⟩
        · rw [← hr, BitVec.toNat_setWidth_of_le (by decide), toNat_readValue]
        · rw [h, reply_eq_respond, hr]
      · rw [h] at hr
        cases hr
  · rw [hbusy] at h
    cases h

/-- A wire read of Data is in the range of CONVERT (R144). -/
theorem checkConvert_readValue (s : State) (hv : s.ctx.valid = true) :
    checkConvert s.ctx (s.readValue (nbytes s.ctx .data)) = .ok () := by
  have hlt := readValue_lt s (nbytes s.ctx .data)
  have hbits : 256 ^ nbytes s.ctx .data = 2 ^ s.ctx.wordLength.bits := by
    simp only [nbytes]
    cases s.ctx.wordLength <;> rfl
  simp [checkConvert, hv, hbits ▸ hlt]

/-- Settles O39: RDVOLT makes the wire read of RDREG Data, and converts a value that CONVERT accepts. -/
theorem rdvoltIsRdregThenConvert : Obligations.RdvoltIsRdregThenConvert := by
  unfold Obligations.RdvoltIsRdregThenConvert
  intro s t u w v hread hok hconvert hrdvolt
  obtain ⟨hs, hvalid, hall, hv, rfl⟩ := exec_rdreg_data_ok hread hok
  rw [exec_convert, hostOp_idle _ _ rfl, doConvert, hv] at hconvert
  rw [exec_rdvolt, hostOp_idle _ _ hs, doRdvolt, if_pos hvalid, loadRegister_all _ _ _ hall] at hrdvolt
  rw [respond_ctx, afterTransaction_ctx, checkConvert_readValue s hvalid] at hconvert
  rw [toNat_readValue] at hrdvolt
  cases hconvert
  cases hrdvolt
  rfl

end Sys2Proof.Machine
end

section
/-! PROOFS. The Command Encoder: the response of ENCODE to each of its operands (spec/40_command_encoder.md R100, R101). -/

namespace Sys2Proof.Machine

/-- ENCODE of a register answers its command byte (R100). -/
theorem exec_encode_reg (d : Dir) (r : Reg) {s : State} (hs : s.seq = .idle) :
    exec (.encode d (.reg r)) s = .next (respond (.ok ((cmdByte s.cfg d r).setWidth 64)) s) := by
  rw [exec_encode, hostOp_idle _ _ hs]
  rfl

/-- ENCODE of a selector that names no register raises the error of the check (R100). -/
theorem exec_encode_error (d : Dir) {sel : Sel} {e : Err} {s : State} (hs : s.seq = .idle) (he : validReg sel = .error e) :
    exec (.encode d sel) s = .next (respond (.error e) s) := by
  rw [exec_encode, hostOp_idle _ _ hs]
  simp [doEncode, he]

/-- Settles O16: the check lets exactly the registers through, and the command byte of one depends on the layout and the
selector codes alone, so that the table is that of the default configuration. -/
theorem encodeAnswersCommandByte : Obligations.EncodeAnswersCommandByte := by
  unfold Obligations.EncodeAnswersCommandByte
  intro d s hs
  refine ⟨fun r => exec_encode_reg d r hs, fun hcmd hsels r => ?_, exec_encode_error d hs rfl, exec_encode_error d hs rfl⟩
  rw [exec_encode_reg d r hs, Laws.OpcodeMap.cmdByte_default hcmd hsels]
  cases d <;> cases r <;> rfl

end Sys2Proof.Machine
end

section
/-! PROOFS. The Register Protocol Engine: what each operation on an idle block does to the shadows, the context and the bus
(spec/41_register_protocol.md R111 to R118). -/

namespace Sys2Proof.Machine

/-! ### The operations on a register they accept -/

/-- WRREG of a value that fits stores it (R111). -/
theorem exec_wrreg_reg {g : ShadowReg} {v : Word24} {s : State} (hs : s.seq = .idle) (hv : fits g v = true) :
    exec (.wrreg (.reg g.reg) v) s = .next (storeRegister g v 0 s) := by
  rw [exec_wrreg, hostOp_idle _ _ hs]
  simp [doWrreg, checkWrreg, hv]

/-- RDREG of a register whose width is known loads it and answers its value (R112). -/
theorem exec_rdreg_reg {r : Reg} {s : State} (hs : s.seq = .idle) (hr : r = .data → s.ctx.valid = true) :
    exec (.rdreg (.reg r)) s = .next (loadRegister r (fun acc t => reply (acc.setWidth 64) t) s) := by
  have hcheck : checkRdreg (.reg r) s.ctx = .ok r := by simpa [checkRdreg, validReg] using hr
  rw [exec_rdreg, hostOp_idle _ _ hs, doRdreg, hcheck]

/-- RDREG of an operand that the checks refuse raises their error (R112). -/
theorem exec_rdreg_error {sel : Sel} {e : Err} {s : State} (hs : s.seq = .idle) (he : checkRdreg sel s.ctx = .error e) :
    exec (.rdreg sel) s = .next (respond (.error e) s) := by
  rw [exec_rdreg, hostOp_idle _ _ hs]
  simp [doRdreg, he]

/-- REFRESH loads the register and writes its shadow (R114). -/
theorem exec_refresh_reg (g : ShadowReg) {s : State} (hs : s.seq = .idle) :
    exec (.refresh (.reg g.reg)) s =
      .next (loadRegister g.reg (fun acc t => reply (acc.setWidth 64) (writeShadow g acc t)) s) := by
  rw [exec_refresh, hostOp_idle _ _ hs, doRefresh, shadowedReg_reg]

/-- GETSHD answers the number in the shadow (R118). -/
theorem exec_getshd_reg (g : ShadowReg) {s : State} (hs : s.seq = .idle) :
    exec (.getshd (.reg g.reg)) s = .next (respond (.ok (BitVec.ofNat 64 (readShadow g s).toNat)) s) := by
  rw [exec_getshd, hostOp_idle _ _ hs, BitVec.ofNat_toNat]
  simp only [doGetshd, shadowedReg_reg, reply_eq_respond]

/-- A wire read as the payload of a response: it is the number read (R113). -/
theorem setWidth_readValue (s : State) (r : Reg) :
    (BitVec.ofNat 24 (s.readValue (nbytes s.ctx r))).setWidth 64 = BitVec.ofNat 64 (s.readValue (nbytes s.ctx r)) := by
  rw [← BitVec.ofNat_toNat, toNat_readValue]

/-! ### Writing -/

/-- Settles O17: WRREG is `storeRegister` of the value. -/
theorem wrregWritesShadowThenBus : Obligations.WrregWritesShadowThenBus := by
  unfold Obligations.WrregWritesShadowThenBus
  intro g v s hs hv
  have hfits : fits g v = true := decide_eq_true hv
  rw [exec_wrreg_reg hs hfits]
  exact ⟨fun hall => by rw [storeRegister_all g v 0 s hfits hall],
    fun k hk hfail => by rw [storeRegister_fails g v 0 s hfits k (Nat.lt_succ_of_le hk) hfail]⟩

/-! ### Reading -/

/-- Settles O18: RDREG is `loadRegister`, or the error of its checks. -/
theorem rdregReadsRegister : Obligations.RdregReadsRegister := by
  unfold Obligations.RdregReadsRegister
  intro r s hs
  refine ⟨fun hr hall => ?_, fun k hr hk hfail => ?_, fun hr hv => ?_, exec_rdreg_error hs rfl, exec_rdreg_error hs rfl⟩
  · rw [exec_rdreg_reg hs hr, loadRegister_all _ _ _ hall, reply_eq_respond, setWidth_readValue]
  · rw [exec_rdreg_reg hs hr, loadRegister_fails _ _ _ k (Nat.lt_succ_of_le hk) hfail]
  · exact exec_rdreg_error hs (by simp [checkRdreg, validReg, hr, hv])

/-- Settles O19: a value answered is that of a whole wire read. -/
theorem rdregValueFits : Obligations.RdregValueFits := by
  unfold Obligations.RdregValueFits
  intro r s t v h hv
  rcases hostOp_cases (doRdreg (.reg r)) s with ⟨hs, -⟩ | ⟨-, hbusy⟩
  · by_cases hr : r = .data → s.ctx.valid = true
    · rw [exec_rdreg_reg hs hr] at h
      cases h
      rcases loadRegister_cases r (fun acc t => reply (acc.setWidth 64) t) s with ⟨-, hload⟩ | ⟨j, -, -, hload⟩
      · rw [hload, reply_eq_respond, respond_response, Option.some.injEq, Response.ok.injEq] at hv
        rw [← hv, BitVec.toNat_setWidth_of_le (by decide), toNat_readValue, Nat.pow_mul]
        exact readValue_lt s _
      · rw [hload] at hv
        cases hv
    · rw [exec_rdreg_error hs (e := .invalidContext) (by simpa [checkRdreg, validReg] using hr)] at h
      cases h
      cases hv
  · rw [exec_rdreg, hbusy] at h
    cases h

/-- Settles O20: REFRESH is `loadRegister`, which goes on to the shadow only with a value. -/
theorem refreshCopiesRegister : Obligations.RefreshCopiesRegister := by
  unfold Obligations.RefreshCopiesRegister
  intro g s hs
  rw [exec_refresh_reg g hs, ← nbytes_reg s.ctx g]
  refine ⟨fun hall => ?_, fun k hk hfail => ?_⟩
  · rw [loadRegister_all _ _ _ hall, reply_eq_respond, setWidth_readValue]
  · rw [loadRegister_fails _ _ _ k (Nat.lt_succ_of_le hk) hfail]

/-! ### CHIPRST and GETSHD -/

/-- CHIPRST with every `Xfer` answered (R116). -/
theorem doChiprst_all {s : State} (h : s.allAnswered 4) :
    doChiprst s = respond (.ok 0) ((toDefaults s).afterTransaction [0xFF, 0xFF, 0xFF, 0xFF]) := by
  have hsend := sendFramed_all (List.replicate Config.resetCount Config.resetByte) (toDefaults s)
    ((allAnswered_congr rfl rfl 4).2 h)
  rw [doChiprst, hsend]
  rfl

/-- CHIPRST with an `Xfer` failing: the shadows and the context are reset all the same (R116). -/
theorem doChiprst_fails {s : State} {k : Nat} (hk : k < 4) (h : s.failsAt k) :
    doChiprst s = respond (.error .busError) ((toDefaults s).afterTransaction (List.replicate (k + 1) 0xFF)) := by
  have hsend := sendFramed_fails (List.replicate Config.resetCount Config.resetByte) (toDefaults s) k hk
    ((failsAt_congr rfl rfl k).2 h)
  rw [List.take_replicate, Nat.min_eq_left (show k + 1 ≤ Config.resetCount from hk)] at hsend
  rw [doChiprst, hsend]
  rfl

/-- The reset Mode of a well-formed configuration is Idle (spec/10_state.md R27). -/
theorem modeState_resetMode {cfg : Cfg} (hw : cfg.wf = true) : modeState cfg cfg.resetMode = .idle := by
  have hcode : cfg.resetMode.extractLsb' cfg.mdLo 3 = mdCode cfg.mdCodes .idle := by
    simp only [Cfg.wf, Bool.and_eq_true, beq_iff_eq] at hw
    obtain ⟨-, hidle⟩ := hw
    exact hidle
  rw [modeState, hcode, mdDecode_mdCode hw]

/-- Settles O21: CHIPRST goes to its defaults and sends its reset bytes. -/
theorem chiprstResets : Obligations.ChiprstResets := by
  unfold Obligations.ChiprstResets
  intro s hs d
  rw [exec_chiprst, hostOp_idle _ _ hs]
  refine ⟨fun hall => ?_, fun k hk hfail => ?_, modeState_resetMode⟩
  · rw [doChiprst_all hall]; rfl
  · rw [doChiprst_fails hk hfail]; rfl

/-- Settles O22: each of the four shadows is answered as it is read. -/
theorem getshdAnswersShadow : Obligations.GetshdAnswersShadow := by
  unfold Obligations.GetshdAnswersShadow
  intro s hs
  refine ⟨(exec_getshd_reg .mode hs).trans ?_, exec_getshd_reg .filter hs, exec_getshd_reg .offset hs,
    (exec_getshd_reg .gain hs).trans ?_⟩
  · rw [readShadow, BitVec.toNat_setWidth_of_le (by decide)]
  · rw [readShadow, BitVec.toNat_setWidth_of_le (by decide)]

end Sys2Proof.Machine
end

section
/-! PROOFS. The round trip under the perfect loopback: the loopback keeps the data bytes of a write, and a read it accepts
receives them (spec/20_memory.md R66, spec/41_register_protocol.md R120). -/

namespace Sys2Proof.Machine

/-! ### The loopback automaton, event by event -/

theorem accepts_cons_iff {cfg : Cfg} {l : Loopback} {e : BusEvent} {es : List BusEvent} :
    l.accepts cfg (e :: es) = true ↔ ∃ m, l.next cfg e = some m ∧ m.accepts cfg es = true := by
  rw [Loopback.accepts]
  cases l.next cfg e <;> simp

/-- A perfect loopback never fails (R66). -/
theorem fail_notMem_of_accepts {cfg : Cfg} {l : Loopback} {es : List BusEvent} (h : l.accepts cfg es = true) (b : Byte) :
    .xfer b .fail ∉ es := by
  induction es generalizing l with
  | nil => exact List.not_mem_nil
  | cons e es ih =>
    obtain ⟨m, hnext, hrest⟩ := accepts_cons_iff.1 h
    rw [List.mem_cons, not_or]
    refine ⟨?_, ih hrest⟩
    rintro rfl
    cases hnext

/-- `Xfer` events without a failure among them were all answered. -/
theorem allAnswered_of_fail_notMem {bytes : List Byte} {s : State}
    (h : ∀ b, .xfer b .fail ∉ s.xferEvents 0 bytes) : s.allAnswered bytes.length := by
  induction bytes generalizing s with
  | nil => exact fun k hk => absurd hk (Nat.not_lt_zero k)
  | cons b bs ih =>
    simp only [State.xferEvents, List.mem_cons, not_or] at h
    refine (allAnswered_succ b s bs.length).2 ⟨fun hf => (h b).1 (by rw [hf]), ih fun c => ?_⟩
    rw [xferEvents_xfer]
    exact (h c).2

/-- The bus events of one transaction. -/
def State.transactionEvents (s : State) (bytes : List Byte) : List BusEvent :=
  .txBegin :: s.xferEvents 0 bytes ++ [.txEnd]

theorem afterTransaction_trace_eq (s : State) (bytes : List Byte) :
    (s.afterTransaction bytes).trace = s.trace ++ s.transactionEvents bytes := rfl

/-- No `Xfer` of a transaction that a loopback answers fails. -/
theorem allAnswered_of_accepts {cfg : Cfg} {l : Loopback} {s : State} {bytes : List Byte} {rest : List BusEvent}
    (h : l.accepts cfg (s.transactionEvents bytes ++ rest) = true) : s.allAnswered bytes.length := by
  refine allAnswered_of_fail_notMem fun b hb => fail_notMem_of_accepts h b ?_
  simp [State.transactionEvents, hb]

/-- A transaction that ends in a failed `Xfer` is none that a loopback answers. -/
theorem not_accepts_of_failsAt {cfg : Cfg} {l : Loopback} {s : State} {bytes : List Byte} {k : Nat} {rest : List BusEvent}
    (hk : k < bytes.length) (h : s.failsAt k) :
    ¬ l.accepts cfg (s.transactionEvents (bytes.take (k + 1)) ++ rest) = true := by
  intro hacc
  have hall := allAnswered_of_accepts hacc
  rw [List.length_take, Nat.min_eq_left hk] at hall
  exact not_failsAt_of_allAnswered hall (Nat.lt_succ_self k) h

@[simp] theorem wireCommand_ofCommand (d : Dir) (r : Reg) : (Instr.ofCommand d r).wireCommand = some (d, r) := by
  cases d <;> cases r <;> rfl

/-- What a command byte puts the loopback in the middle of: a write of the register, or a read of the bytes kept for it. -/
def Loopback.phaseAfter (l : Loopback) (r : Reg) : Dir → LoopPhase
  | .write => .writing r []
  | .read => .reading (l.bytesOf r)

/-- A transaction that begins with a command byte goes on in that byte's phase (R66). -/
theorem accepts_command {cfg : Cfg} (hw : cfg.wf = true) {l : Loopback} {d : Dir} {r : Reg} {s : State} {bytes : List Byte}
    {rest : List BusEvent} (h : l.accepts cfg (s.transactionEvents (cmdByte cfg d r :: bytes) ++ rest) = true) :
    Loopback.accepts cfg { l with phase := l.phaseAfter r d } (s.xferEvents 1 bytes ++ .txEnd :: rest) = true := by
  simp only [State.transactionEvents, State.xferEvents, List.cons_append, List.append_assoc, List.nil_append] at h
  obtain ⟨m, hbegin, h⟩ := accepts_cons_iff.1 h
  cases hbegin
  obtain ⟨m, hcmd, h⟩ := accepts_cons_iff.1 h
  cases ha : s.nextAnswer 0 with
  | fail => rw [ha] at hcmd; cases hcmd
  | byte b =>
    rw [ha] at hcmd
    simp only [Loopback.next, Loopback.command, decodeWire_cmdByte hw, wireCommand_ofCommand, Option.some.injEq] at hcmd
    rw [← hcmd] at h
    cases d <;> exact h

/-- The data bytes of a write are gathered in order (R66). -/
theorem accepts_writing {cfg : Cfg} {kept : List (Reg × List Byte)} {r : Reg} {s : State} {rest : List BusEvent}
    (bytes got : List Byte) (k : Nat)
    (h : Loopback.accepts cfg ⟨kept, .writing r got⟩ (s.xferEvents k bytes ++ rest) = true) :
    Loopback.accepts cfg ⟨kept, .writing r (got ++ bytes)⟩ rest = true := by
  induction bytes generalizing got k with
  | nil => simpa [State.xferEvents] using h
  | cons b bs ih =>
    obtain ⟨m, hnext, h⟩ := accepts_cons_iff.1 h
    cases ha : s.nextAnswer k with
    | fail => rw [ha] at hnext; cases hnext
    | byte x =>
      rw [ha] at hnext
      cases hnext
      simpa using ih (got ++ [b]) (k + 1) h

/-- One more byte of a value shifted in below its higher bytes (R56, R57). -/
theorem shiftIn_ushiftRight (v : Word24) (n : Nat) :
    shiftIn (v >>> (8 * (n + 1))) (v.extractLsb' (8 * n) 8) = v >>> (8 * n) := by
  ext i hi
  simp only [shiftIn, BitVec.getElem_or, BitVec.getElem_shiftLeft, BitVec.getElem_ushiftRight, BitVec.getElem_setWidth,
    BitVec.getLsbD_extractLsb']
  by_cases h : i < 8
  · simp [h]
  · simp [h, show 8 * (n + 1) + (i - 8) = 8 * n + i by omega]

/-- The data bytes of a read are those kept: where they are a value's, the read accumulates the value (R57, R66). -/
theorem accumulate_of_accepts {cfg : Cfg} {kept : List (Reg × List Byte)} {v : Word24} {s : State} {rest : List BusEvent}
    (n k : Nat)
    (h : Loopback.accepts cfg ⟨kept, .reading (wireBytes v n)⟩
      (s.xferEvents k (List.replicate n Config.readFill) ++ rest) = true) :
    s.accumulate k n (v >>> (8 * n)) = v := by
  induction n generalizing k with
  | zero => simp [State.accumulate]
  | succ n ih =>
    rw [List.replicate_succ] at h
    obtain ⟨m, hnext, h⟩ := accepts_cons_iff.1 h
    cases ha : s.nextAnswer k with
    | fail => rw [ha] at hnext; cases hnext
    | byte x =>
      rw [ha] at hnext
      simp only [Loopback.next, wireBytes] at hnext
      split at hnext
      · rename_i hx
        cases hnext
        have hbyte : s.nextByte k = v.extractLsb' (8 * n) 8 := by simp only [State.nextByte, ha, hx]
        rw [State.accumulate, hbyte, shiftIn_ushiftRight]
        exact ih (k + 1) h
      · cases hnext

/-! ### Storing and loading a register under the loopback -/

/-- A store that a loopback answers leaves the value's bytes with it (R66, R111). -/
theorem accepts_storeRegister {g : ShadowReg} {v : Word24} {payload : Word64} {s : State} {l : Loopback}
    {evs rest : List BusEvent} (hw : s.cfg.wf = true) (hv : fits g v = true)
    (htrace : (storeRegister g v payload s).trace ++ rest = s.trace ++ evs) (h : l.accepts s.cfg evs = true) :
    Loopback.accepts s.cfg ⟨(g.reg, wireBytes v (g.width / 8)) :: l.kept, .idle⟩ rest = true := by
  rcases allAnswered_or_failsAt s (g.width / 8 + 1) with hall | ⟨j, hj, hfail⟩
  · rw [storeRegister_all g v payload s hv hall, respond_trace, afterTransaction_trace_eq, writeShadow_trace, List.append_assoc,
      List.append_cancel_left_eq] at htrace
    subst htrace
    have hwritten := accepts_writing _ _ _ (accepts_command hw h)
    obtain ⟨m, hend, hrest⟩ := accepts_cons_iff.1 hwritten
    cases hend
    exact hrest
  · rw [storeRegister_fails g v payload s hv j hj hfail, respond_trace, afterTransaction_trace_eq, writeShadow_trace,
      List.append_assoc, List.append_cancel_left_eq] at htrace
    subst htrace
    have hfail' := (failsAt_congr (writeShadow_answers g v s) (writeShadow_xfers g v s) j).2 hfail
    exact absurd h (not_accepts_of_failsAt (by simpa using hj) hfail')

/-- A load only appends to the bus record, if what it goes on with leaves the record alone (R62). -/
theorem trace_loadRegister (r : Reg) {k : Word24 → State → State} (hk : ∀ acc u, (k acc u).trace = u.trace) (s : State) :
    ∃ rest, (loadRegister r k s).trace = s.trace ++ rest := by
  rcases loadRegister_cases r k s with ⟨-, h⟩ | ⟨j, -, -, h⟩
  · exact ⟨_, by rw [h, hk, afterTransaction_trace]⟩
  · exact ⟨_, by rw [h, respond_trace, afterTransaction_trace]⟩

/-- A load that a loopback answers, where it keeps a value's bytes for the register, goes on with the value (R66, R112). -/
theorem loadRegister_of_accepts {r : Reg} {k : Word24 → State → State} {v : Word24} {s : State} {l : Loopback}
    {evs : List BusEvent} (hw : s.cfg.wf = true) (hk : ∀ acc u, (k acc u).trace = u.trace)
    (hkept : l.bytesOf r = wireBytes v (nbytes s.ctx r)) (hv : v.toNat < 2 ^ (8 * nbytes s.ctx r))
    (htrace : (loadRegister r k s).trace = s.trace ++ evs) (h : l.accepts s.cfg evs = true) :
    loadRegister r k s = k v (s.afterTransaction (readBytes s.cfg r (nbytes s.ctx r))) := by
  rw [← List.append_nil evs] at h
  rcases loadRegister_cases r k s with ⟨-, hload⟩ | ⟨j, hj, hfail, hload⟩
  · rw [hload, hk, afterTransaction_trace_eq, List.append_cancel_left_eq] at htrace
    subst htrace
    have hread := accepts_command hw h
    rw [Loopback.phaseAfter, hkept] at hread
    have hacc := accumulate_of_accepts _ _ hread
    have hzero : v >>> (8 * nbytes s.ctx r) = 0 := by
      apply BitVec.eq_of_toNat_eq
      simp [BitVec.toNat_ushiftRight, Nat.shiftRight_eq_div_pow, Nat.div_eq_of_lt hv]
    rw [hzero, accumulate_eq_readValue s _ (nbytes_le s.ctx r)] at hacc
    rw [hload, hacc]
  · rw [hload, respond_trace, afterTransaction_trace_eq, List.append_cancel_left_eq] at htrace
    subst htrace
    exact absurd h (not_accepts_of_failsAt (by simpa using hj) hfail)

/-! ### The round trip -/

/-- After a store, a load that completes the bus record of a loopback goes on with the value stored (R120). -/
theorem loadRegister_storeRegister {g : ShadowReg} {v : Word24} {payload : Word64} {k : Word24 → State → State} {s : State}
    {evs : List BusEvent} (hw : s.cfg.wf = true) (hv : fits g v = true) (hk : ∀ acc u, (k acc u).trace = u.trace)
    (htrace : (loadRegister g.reg k (storeRegister g v payload s)).trace = s.trace ++ evs)
    (h : Loopback.empty.accepts s.cfg evs = true) :
    ∃ u, loadRegister g.reg k (storeRegister g v payload s) = k v u := by
  have hcfg := (busGrows_storeRegister g v payload s).cfg
  have hwidth : 8 * (g.width / 8) = g.width := by cases g <;> rfl
  obtain ⟨rest, hrest⟩ := trace_loadRegister g.reg hk (storeRegister g v payload s)
  have hread : Loopback.accepts s.cfg ⟨[(g.reg, wireBytes v (g.width / 8))], .idle⟩ rest = true :=
    accepts_storeRegister hw hv (by rw [← hrest, htrace]) h
  refine ⟨_, loadRegister_of_accepts (hcfg ▸ hw) hk ?_ ?_ hrest (hcfg ▸ hread)⟩
  · simp [Loopback.bytesOf]
  · simpa [fits, hwidth] using hv

/-- Settles O24: what WRREG stores is what the loopback keeps, and what either load goes on with. -/
theorem loopbackRoundTrip : Obligations.LoopbackRoundTrip := by
  unfold Obligations.LoopbackRoundTrip
  intro g v s t u w evs evs' hs hw hv hwrite hread hrefresh
  have hfits : fits g v = true := decide_eq_true hv
  rw [exec_wrreg_reg hs hfits] at hwrite
  cases hwrite
  have hidle : (storeRegister g v 0 s).seq = .idle := by
    obtain ⟨x, bytes, hstore⟩ := storeRegister_cases g v 0 s
    rw [hstore, respond_seq]
  rw [exec_rdreg_reg hidle (by cases g <;> simp [ShadowReg.reg])] at hread
  rw [exec_refresh_reg g hidle] at hrefresh
  cases hread
  cases hrefresh
  refine ⟨fun htrace h => ?_, fun htrace h => ?_⟩
  · obtain ⟨u, hu⟩ := loadRegister_storeRegister hw hfits (fun _ _ => by simp) htrace h
    rw [hu, reply_eq_respond, respond_response]
  · obtain ⟨u, hu⟩ := loadRegister_storeRegister hw hfits (fun _ _ => by simp) htrace h
    rw [hu, reply_eq_respond, readShadow_respond, readShadow_writeShadow g v u hfits]

end Sys2Proof.Machine
end

section
/-! PROOFS. The Shadow Register Store: the masked update of a shadow, and what SETFLD does with it
(spec/42_shadow_store.md R130 to R134). -/

namespace Sys2Proof.Machine

/-! ### The masked update -/

theorem getLsbD_merge {w : Nat} (old bits mask : BitVec w) {i : Nat} (hi : i < w) :
    (merge old bits mask).getLsbD i = if mask.getLsbD i then bits.getLsbD i else old.getLsbD i := by
  simp only [merge, BitVec.getLsbD_or, BitVec.getLsbD_and, BitVec.getLsbD_not, hi, decide_true]
  cases mask.getLsbD i <;> simp

/-- What a masked update leaves outside its mask is the old value (R134). -/
theorem merge_and_not_mask {w : Nat} (old bits mask : BitVec w) : merge old bits mask &&& ~~~mask = old &&& ~~~mask := by
  ext i hi
  simp only [merge, BitVec.getElem_and, BitVec.getElem_or, BitVec.getElem_not]
  cases mask[i] <;> simp

/-- Settles O25: the first half is the definition of `merge`, the second its bits. -/
theorem maskedUpdateBits : Obligations.MaskedUpdateBits := by
  unfold Obligations.MaskedUpdateBits
  exact fun w old bits mask => ⟨rfl, fun i hi => getLsbD_merge old bits mask hi⟩

/-- The mask of ones of a register's width (R133). -/
def fullMask (g : ShadowReg) : Word24 := BitVec.ofNat 24 (2 ^ g.width - 1)

theorem fullMask_eq (g : ShadowReg) : (if g.reg = .mode ∨ g.reg = .gain then 0xFFFF else 0xFFFFFF) = fullMask g := by
  cases g <;> rfl

theorem fits_fullMask (g : ShadowReg) : fits g (fullMask g) = true := by cases g <;> rfl

theorem getLsbD_fullMask (g : ShadowReg) {i : Nat} (hi : i < 24) : (fullMask g).getLsbD i = decide (i < g.width) := by
  rw [fullMask, BitVec.getLsbD_ofNat, Nat.testBit_two_pow_sub_one, decide_eq_true hi, Bool.true_and]

/-- A value that fits a register has no bit at or above the register's width (R132). -/
theorem getLsbD_of_fits {g : ShadowReg} {v : Word24} (hv : fits g v = true) {i : Nat} (hi : g.width ≤ i) :
    v.getLsbD i = false :=
  Nat.testBit_lt_two_pow (Nat.lt_of_lt_of_le (of_decide_eq_true hv) (Nat.pow_le_pow_right (by decide) hi))

/-- A masked update with all of the register's width is the new bits (R131 (b)). -/
theorem merge_fullMask {g : ShadowReg} {old v : Word24} (ho : fits g old = true) (hv : fits g v = true) :
    merge old v (fullMask g) = v := by
  refine BitVec.eq_of_getLsbD_eq fun i hi => ?_
  rw [getLsbD_merge _ _ _ hi, getLsbD_fullMask g hi]
  by_cases hw : i < g.width
  · rw [if_pos (decide_eq_true hw)]
  · rw [if_neg (by simpa using hw), getLsbD_of_fits ho (Nat.le_of_not_lt hw), getLsbD_of_fits hv (Nat.le_of_not_lt hw)]

/-! ### SETFLD and WRREG of a shadowed register -/

/-- SETFLD of operands that fit stores the masked update (R131). -/
theorem doSetfld_reg {g : ShadowReg} {bits mask : Word24} (hm : fits g mask = true) (hb : fits g bits = true) (s : State) :
    doSetfld (.reg g.reg) bits mask s =
      storeRegister g (merge (readShadow g s) bits mask) ((merge (readShadow g s) bits mask).setWidth 64) s := by
  simp [doSetfld, checkSetfld, hm, hb, updateField]

/-- SETFLD of an operand that does not fit is refused (R132). -/
theorem doSetfld_unfit {g : ShadowReg} {bits mask : Word24} (h : ¬ (fits g mask = true ∧ fits g bits = true)) (s : State) :
    doSetfld (.reg g.reg) bits mask s = respond (.error .invalidRegister) s := by
  have hcheck : checkSetfld (.reg g.reg) bits mask = .error .invalidRegister := by
    by_cases hm : fits g mask = true
    · have hb : fits g bits = false := by simpa [hm] using h
      simp [checkSetfld, hm, hb]
    · simp [checkSetfld, hm]
  simp [doSetfld, hcheck]

/-- A stored value that fits reads back, whatever the bus answers (R131). -/
theorem readShadow_storeRegister {g : ShadowReg} {v : Word24} (hv : fits g v = true) (payload : Word64) (s : State) :
    readShadow g (storeRegister g v payload s) = v := by
  obtain ⟨x, bytes, hstore⟩ := storeRegister_cases g v payload s
  rw [hstore, readShadow_respond, readShadow_afterTransaction, readShadow_writeShadow g v s hv]

/-- Settles O26: SETFLD is `storeRegister` of the masked update, which fits as the shadow and the bits do. -/
theorem setfldUpdatesAndWrites : Obligations.SetfldUpdatesAndWrites := by
  unfold Obligations.SetfldUpdatesAndWrites
  intro g bits mask s hs hmask hbits new
  have hb : fits g bits = true := decide_eq_true hbits
  have hnew : fits g new = true := fits_merge (fits_readShadow g s) hb
  have hexec : exec (.setfld (.reg g.reg) bits mask) s = .next (storeRegister g new (new.setWidth 64) s) := by
    rw [exec_setfld, hostOp_idle _ _ hs, doSetfld_reg (decide_eq_true hmask) hb]
    rfl
  rw [hexec]
  exact ⟨of_decide_eq_true hnew, fun hall => by rw [storeRegister_all g new _ s hnew hall],
    fun k hk hfail => by rw [storeRegister_fails g new _ s hnew k (Nat.lt_succ_of_le hk) hfail]⟩

/-- Settles O27: an answer OK or `BusError` comes from a store of the masked update, the refusal being another error. -/
theorem setfldFrame : Obligations.SetfldFrame := by
  unfold Obligations.SetfldFrame
  intro g bits mask s t h hresponse
  rcases hostOp_cases (doSetfld (.reg g.reg) bits mask) s with ⟨-, hidle⟩ | ⟨-, hbusy⟩
  · rw [exec_setfld, hidle] at h
    cases h
    by_cases hfits : fits g mask = true ∧ fits g bits = true
    · obtain ⟨hm, hb⟩ := hfits
      rw [doSetfld_reg hm hb, readShadow_storeRegister (fits_merge (fits_readShadow g s) hb)]
      exact ⟨merge_and_not_mask _ _ _, merge_and_mask _ _ _, fun g' hg => readShadow_storeRegister_ne hg.symm _ _ s,
        ctx_storeRegister _ _ _ s⟩
    · rw [doSetfld_unfit hfits] at hresponse
      simp at hresponse
  · rw [exec_setfld, hbusy] at h
    cases h

/-! ### WRREG as a special case of SETFLD -/

/-- The payload of a store shows in its OK response alone (R133). -/
theorem storeRegister_respond {g : ShadowReg} {v : Word24} (hv : fits g v = true) (s : State) :
    ∃ w, (∀ payload, storeRegister g v payload s = respond (.ok payload) w) ∨
      (∀ payload, storeRegister g v payload s = respond (.error .busError) w) := by
  rcases allAnswered_or_failsAt s (g.width / 8 + 1) with hall | ⟨k, hk, hfail⟩
  · exact ⟨_, .inl fun payload => storeRegister_all g v payload s hv hall⟩
  · exact ⟨_, .inr fun payload => storeRegister_fails g v payload s hv k hk hfail⟩

/-- Two results of an operation that differ at most in what an OK response carries: `p` in the one, `q` in the other. -/
def SameButPayload (p q : Word64) (t u : State) : Prop :=
  ∃ w, (∃ e, t = respond (.error e) w ∧ u = respond (.error e) w) ∨ (t = respond (.ok p) w ∧ u = respond (.ok q) w)

/-- What two such results have in common: state, bus record and errors. -/
theorem SameButPayload.same {p q : Word64} {t u : State} (h : SameButPayload p q t u) :
    { u with response := none } = { t with response := none } ∧
    (∀ e, t.response = some (.error e) ↔ u.response = some (.error e)) ∧
    (t.response = some (.ok p) ↔ u.response = some (.ok q)) := by
  obtain ⟨w, ⟨e, rfl, rfl⟩ | ⟨rfl, rfl⟩⟩ := h
  · exact ⟨rfl, fun _ => Iff.rfl, by simp⟩
  · exact ⟨rfl, by simp, by simp⟩

/-- WRREG of a shadowed register, and SETFLD of it with the mask of ones: both refuse the value, or both store it. -/
theorem sameButPayload_fullMask (g : ShadowReg) (v : Word24) (s : State) :
    SameButPayload 0 (v.setWidth 64) (doWrreg (.reg g.reg) v s) (doSetfld (.reg g.reg) v (fullMask g) s) := by
  by_cases hv : fits g v = true
  · have hwrreg : doWrreg (.reg g.reg) v s = storeRegister g v 0 s := by simp [doWrreg, checkWrreg, hv]
    have hsetfld := doSetfld_reg (fits_fullMask g) hv s
    rw [merge_fullMask (fits_readShadow g s) hv] at hsetfld
    rw [hwrreg, hsetfld]
    obtain ⟨w, hok | herr⟩ := storeRegister_respond hv s
    · exact ⟨w, .inr ⟨hok _, hok _⟩⟩
    · exact ⟨w, .inl ⟨_, herr _, herr _⟩⟩
  · exact ⟨s, .inl ⟨.invalidRegister, by simp [doWrreg, checkWrreg, hv], doSetfld_unfit (fun hfits => hv hfits.2) s⟩⟩

/-- A register with no shadow is refused by both, whatever the mask (R110). -/
theorem sameButPayload_unshadowed {sel : Sel} {e : Err} (he : shadowedReg sel = .error e) (v mask : Word24) (s : State) :
    SameButPayload 0 (v.setWidth 64) (doWrreg sel v s) (doSetfld sel v mask s) :=
  ⟨s, .inl ⟨e, by simp [doWrreg, checkWrreg, he], by simp [doSetfld, checkSetfld, he]⟩⟩

/-- Settles O28: on an idle block the two differ in the OK payload alone, register by register; a busy one takes neither. -/
theorem wrregIsFullMaskSetfld : Obligations.WrregIsFullMaskSetfld := by
  unfold Obligations.WrregIsFullMaskSetfld
  intro r v s t u hwrreg hsetfld
  rcases hostOp_cases (doWrreg (.reg r) v) s with ⟨hs, hidle⟩ | ⟨-, hbusy⟩
  · rw [exec_wrreg, hidle] at hwrreg
    rw [exec_setfld, hostOp_idle _ _ hs] at hsetfld
    cases hwrreg
    cases hsetfld
    cases hr : shadowedReg (.reg r) with
    | error e => exact (sameButPayload_unshadowed hr v _ s).same
    | ok g =>
      cases (shadowedReg_ok_iff _ g).1 hr
      rw [fullMask_eq]
      exact (sameButPayload_fullMask g v s).same
  · rw [exec_wrreg, hbusy] at hwrreg
    cases hwrreg

end Sys2Proof.Machine
end

section
/-! PROOFS. The arithmetic of the Conversion Engine: the two transfer functions, their bounds and their order
(spec/43_conversion.md R146 to R149, R151 to R153). -/

namespace Sys2Proof.Machine

/-! ### The transfer functions -/

/-- What the signed code is scaled by in the bipolar numerator (R146): the range, the reference span, the unit. -/
def bipolarScale (cfg : Cfg) (x : Ctx) : ℤ := x.range.toNat * (x.refPlus.toInt - x.refMinus.toInt) * cfg.pvPerMv

theorem toVoltage_bipolar {x : Ctx} (hx : x.polarity = .bipolar) (cfg : Cfg) (c : Nat) :
    toVoltage cfg x c =
      ((c : ℤ) - 2 ^ (x.wordLength.bits - 1)) * bipolarScale cfg x / (2 ^ (x.wordLength.bits - 1) * cfg.refNominalMv)
        + offsetPv cfg x := by
  simp only [toVoltage, hx, bipolarVoltage, bipolarScale, mul_assoc]

theorem toVoltage_unipolar {x : Ctx} (hx : x.polarity = .unipolar) (cfg : Cfg) (c : Nat) :
    toVoltage cfg x c = c * (x.range.toNat * cfg.pvPerMv) / (2 ^ x.wordLength.bits - 1) := by
  simp only [toVoltage, hx, unipolarVoltage, mul_assoc]

theorem offsetPv_eq (cfg : Cfg) (x : Ctx) :
    offsetPv cfg x = if cfg.offsetMode = .zero then 0 else x.refMinus.toInt * cfg.pvPerMv := by
  cases h : cfg.offsetMode <;> simp [offsetPv, h]

/-- The codes of a word length, as an integer power and as twice mid-scale. -/
theorem two_pow_bits (w : WordLength) : (2 : ℤ) ^ w.bits = 2 * 2 ^ (w.bits - 1) := by cases w <;> rfl

theorem unipolarDivisor_pos (w : WordLength) : (0 : ℤ) < 2 ^ w.bits - 1 := by cases w <;> decide

theorem bipolarDivisor_pos {cfg : Cfg} (href : 1 ≤ cfg.refNominalMv) (w : WordLength) :
    (0 : ℤ) < 2 ^ (w.bits - 1) * cfg.refNominalMv := mul_pos (by positivity) (by exact_mod_cast href)

/-- Settles O32: the integer quotient of R146 is the floor of the exact one. -/
theorem bipolarTransfer : Obligations.BipolarTransfer := by
  unfold Obligations.BipolarTransfer
  intro cfg x c hx _
  have hfloor := Rat.floor_intCast_div_natCast (((c : ℤ) - 2 ^ (x.wordLength.bits - 1)) * bipolarScale cfg x)
    (2 ^ (x.wordLength.bits - 1) * cfg.refNominalMv)
  push_cast at hfloor
  rw [toVoltage_bipolar hx, offsetPv_eq, ← hfloor]
  push_cast [bipolarScale]
  simp only [mul_assoc]

/-- Settles O33: the integer quotient of R148 is the floor of the exact one. -/
theorem unipolarTransfer : Obligations.UnipolarTransfer := by
  unfold Obligations.UnipolarTransfer
  intro cfg x c hx
  have hfloor := Rat.floor_intCast_div_natCast (c * (x.range.toNat * cfg.pvPerMv)) (2 ^ x.wordLength.bits - 1)
  push_cast [Nat.one_le_two_pow] at hfloor
  rw [toVoltage_unipolar hx, ← hfloor]
  push_cast
  simp only [mul_assoc]

/-! ### Offset binary -/

/-- Inverting the top bit of a number of `k + 1` bits takes it half a turn on. -/
theorem xor_two_pow_top {k c : Nat} (hc : c < 2 ^ (k + 1)) :
    c ^^^ 2 ^ k = if c < 2 ^ k then c + 2 ^ k else c - 2 ^ k := by
  have hmod : (c ^^^ 2 ^ k) % 2 ^ k = c % 2 ^ k := by rw [Nat.xor_mod_two_pow, Nat.mod_self, Nat.xor_zero]
  have hdiv : (c ^^^ 2 ^ k) / 2 ^ k = c / 2 ^ k ^^^ 1 := by rw [Nat.xor_div_two_pow, Nat.div_self (by positivity)]
  have hsplit := Nat.div_add_mod (c ^^^ 2 ^ k) (2 ^ k)
  rw [hmod, hdiv] at hsplit
  split
  case isTrue hlow =>
    rw [Nat.div_eq_of_lt hlow, Nat.mod_eq_of_lt hlow] at hsplit
    simpa [Nat.add_comm] using hsplit.symm
  case isFalse hhigh =>
    have hone : c / 2 ^ k = 1 := Nat.div_eq_of_lt_le (by omega) (by omega)
    rw [hone] at hsplit
    rw [← hsplit, Nat.mod_eq_sub_mod (by omega), Nat.mod_eq_of_lt (by omega)]
    simp

/-- A code with its top bit inverted, read as two's complement, is the code less mid-scale (R149). -/
theorem toInt_xor_top {k c : Nat} (hc : c < 2 ^ (k + 1)) :
    (BitVec.ofNat (k + 1) c ^^^ BitVec.ofNat (k + 1) (2 ^ k)).toInt = (c : ℤ) - 2 ^ k := by
  have hk : 2 ^ k < 2 ^ (k + 1) := Nat.pow_lt_pow_right (by decide) (by omega)
  have hcast : (2 : ℤ) ^ k = (2 ^ k : ℕ) := by push_cast; rfl
  rw [BitVec.toInt_eq_toNat_cond, BitVec.toNat_xor, BitVec.toNat_ofNat, BitVec.toNat_ofNat, Nat.mod_eq_of_lt hc,
    Nat.mod_eq_of_lt hk, xor_two_pow_top hc, hcast]
  rw [Nat.pow_succ] at hc ⊢
  generalize 2 ^ k = m at hc ⊢
  split <;> split <;> omega

/-- Settles O34: the signed code of R149 is that of R146. -/
theorem offsetBinaryReading : Obligations.OffsetBinaryReading := by
  unfold Obligations.OffsetBinaryReading
  intro cfg x c hx href hc
  have hbits : x.wordLength.bits - 1 + 1 = x.wordLength.bits := by cases x.wordLength <;> rfl
  have hsigned := toInt_xor_top (hbits ▸ hc)
  rw [hbits] at hsigned
  intro signed
  have hs : signed = (c : ℤ) - 2 ^ (x.wordLength.bits - 1) := hsigned
  refine ⟨hs, fun h0 => by simp [hs, h0], ?_⟩
  rw [hs]
  exact bipolarTransfer cfg x c hx href

/-! ### Bounds -/

/-- A quotient is as small as the bound that its numerator keeps times the divisor. -/
theorem abs_ediv_le {n d b : ℤ} (hd : 0 < d) (h : |n| ≤ b * d) : |n / d| ≤ b := by
  obtain ⟨hlo, hhi⟩ := abs_le.1 h
  exact abs_le.2 ⟨(Int.le_ediv_iff_mul_le hd).2 (by rwa [neg_mul]), Int.ediv_le_of_le_mul hd hhi⟩

/-- The reference span of R146. -/
theorem span_le (x : Ctx) : x.refPlus.toInt - x.refMinus.toInt ≤ 65535 := by
  have hplus := x.refPlus.toInt_lt
  have hminus := x.refMinus.le_toInt
  omega

theorem bipolarScale_nonneg {x : Ctx} (hspan : x.refMinus.toInt < x.refPlus.toInt) (cfg : Cfg) :
    0 ≤ bipolarScale cfg x := by
  have : 0 ≤ x.refPlus.toInt - x.refMinus.toInt := by omega
  unfold bipolarScale
  positivity

/-- The scale of the bipolar numerator, for ranges of at most `r` millivolts. -/
theorem bipolarScale_le {cfg : Cfg} {x : Ctx} {r : ℤ} (hr : (x.range.toNat : ℤ) ≤ r) :
    bipolarScale cfg x ≤ r * 65535 * cfg.pvPerMv := by
  have hspan := span_le x
  have hprod : (x.range.toNat : ℤ) * (x.refPlus.toInt - x.refMinus.toInt) ≤ r * 65535 :=
    calc (x.range.toNat : ℤ) * (x.refPlus.toInt - x.refMinus.toInt)
        ≤ x.range.toNat * 65535 := mul_le_mul_of_nonneg_left hspan (by positivity)
      _ ≤ r * 65535 := mul_le_mul_of_nonneg_right hr (by norm_num)
  exact mul_le_mul_of_nonneg_right hprod (by positivity)

/-- A bipolar voltage less its offset is at most the full scale, which is the scale over the nominal reference (R152). -/
theorem abs_bipolar_sub_offset_le {cfg : Cfg} {x : Ctx} {c : Nat} {b : ℤ} (hx : x.polarity = .bipolar)
    (hspan : x.refMinus.toInt < x.refPlus.toInt) (href : 1 ≤ cfg.refNominalMv) (hc : c < 2 ^ x.wordLength.bits)
    (hb : bipolarScale cfg x ≤ b * cfg.refNominalMv) : |toVoltage cfg x c - offsetPv cfg x| ≤ b := by
  have hc' : (c : ℤ) < 2 * 2 ^ (x.wordLength.bits - 1) := by rw [← two_pow_bits]; exact_mod_cast hc
  have hsigned : |(c : ℤ) - 2 ^ (x.wordLength.bits - 1)| ≤ 2 ^ (x.wordLength.bits - 1) :=
    abs_le.2 ⟨by omega, by omega⟩
  rw [toVoltage_bipolar hx, add_sub_cancel_right]
  apply abs_ediv_le (bipolarDivisor_pos href _)
  rw [abs_mul, abs_of_nonneg (bipolarScale_nonneg hspan cfg), mul_left_comm]
  exact mul_le_mul hsigned hb (bipolarScale_nonneg hspan cfg) (by positivity)

/-- A unipolar voltage is within the range (R148). -/
theorem abs_unipolar_le {cfg : Cfg} {x : Ctx} {c : Nat} (hx : x.polarity = .unipolar) (hc : c < 2 ^ x.wordLength.bits) :
    |toVoltage cfg x c| ≤ x.range.toNat * cfg.pvPerMv := by
  have hc' : (c : ℤ) ≤ 2 ^ x.wordLength.bits - 1 := Int.le_sub_one_of_lt (by exact_mod_cast hc)
  rw [toVoltage_unipolar hx]
  apply abs_ediv_le (unipolarDivisor_pos _)
  rw [abs_of_nonneg (by positivity), mul_comm]
  exact mul_le_mul_of_nonneg_left hc' (by positivity)

theorem abs_offsetPv_le (cfg : Cfg) (x : Ctx) : |offsetPv cfg x| ≤ 32768 * cfg.pvPerMv := by
  have hlo := x.refMinus.le_toInt
  have hhi := x.refMinus.toInt_lt
  rw [offsetPv_eq]
  split
  · rw [abs_zero]; positivity
  · rw [abs_mul, Nat.abs_cast]
    exact mul_le_mul_of_nonneg_right (abs_le.2 ⟨by omega, by omega⟩) (by positivity)

/-- The bound of R152 for any nominal reference. -/
theorem abs_toVoltage_le {cfg : Cfg} {x : Ctx} {c : Nat} (hpv : cfg.pvPerMv = 10 ^ 9)
    (hspan : x.refMinus.toInt < x.refPlus.toInt) (href : 1 ≤ cfg.refNominalMv) (hc : c < 2 ^ x.wordLength.bits) :
    |toVoltage cfg x c| ≤ 65535 * 65535 * 10 ^ 9 + 32768 * 10 ^ 9 := by
  have hr : (x.range.toNat : ℤ) ≤ 65535 := by have := x.range.isLt; omega
  cases hx : x.polarity with
  | unipolar =>
    have hv := abs_unipolar_le (cfg := cfg) hx hc
    rw [hpv] at hv
    push_cast at hv
    omega
  | bipolar =>
    have hscale : bipolarScale cfg x ≤ 65535 * 65535 * 10 ^ 9 := by simpa [hpv] using bipolarScale_le (cfg := cfg) hr
    have href' : (1 : ℤ) ≤ cfg.refNominalMv := by exact_mod_cast href
    have hv := abs_bipolar_sub_offset_le hx hspan href hc (hscale.trans (le_mul_of_one_le_right (by norm_num) href'))
    have ho := abs_offsetPv_le cfg x
    rw [hpv] at ho
    push_cast at ho
    have hsum := abs_add_le (toVoltage cfg x c - offsetPv cfg x) (offsetPv cfg x)
    rw [sub_add_cancel] at hsum
    omega

/-- The bound of R152 for the default parameters: a nominal reference of 2500 mV divides the unit of 10^9. -/
theorem abs_toVoltage_default_le {cfg : Cfg} {x : Ctx} {c : Nat} (hpv : cfg.pvPerMv = 10 ^ 9)
    (hspan : x.refMinus.toInt < x.refPlus.toInt) (href : cfg.refNominalMv = 2500) (hoff : cfg.offsetMode = .zero)
    (hr : x.range.toNat ≤ 1280) (hc : c < 2 ^ x.wordLength.bits) :
    |toVoltage cfg x c| ≤ 1280 * 65535 * 400000 := by
  have hr' : (x.range.toNat : ℤ) ≤ 1280 := by exact_mod_cast hr
  cases hx : x.polarity with
  | unipolar =>
    have hv := abs_unipolar_le (cfg := cfg) hx hc
    rw [hpv] at hv
    push_cast at hv
    omega
  | bipolar =>
    have hscale : bipolarScale cfg x ≤ 1280 * 65535 * 400000 * cfg.refNominalMv := by
      simpa [hpv, href] using bipolarScale_le (cfg := cfg) hr'
    have hv := abs_bipolar_sub_offset_le hx hspan (by omega) hc hscale
    simpa [offsetPv_eq, hoff] using hv

/-- The greatest of the eight default range steps (R9). -/
theorem defaultRange_le {r : Word16} (h : r ∈ Cfg.default.rangeSet) : r.toNat ≤ 1280 := by
  have hall : Cfg.default.rangeSet.all (fun r => decide (r.toNat ≤ 1280)) = true := by decide
  exact of_decide_eq_true (List.all_eq_true.1 hall r h)

/-- Settles O35: the two bounds, each below the limits of an s64. -/
theorem voltageNeverOverflows : Obligations.VoltageNeverOverflows := by
  unfold Obligations.VoltageNeverOverflows
  intro cfg x c hpv hspan href hc
  have hbound := abs_toVoltage_le hpv hspan href hc
  obtain ⟨hlo, hhi⟩ := abs_le.1 hbound
  refine ⟨hbound, voltagePayload_toInt (by omega) (by omega), fun hset href' hoff hrange => ?_⟩
  have hdefault := abs_toVoltage_default_le hpv hspan href' hoff (defaultRange_le (hset ▸ hrange)) hc
  exact ⟨by omega, by omega⟩

/-! ### Order -/

/-- A whole divisor more in the numerator is more in the quotient. -/
theorem ediv_lt_ediv_of_add_le {a b d : ℤ} (hd : 0 < d) (h : a + d ≤ b) : a / d < b / d :=
  calc a / d < a / d + 1 := Int.lt_succ _
    _ = (a + d) / d := by rw [Int.add_ediv_of_dvd_right (dvd_refl d), Int.ediv_self hd.ne']
    _ ≤ b / d := Int.ediv_le_ediv hd h

/-- A greater code gives a numerator greater by a code step or more. -/
theorem mul_add_le_mul_of_lt {m n k : ℤ} (hk : 0 ≤ k) (h : m < n) : m * k + k ≤ n * k :=
  calc m * k + k = (m + 1) * k := by ring
    _ ≤ n * k := mul_le_mul_of_nonneg_right h hk

/-- What R153 (a) says of every context: the numerator does not decrease, and floor keeps the order. -/
theorem toVoltage_mono {cfg : Cfg} {x : Ctx} {c d : Nat} (hspan : x.refMinus.toInt < x.refPlus.toInt)
    (href : 1 ≤ cfg.refNominalMv) (h : c ≤ d) : toVoltage cfg x c ≤ toVoltage cfg x d := by
  have h' : (c : ℤ) ≤ d := by exact_mod_cast h
  cases hx : x.polarity with
  | unipolar =>
    rw [toVoltage_unipolar hx, toVoltage_unipolar hx]
    exact Int.ediv_le_ediv (unipolarDivisor_pos _) (mul_le_mul_of_nonneg_right h' (by positivity))
  | bipolar =>
    rw [toVoltage_bipolar hx, toVoltage_bipolar hx]
    exact add_le_add_left (Int.ediv_le_ediv (bipolarDivisor_pos href _)
      (mul_le_mul_of_nonneg_right (sub_le_sub_right h' _) (bipolarScale_nonneg hspan cfg))) _

theorem unipolar_strictMono {cfg : Cfg} {x : Ctx} {c d : Nat} (hx : x.polarity = .unipolar)
    (hstep : (2 : ℤ) ^ x.wordLength.bits - 1 ≤ x.range.toNat * cfg.pvPerMv) (h : c < d) :
    toVoltage cfg x c < toVoltage cfg x d := by
  have h' : (c : ℤ) < d := by exact_mod_cast h
  rw [toVoltage_unipolar hx, toVoltage_unipolar hx]
  exact ediv_lt_ediv_of_add_le (unipolarDivisor_pos _)
    ((add_le_add_right hstep _).trans (mul_add_le_mul_of_lt (by positivity) h'))

theorem bipolar_strictMono {cfg : Cfg} {x : Ctx} {c d : Nat} (hx : x.polarity = .bipolar) (href : 1 ≤ cfg.refNominalMv)
    (hstep : 2 ^ (x.wordLength.bits - 1) * (cfg.refNominalMv : ℤ) ≤ bipolarScale cfg x) (h : c < d) :
    toVoltage cfg x c < toVoltage cfg x d := by
  have hpos := bipolarDivisor_pos href x.wordLength
  have h' : (c : ℤ) - 2 ^ (x.wordLength.bits - 1) < d - 2 ^ (x.wordLength.bits - 1) :=
    sub_lt_sub_right (by exact_mod_cast h) _
  rw [toVoltage_bipolar hx, toVoltage_bipolar hx]
  exact add_lt_add_left (ediv_lt_ediv_of_add_le hpos
    ((add_le_add_right hstep _).trans (mul_add_le_mul_of_lt (hpos.le.trans hstep) h'))) _

/-- A code step of the smallest unipolar range is a picovolt or more (R145). -/
theorem unipolar_step_le {r p : Nat} (hr : 10 ≤ r) (hp : 10 ^ 9 ≤ p) (w : WordLength) :
    (2 : ℤ) ^ w.bits - 1 ≤ r * p := by
  have hprod : 10 * 10 ^ 9 ≤ r * p := Nat.mul_le_mul hr hp
  have hw : (2 : ℤ) ^ w.bits - 1 ≤ 10 * 10 ^ 9 := by cases w <;> decide
  exact hw.trans (by exact_mod_cast hprod)

/-- The narrowest bipolar context that SETCTX accepts with the default parameters: a code step is less than a picovolt
(log 19). -/
def narrowCtx : Ctx where
  valid := true
  wordLength := .w24
  polarity := .bipolar
  range := 10
  refMinus := 0
  refPlus := 1

/-- Settles O36: a code step adds its size to the numerator; in `narrowCtx` that is too little at mid-scale. -/
theorem voltageMonotone : Obligations.VoltageMonotone := by
  unfold Obligations.VoltageMonotone
  refine ⟨fun cfg x c d hspan href h => ⟨toVoltage_mono hspan href h.le, fun hx hr hp => ?_, fun hx hstep => ?_⟩,
    narrowCtx, 2 ^ 23, by decide, rfl, by decide, by decide⟩
  · exact unipolar_strictMono hx (unipolar_step_le hr hp _) h
  · exact bipolar_strictMono hx href hstep h

/-! ### End points -/

theorem toVoltage_midScale {cfg : Cfg} {x : Ctx} (hx : x.polarity = .bipolar) :
    toVoltage cfg x (2 ^ (x.wordLength.bits - 1)) = offsetPv cfg x := by simp [toVoltage_bipolar hx]

theorem toVoltage_fullScale {cfg : Cfg} {x : Ctx} (hx : x.polarity = .unipolar) :
    toVoltage cfg x (2 ^ x.wordLength.bits - 1) = x.range.toNat * cfg.pvPerMv := by
  rw [toVoltage_unipolar hx, Nat.cast_sub Nat.one_le_two_pow]
  push_cast
  exact Int.mul_ediv_cancel_left _ (unipolarDivisor_pos _).ne'

/-- Settles O37: the first code is 0, the last is the divisor itself, and mid-scale leaves the offset alone. -/
theorem voltageEndPoints : Obligations.VoltageEndPoints := by
  unfold Obligations.VoltageEndPoints
  refine fun cfg x => ⟨fun hx => ⟨?_, toVoltage_fullScale hx⟩, fun hx hoff => ?_, fun hx hoff => ?_⟩
  · simp [toVoltage_unipolar hx]
  · rw [toVoltage_midScale hx, offsetPv, hoff]
  · rw [toVoltage_midScale hx, offsetPv, hoff]

end Sys2Proof.Machine
end

section
/-! PROOFS. The Conversion Engine's operations on an idle block: SETCTX, GETCTX, CONVERT and RDVOLT
(spec/43_conversion.md R141 to R143, R150). -/

namespace Sys2Proof.Machine

/-! ### The context -/

/-- SETCTX's check (R141). -/
theorem contextOk_iff (cfg : Cfg) (range refMinus refPlus : Word16) :
    contextOk cfg range refMinus refPlus = true ↔ range ∈ cfg.rangeSet ∧ refMinus.toInt < refPlus.toInt := by
  simp [contextOk]

/-- Settles O29: both sides of the check. -/
theorem setctxLoadsContext : Obligations.SetctxLoadsContext := by
  unfold Obligations.SetctxLoadsContext
  intro range pol refMinus refPlus wl s hs
  rw [← contextOk_iff, exec_setctx, hostOp_idle _ _ hs]
  refine ⟨fun hok => ?_, fun hbad => ?_⟩
  · rw [doSetctx, if_pos hok, reply_eq_respond]
  · rw [doSetctx, if_neg hbad, raise_eq_respond]

/-- GETCTX's payload field by field (R142). -/
theorem contextPayload_of_valid {x : Ctx} (hv : x.valid = true) :
    contextPayload x = BitVec.ofNat 64 (2 ^ 50 + (if x.wordLength = .w24 then 2 ^ 49 else 0)
      + (if x.polarity = .unipolar then 2 ^ 48 else 0)
      + x.range.toNat * 2 ^ 32 + x.refPlus.toNat * 2 ^ 16 + x.refMinus.toNat) := by
  have hwl : x.wordLength.code.toNat * 2 ^ 49 = if x.wordLength = .w24 then 2 ^ 49 else 0 := by
    cases x.wordLength <;> rfl
  have hpol : x.polarity.code.toNat * 2 ^ 48 = if x.polarity = .unipolar then 2 ^ 48 else 0 := by
    cases x.polarity <;> rfl
  have hbit : (1 : BitVec 1).toNat = 1 := rfl
  rw [contextPayload, if_pos hv, ← hwl, ← hpol]
  apply BitVec.eq_of_toNat_eq
  simp only [BitVec.toNat_setWidth, BitVec.toNat_ofNat, toNat_concat, hbit]
  omega

/-- Settles O30: GETCTX answers `contextPayload`. -/
theorem getctxAnswersContext : Obligations.GetctxAnswersContext := by
  unfold Obligations.GetctxAnswersContext
  intro s hs
  rw [exec_getctx, hostOp_idle _ _ hs, doGetctx, reply_eq_respond]
  split
  case isTrue hv => rw [contextPayload_of_valid hv]
  case isFalse hv => rw [contextPayload, if_neg hv]

/-! ### The conversions -/

/-- CONVERT of a code that the checks refuse raises their error (R143). -/
theorem exec_convert_error {c : Nat} {e : Err} {s : State} (hs : s.seq = .idle) (he : checkConvert s.ctx c = .error e) :
    exec (.convert c) s = .next (respond (.error e) s) := by
  rw [exec_convert, hostOp_idle _ _ hs]
  simp only [doConvert, he, raise_eq_respond]

/-- Settles O31: the branches of `checkConvert`, in its order. -/
theorem convertAnswersVoltage : Obligations.ConvertAnswersVoltage := by
  unfold Obligations.ConvertAnswersVoltage
  intro c s hs
  refine ⟨fun hv => exec_convert_error hs ?_, fun hv hc => exec_convert_error hs ?_,
    fun hv hc => ⟨voltagePayload s.cfg s.ctx c, ?_, voltagePayload_toInt⟩⟩
  · simp [checkConvert, hv]
  · simp [checkConvert, hv, hc]
  · have hcheck : checkConvert s.ctx c = .ok () := by simp [checkConvert, hv, hc]
    rw [exec_convert, hostOp_idle _ _ hs]
    simp only [doConvert, hcheck, reply_eq_respond]

/-- RDVOLT with a context loaded reads Data and answers the payload of what it read (R150). -/
theorem exec_rdvolt_valid {s : State} (hs : s.seq = .idle) (hv : s.ctx.valid = true) :
    exec .rdvolt s =
      .next (loadRegister .data (fun acc t => reply (voltagePayload t.cfg t.ctx acc.toNat) t) s) := by
  rw [exec_rdvolt, hostOp_idle _ _ hs, doRdvolt, if_pos hv]

/-- Settles O38: RDVOLT is `loadRegister` of Data, which a whole read takes to the conversion. -/
theorem rdvoltReadsAndConverts : Obligations.RdvoltReadsAndConverts := by
  unfold Obligations.RdvoltReadsAndConverts
  intro s hs
  refine ⟨fun hv => ?_, fun hv hall => ⟨voltagePayload s.cfg s.ctx (s.readValue (nbytes s.ctx .data)), ?_,
    voltagePayload_toInt⟩, fun k hv hk hfail => ?_⟩
  · rw [exec_rdvolt, hostOp_idle _ _ hs, doRdvolt, hv, if_neg Bool.false_ne_true, raise_eq_respond]
  · rw [exec_rdvolt_valid hs hv, loadRegister_all _ _ _ hall, reply_eq_respond, toNat_readValue]
    rfl
  · have hk' : k < nbytes s.ctx .data + 1 := Nat.lt_succ_of_le hk
    rw [exec_rdvolt_valid hs hv, loadRegister_fails _ _ _ k hk' hfail]
    rfl

end Sys2Proof.Machine
end

section
/-! PROOFS. The Mode State Machine: the mode as a view of `shadow[Mode]`, the flags of Status, and the polls of WAITRDY
(spec/44_mode_state_machine.md R170 to R177). -/

namespace Sys2Proof.Machine

/-! ### The MD field -/

/-- Settles O40: the default field is bits 15 to 13, and each code stands there. -/
theorem defaultModeCodes : Obligations.DefaultModeCodes := by
  unfold Obligations.DefaultModeCodes
  decide

/-- The bits of a mode lie in the MD field (R170). -/
theorem mdBits_and_mdMask (cfg : Cfg) (m : ModeState) : mdBits cfg m &&& mdMask cfg = mdBits cfg m := by
  have hseven : ∀ code : BitVec 3, (code.setWidth 16 : Word16) &&& 7 = code.setWidth 16 := by decide
  rw [mdBits, mdMask, ← BitVec.shiftLeft_and_distrib, hseven]

/-- `shadow[Mode]` after a request of a mode (R172). -/
def requestMode (cfg : Cfg) (m : ModeState) (old : Word16) : Word16 := merge old (mdBits cfg m) (mdMask cfg)

theorem requestMode_eq (cfg : Cfg) (m : ModeState) (old : Word16) :
    requestMode cfg m old = (old &&& ~~~mdMask cfg) ||| mdBits cfg m := by
  rw [requestMode, merge, mdBits_and_mdMask]

/-- A masked update of a 16-bit register may be made within 24 bits (R130). -/
theorem merge_setWidth (old bits mask : Word16) :
    merge (old.setWidth 24 : Word24) (bits.setWidth 24) (mask.setWidth 24) = (merge old bits mask).setWidth 24 := by
  ext i hi
  by_cases h : i < 16
  · simp [merge, h]
  · simp [merge, BitVec.getLsbD_of_ge _ i (Nat.le_of_not_lt h)]

/-- Any state is requested from any other (R172): the view of the new Mode is the mode requested. -/
theorem modeState_requestMode {cfg : Cfg} (hw : cfg.wf = true) (m : ModeState) (old : Word16) :
    modeState cfg (requestMode cfg m old) = m := by
  have h := modeState_setmode hw m (old.setWidth 24)
  rwa [merge_setWidth, BitVec.setWidth_setWidth_of_le _ (by decide), BitVec.setWidth_eq] at h

/-- Every MD code is that of a mode: eight modes have eight different codes of three bits (R171). -/
theorem exists_mdCode_eq {cfg : Cfg} (hw : cfg.wf = true) (f : BitVec 3) : ∃ m, mdCode cfg.mdCodes m = f := by
  have hfinite : Finite (BitVec 3) := Finite.of_injective BitVec.toFin fun _ _ => BitVec.eq_of_toFin_eq
  have hinj : Function.Injective (mdCode cfg.mdCodes ∘ ModeState.ofOrdinal) := fun a b h => by
    have hmode : ModeState.ofOrdinal a = ModeState.ofOrdinal b := by
      rw [← mdDecode_mdCode hw (.ofOrdinal a), ← mdDecode_mdCode hw (.ofOrdinal b)]
      exact congrArg _ h
    rw [← ModeState.ordinal_ofOrdinal a, hmode, ModeState.ordinal_ofOrdinal]
  obtain ⟨b, hb⟩ := Finite.surjective_of_injective hinj f
  exact ⟨.ofOrdinal b, hb⟩

/-- The block's mode is the one mode whose code the MD field holds (R171, R173). -/
theorem modeState_eq_iff {cfg : Cfg} (hw : cfg.wf = true) (mode : Word16) (m : ModeState) :
    modeState cfg mode = m ↔ mdCode cfg.mdCodes m = mode.extractLsb' cfg.mdLo 3 := by
  obtain ⟨m', hm'⟩ := exists_mdCode_eq hw (mode.extractLsb' cfg.mdLo 3)
  rw [modeState, ← hm', mdDecode_mdCode hw]
  constructor
  · rintro rfl; rfl
  · intro h
    rw [← mdDecode_mdCode hw m', ← h, mdDecode_mdCode hw]

/-! ### SETMODE and GETMODE -/

/-- A value of 16 bits fits Mode (R132). -/
theorem fits_mode (v : Word16) : fits .mode (v.setWidth 24) = true := by
  rw [fits, BitVec.toNat_setWidth_of_le (by decide)]
  exact decide_eq_true v.isLt

/-- SETMODE stores the requested Mode (R172). -/
theorem exec_setmode_idle (m : ModeState) {s : State} (hs : s.seq = .idle) :
    exec (.setmode m) s =
      .next (storeRegister .mode ((requestMode s.cfg m s.mode).setWidth 24)
        ((requestMode s.cfg m s.mode).setWidth 64) s) := by
  rw [exec_setmode, hostOp_idle _ _ hs, doSetmode, updateField, readShadow, merge_setWidth, ← requestMode,
    BitVec.setWidth_setWidth (by decide)]

/-- SETMODE has stored the requested Mode, whatever the bus answered (R172). -/
theorem exec_setmode_next {m : ModeState} {s t : State} (h : exec (.setmode m) s = .next t) :
    t.seq = .idle ∧ t.cfg = s.cfg ∧ t.mode = requestMode s.cfg m s.mode := by
  rcases hostOp_cases (doSetmode m) s with ⟨hs, -⟩ | ⟨-, hbusy⟩
  · rw [exec_setmode_idle m hs] at h
    obtain ⟨x, bytes, hstore⟩ := storeRegister_cases .mode ((requestMode s.cfg m s.mode).setWidth 24)
      ((requestMode s.cfg m s.mode).setWidth 64) s
    rw [hstore] at h
    cases h
    simp
  · rw [exec_setmode, hbusy] at h
    cases h

/-- Settles O41: SETMODE is `storeRegister` of the requested Mode. -/
theorem setmodeRequestsMode : Obligations.SetmodeRequestsMode := by
  unfold Obligations.SetmodeRequestsMode
  intro m s hs new
  have hnew : requestMode s.cfg m s.mode = new := requestMode_eq _ _ _
  rw [exec_setmode_idle m hs, hnew]
  have hbytes : writeBytes s.cfg .mode 2 (new.setWidth 24) =
      [cmdByte s.cfg .write .mode, new.extractLsb' 8 8, new.extractLsb' 0 8] := by
    simp [writeBytes, wireBytes, BitVec.extractLsb'_setWidth_of_le]
  have hshadow : writeShadow .mode (new.setWidth 24) s = { s with mode := new } := by simp [writeShadow]
  rw [← hbytes, ← hshadow]
  exact ⟨fun hall => by rw [storeRegister_all _ _ _ s (fits_mode new) hall]; rfl,
    fun k hk hfail => by rw [storeRegister_fails _ _ _ s (fits_mode new) k (Nat.lt_succ_of_le hk) hfail]; rfl⟩

/-- GETMODE answers the ordinal of the block's mode (R173). -/
theorem exec_getmode_idle {s : State} {m : ModeState} (hs : s.seq = .idle) (hm : modeState s.cfg s.mode = m) :
    exec .getmode s = .next (respond (.ok (m.ordinal.setWidth 64)) s) := by
  rw [exec_getmode, hostOp_idle _ _ hs, doGetmode, hm, reply_eq_respond]

/-- Settles O42: the mode is the view `modeState` of Mode. -/
theorem getmodeAnswersMode : Obligations.GetmodeAnswersMode := by
  unfold Obligations.GetmodeAnswersMode
  intro s hs hw
  refine ⟨modeState s.cfg s.mode, (modeState_eq_iff hw _ _).1 rfl, fun m' h => ((modeState_eq_iff hw _ _).2 h).symm, ?_⟩
  rw [exec_getmode_idle hs rfl]
  cases modeState s.cfg s.mode <;> rfl

/-- Settles O43: the view of the requested Mode is the mode requested. -/
theorem getmodeAfterSetmode : Obligations.GetmodeAfterSetmode := by
  unfold Obligations.GetmodeAfterSetmode
  intro m s t u hw hset hget
  obtain ⟨hidle, hcfg, hmode⟩ := exec_setmode_next hset
  have hview : modeState t.cfg t.mode = m := by rw [hcfg, hmode, modeState_requestMode hw]
  rw [exec_getmode_idle hidle hview] at hget
  cases hget
  refine ⟨?_, ?_⟩
  · cases m <;> rfl
  · rw [hmode, requestMode, merge_and_not_mask]

/-! ### The environment after some `Xfer`s -/

theorem allAnswered_of_le {s : State} {m n : Nat} (h : s.allAnswered n) (hmn : m ≤ n) : s.allAnswered m :=
  fun k hk => h k (Nat.lt_of_lt_of_le hk hmn)

/-- After `d` more `Xfer`s the oracle stands `d` answers further on. -/
theorem nextAnswer_add {s t : State} {d : Nat} (ha : t.answers = s.answers) (hx : t.xfers = s.xfers + d) (k : Nat) :
    t.nextAnswer k = s.nextAnswer (d + k) := by
  rw [State.nextAnswer, State.nextAnswer, answer_congr ha, hx, Nat.add_assoc]

theorem allAnswered_add {s t : State} {d n : Nat} (ha : t.answers = s.answers) (hx : t.xfers = s.xfers + d)
    (h : s.allAnswered (d + n)) : t.allAnswered n := by
  intro k hk
  rw [nextAnswer_add ha hx]
  exact h _ (Nat.add_lt_add_left hk d)

theorem failsAt_add {s t : State} {d n : Nat} (ha : t.answers = s.answers) (hx : t.xfers = s.xfers + d)
    (h : s.failsAt (d + n)) : t.failsAt n := by
  obtain ⟨hall, hfail⟩ := h
  exact ⟨allAnswered_add ha hx hall, (nextAnswer_add ha hx n).trans hfail⟩

theorem nextByte_add {s t : State} {d : Nat} (ha : t.answers = s.answers) (hx : t.xfers = s.xfers + d) (k : Nat) :
    t.nextByte k = s.nextByte (d + k) := by
  rw [State.nextByte, State.nextByte, nextAnswer_add ha hx]

/-! ### The state after some polls -/

@[simp] theorem afterPolls_cfg (s : State) (n : Nat) : (s.afterPolls n).cfg = s.cfg := by
  induction n with
  | zero => rfl
  | succ n ih => exact ih

@[simp] theorem afterPolls_mode (s : State) (n : Nat) : (s.afterPolls n).mode = s.mode := by
  induction n with
  | zero => rfl
  | succ n ih => exact ih

@[simp] theorem afterPolls_answers (s : State) (n : Nat) : (s.afterPolls n).answers = s.answers := by
  induction n with
  | zero => rfl
  | succ n ih => exact ih

/-- A poll is two `Xfer`s (R176). -/
theorem afterPolls_xfers (s : State) (n : Nat) : (s.afterPolls n).xfers = s.xfers + 2 * n := by
  induction n with
  | zero => rfl
  | succ n ih => rw [State.afterPolls, afterTransaction_xfers, ih, readBytes_length, Nat.add_assoc]; rfl

theorem afterPolls_one (s : State) (n : Nat) : (s.afterPolls n).afterPolls 1 = s.afterPolls (n + 1) := by
  rw [State.afterPolls, State.afterPolls, State.afterPolls, afterPolls_cfg]

theorem allAnswered_afterPolls {s : State} {n k : Nat} (h : s.allAnswered (2 * n + k)) :
    (s.afterPolls n).allAnswered k :=
  allAnswered_add (afterPolls_answers s n) (afterPolls_xfers s n) h

theorem failsAt_afterPolls {s : State} {n k : Nat} (h : s.failsAt (2 * n + k)) : (s.afterPolls n).failsAt k :=
  failsAt_add (afterPolls_answers s n) (afterPolls_xfers s n) h

theorem pollByte_afterPolls (s : State) (n : Nat) : (s.afterPolls n).pollByte 0 = s.pollByte n :=
  nextByte_add (afterPolls_answers s n) (afterPolls_xfers s n) 1

/-! ### RDSTAT -/

/-- The byte that a whole read of Status shifts in (R57, R175). -/
theorem setWidth_readValue_status (s : State) :
    (BitVec.ofNat 24 (s.readValue (nbytes s.ctx .status))).setWidth 8 = s.nextByte 1 := by
  have hvalue : s.readValue (nbytes s.ctx .status) = (s.nextByte 1).toNat := by
    rw [nbytes, State.readValue, State.readValue, Nat.mul_zero, Nat.zero_add]
  rw [hvalue, BitVec.ofNat_toNat, BitVec.setWidth_setWidth_of_le _ (by decide), BitVec.setWidth_eq]

/-- RDSTAT's payload flag by flag (R175). -/
theorem statusPayload_eq (cfg : Cfg) (st : Byte) :
    statusPayload cfg st = BitVec.ofNat 64 (st.toNat
      + (if st.getLsbD cfg.rdyPos then 0 else 2 ^ 8) + (if st.getLsbD cfg.stdyPos then 2 ^ 9 else 0)
      + (if st.getLsbD cfg.stbyPos then 2 ^ 10 else 0) + (if st.getLsbD cfg.norefPos then 2 ^ 11 else 0)) := by
  have hraw (b : Bool) (n : Nat) : (if b then 2 ^ n else 0) = (BitVec.ofBool b).toNat * 2 ^ n := by cases b <;> simp
  have hnot (b : Bool) : (if b then 0 else 2 ^ 8) = (BitVec.ofBool !b).toNat * 2 ^ 8 := by cases b <;> rfl
  rw [hraw, hraw, hraw, hnot]
  apply BitVec.eq_of_toNat_eq
  simp only [statusPayload, ready, stdy, stby, noref, BitVec.toNat_setWidth, BitVec.toNat_ofNat, toNat_concat]
  omega

/-- Settles O44: RDSTAT is `loadRegister` of Status, and answers the payload of the byte read. -/
theorem rdstatAnswersFlags : Obligations.RdstatAnswersFlags := by
  unfold Obligations.RdstatAnswersFlags
  intro s hs
  rw [exec_rdstat, hostOp_idle _ _ hs, doRdstat]
  refine ⟨fun hall => ?_, fun k hk hfail => ?_⟩
  · rw [loadRegister_all _ _ _ hall, reply_eq_respond, setWidth_readValue_status, statusPayload_eq]
    rfl
  · have hk' : k < nbytes s.ctx .status + 1 := Nat.lt_succ_of_le hk
    rw [loadRegister_fails _ _ _ k hk' hfail]
    rfl

/-! ### WAITRDY -/

/-- WAITRDY's payload as a number (R176). -/
theorem pollPayload_eq (polls : Nat) (st : Byte) : pollPayload polls st = BitVec.ofNat 64 (polls * 2 ^ 32 + st.toNat) := by
  have hst := st.isLt
  have hpolls : (BitVec.ofNat 64 polls <<< 32).toNat = (polls % 2 ^ 32) <<< 32 := by
    rw [BitVec.toNat_shiftLeft, BitVec.toNat_ofNat, Nat.shiftLeft_eq, Nat.shiftLeft_eq]
    omega
  apply BitVec.eq_of_toNat_eq
  rw [pollPayload, BitVec.toNat_or, hpolls, BitVec.toNat_setWidth_of_le (by decide), BitVec.toNat_ofNat,
    ← Nat.shiftLeft_add_eq_or_of_lt (by omega), Nat.shiftLeft_eq]
  omega

/-- A whole poll ends the wait where it is ready, and leaves the rest of the loop where it is not (R176). -/
theorem pollLoop_succ {left polls : Nat} {s : State} (hall : s.allAnswered 2) :
    pollLoop (left + 1) polls s =
      if (s.pollByte 0).getLsbD s.cfg.rdyPos then pollLoop left (polls + 1) (s.afterPolls 1)
      else respond (.ok (BitVec.ofNat 64 ((polls + 1) * 2 ^ 32 + (s.pollByte 0).toNat))) (s.afterPolls 1) := by
  have hbyte : s.nextByte 1 = s.pollByte 0 := rfl
  rw [pollLoop, loadRegister_all _ _ _ hall, setWidth_readValue_status, pollPayload_eq, reply_eq_respond, ready,
    afterTransaction_cfg, hbyte]
  cases (s.pollByte 0).getLsbD s.cfg.rdyPos with
  | false => rfl
  | true => rfl

/-- Whole polls none of which is ready leave the rest of the loop (R176). -/
theorem pollLoop_notReady {j left polls : Nat} {s : State} (hall : s.allAnswered (2 * j))
    (hready : ∀ i < j, ¬ s.pollReady i) : pollLoop (j + left) polls s = pollLoop left (polls + j) (s.afterPolls j) := by
  induction j generalizing left with
  | zero => rw [Nat.zero_add]; rfl
  | succ j ih =>
    have hpoll : (s.afterPolls j).allAnswered 2 := allAnswered_afterPolls hall
    have hbit : (s.pollByte j).getLsbD s.cfg.rdyPos = true := by simpa [State.pollReady] using hready j (by omega)
    rw [Nat.add_right_comm, Nat.add_assoc, ih (allAnswered_of_le hall (by omega)) (fun i hi => hready i (by omega)),
      pollLoop_succ hpoll, pollByte_afterPolls, afterPolls_cfg, if_pos hbit, afterPolls_one, Nat.add_assoc]

/-- WAITRDY on an idle block, after polls none of which was ready (R176). -/
theorem exec_waitrdy_notReady {j left : Nat} {s : State} (hs : s.seq = .idle) (hall : s.allAnswered (2 * j))
    (hready : ∀ i < j, ¬ s.pollReady i) :
    exec (.waitrdy (j + left)) s = .next (pollLoop left j (s.afterPolls j)) := by
  rw [exec_waitrdy, hostOp_idle _ _ hs, doWaitrdy, pollLoop_notReady hall hready, Nat.zero_add]

/-- WAITRDY times out after its polls where none is ready (R176). -/
theorem exec_waitrdy_timeout {n : Nat} {s : State} (hs : s.seq = .idle) (hall : s.allAnswered (2 * n))
    (hready : ∀ i < n, ¬ s.pollReady i) :
    exec (.waitrdy n) s = .next (respond (.error .timeout) (s.afterPolls n)) :=
  exec_waitrdy_notReady (left := 0) hs hall hready

/-- Settles O45: the polls before the one that ends the wait are not ready. -/
theorem waitrdyPolls : Obligations.WaitrdyPolls := by
  unfold Obligations.WaitrdyPolls
  intro n s hs
  refine ⟨fun j hj hall hbefore hready => ?_, exec_waitrdy_timeout hs, fun k hk hfail hbefore => ?_⟩
  · obtain ⟨left, rfl⟩ : ∃ left, n = j + (left + 1) := ⟨n - (j + 1), by omega⟩
    have hpoll : (s.afterPolls j).allAnswered 2 := allAnswered_afterPolls hall
    have hbit : ¬ (s.pollByte j).getLsbD s.cfg.rdyPos = true := ne_true_of_eq_false hready
    rw [exec_waitrdy_notReady hs (allAnswered_of_le hall (by omega)) hbefore, pollLoop_succ hpoll, pollByte_afterPolls,
      afterPolls_cfg, if_neg hbit, afterPolls_one]
  · obtain ⟨left, rfl⟩ : ∃ left, n = k / 2 + (left + 1) := ⟨n - (k / 2 + 1), by omega⟩
    have hpoll : (s.afterPolls (k / 2)).failsAt (k % 2) := failsAt_afterPolls (by rwa [Nat.div_add_mod])
    obtain ⟨hall, -⟩ := hfail
    rw [exec_waitrdy_notReady hs (allAnswered_of_le hall (Nat.mul_div_le k 2)) hbefore, pollLoop,
      loadRegister_fails _ _ _ (k % 2) (Nat.mod_lt k (by decide)) hpoll, afterPolls_cfg]
    rfl

/-- A mode request with every `Xfer` answered leaves an idle block, three answers further on (R172). -/
theorem exec_setmode_all {m : ModeState} {s t : State} (hs : s.seq = .idle) (hall : s.allAnswered 3)
    (h : exec (.setmode m) s = .next t) :
    t.seq = .idle ∧ t.cfg = s.cfg ∧ t.answers = s.answers ∧ t.xfers = s.xfers + 3 := by
  rw [exec_setmode_idle m hs, storeRegister_all _ _ _ s (fits_mode _) hall] at h
  cases h
  exact ⟨rfl, rfl, rfl, rfl⟩

/-- Settles O46: after the three `Xfer`s of SETMODE the environment is one under which no poll of WAITRDY is ready. -/
theorem neverReadyTimesOut : Obligations.NeverReadyTimesOut := by
  unfold Obligations.NeverReadyTimesOut
  intro n s t u hs hall hnever hset hwait
  obtain ⟨hidle, hcfg, hanswers, hxfers⟩ := exec_setmode_all hs (allAnswered_of_le hall (Nat.le_add_right 3 _)) hset
  have hready : ∀ i < n, ¬ t.pollReady i := fun i hi => by
    rw [State.pollReady, State.pollByte, nextByte_add hanswers hxfers, hcfg, ← Nat.add_assoc, hnever i hi]
    nofun
  rw [exec_waitrdy_timeout hidle (allAnswered_add hanswers hxfers hall) hready] at hwait
  cases hwait
  refine ⟨rfl, ?_, ?_⟩
  · rw [respond_xfers, afterPolls_xfers, hxfers]
  · rw [respond_cfg, respond_mode, afterPolls_cfg, afterPolls_mode]

end Sys2Proof.Machine
end

section
/-! PROOFS. The command words that spell no operation, and the step of an idle block that is presented with one
(spec/30_encoding.md R81, R85, spec/60_exceptions.md R196). -/

namespace Sys2Proof.Machine

/-- The format of each opcode but `0xF` (R81, R82). -/
theorem operandBits_eq :
    ∀ op : BitVec 4, operandBits op = if op.toNat = 0xF then none else some (formatBits.getD op.toNat 60) := by decide

theorem formatBits_le : ∀ op : BitVec 4, formatBits.getD op.toNat 60 ≤ 60 := by decide

/-- The opcode as a number (R81). -/
theorem toNat_opcode (cw : Word64) : (field cw 60 4).toNat = cw.toNat / 2 ^ 60 := by
  have := cw.isLt
  rw [field, BitVec.extractLsb'_toNat, Nat.shiftRight_eq_div_pow]
  omega

/-- The must-be-zero bits of a format as a number (R85). -/
theorem toNat_mustBeZero (cw : Word64) {n : Nat} (hn : n ≤ 60) :
    (field cw n (60 - n)).toNat = cw.toNat % 2 ^ 60 / 2 ^ n := by
  have hsplit : 2 ^ 60 = 2 ^ n * 2 ^ (60 - n) := by rw [← Nat.pow_add, Nat.add_sub_cancel' hn]
  rw [field, BitVec.extractLsb'_toNat, Nat.shiftRight_eq_div_pow, hsplit, Nat.mod_mul_right_div_self]

/-- The decoder rejects a command word for its opcode or for a must-be-zero bit (R85). -/
theorem decodeHost_error_iff (cfg : Cfg) (cw : Word64) :
    (∃ e, decode cfg (.host cw) = .error e) ↔ spellsNothing cw := by
  have hzero : field cw (formatBits.getD (cw.toNat / 2 ^ 60) 60) (60 - formatBits.getD (cw.toNat / 2 ^ 60) 60) = 0 ↔
      cw.toNat % 2 ^ 60 / 2 ^ formatBits.getD (cw.toNat / 2 ^ 60) 60 = 0 := by
    rw [← toNat_mustBeZero cw (toNat_opcode cw ▸ formatBits_le _), BitVec.toNat_eq]
    rfl
  simp only [decode, decodeHost, operandBits_eq, toNat_opcode, spellsNothing, ne_eq, ← hzero]
  by_cases hop : cw.toNat / 2 ^ 60 = 0xF
  · simp only [hop, if_true, true_or, iff_true]
    exact ⟨_, rfl⟩
  · simp only [hop, if_false, false_or]
    split
    next hz => simp only [hz, reduceCtorEq, exists_false, not_true]
    next hz => simp only [hz, Except.error.injEq, exists_eq', not_false_iff]

/-- On an idle block a response is all that changes. -/
theorem respond_of_idle {s : State} (hs : s.seq = .idle) (x : Response) : respond x s = { s with response := some x } := by
  rw [respond, ← hs]

/-- Settles O4: what the decoder rejects is answered before anything else, in either form of the operation. -/
theorem illegalCommandIsNoOp : Obligations.IllegalCommandIsNoOp := by
  unfold Obligations.IllegalCommandIsNoOp
  refine ⟨rfl, fun cw => ⟨fun cfg => decodeHost_error_iff cfg cw, fun hcw s g rest hs hhost => ?_⟩⟩
  obtain ⟨e, hd⟩ := (decodeHost_error_iff s.cfg cw).2 hcw
  obtain ⟨g', hstep⟩ : ∃ g', step s = (serve g' cw { s with hostIn := rest }).outcome :=
    hhost.elim (fun h => ⟨g, step_idle_command hs h⟩) (fun h => ⟨.operation, step_idle_intrude hs h⟩)
  rw [hstep, serve_error (s := { s with hostIn := rest }) hd, Fetched.outcome_settled, raise_eq_respond,
    respond_of_idle (s := { s with hostIn := rest }) hs]

end Sys2Proof.Machine
end

section
/-! PROOFS. The checks of the operations, and what a host operation on an idle block comes to (spec/60_exceptions.md R191 to
R199). -/

namespace Sys2Proof.Machine

/-! ### The checks -/

/-- ENCODE's check refuses the two reserved codes (R191). -/
theorem validReg_error_iff {sel : Sel} {e : Err} :
    validReg sel = .error e ↔ e = .invalidRegister ∧ (sel = .reservedLow ∨ sel = .reservedHigh) := by
  cases sel <;> simp [validReg, eq_comm]

/-- The check of a shadowed selector refuses every other (R191). -/
theorem shadowedReg_error_iff {sel : Sel} {e : Err} :
    shadowedReg sel = .error e ↔ e = .invalidRegister ∧ ∀ g : ShadowReg, sel ≠ .reg g.reg := by
  cases hc : shadowedReg sel with
  | ok g => simp [(shadowedReg_ok_iff sel g).1 hc]
  | error e' =>
    have hne : ∀ g : ShadowReg, sel ≠ .reg g.reg := fun g hsel => by simp [hsel] at hc
    have he' : e' = .invalidRegister := by
      rcases sel with r | _ | _
      · cases hr : shadowOf r with
        | none => simpa [shadowedReg, hr, eq_comm] using hc
        | some g => simp [shadowedReg, hr] at hc
      · cases hc; rfl
      · cases hc; rfl
    simp [he', hne, eq_comm]

/-- A shadow's register is that of no other shadow (spec/10_state.md R21). -/
theorem ShadowReg.reg_injective : Function.Injective ShadowReg.reg := fun g g' h => by
  simpa using congrArg shadowOf h

/-- What holds of every shadow that a selector names holds of the one it names. -/
theorem forall_shadow_iff {g : ShadowReg} {p : ShadowReg → Prop} :
    (∀ g' : ShadowReg, Sel.reg g.reg = .reg g'.reg → p g') ↔ p g := by
  simp [ShadowReg.reg_injective.eq_iff]

theorem fits_eq_false_iff {g : ShadowReg} {v : Word24} : fits g v = false ↔ 2 ^ g.width ≤ v.toNat := by simp [fits]

/-- WRREG's checks refuse a selector that is not shadowed, and a value too wide (R191). -/
theorem checkWrreg_error_iff {sel : Sel} {v : Word24} {e : Err} :
    checkWrreg sel v = .error e ↔
      e = .invalidRegister ∧ ∀ g : ShadowReg, sel = .reg g.reg → 2 ^ g.width ≤ v.toNat := by
  cases hc : shadowedReg sel with
  | error e' =>
    obtain ⟨rfl, hne⟩ := shadowedReg_error_iff.1 hc
    simp [checkWrreg, hc, hne, eq_comm]
  | ok g =>
    obtain rfl := (shadowedReg_ok_iff sel g).1 hc
    rw [forall_shadow_iff (p := fun g => 2 ^ g.width ≤ v.toNat), ← fits_eq_false_iff]
    cases hf : fits g v <;> simp [checkWrreg, hf, eq_comm]

/-- SETFLD's checks refuse a selector that is not shadowed, and a mask or bits too wide (R191). -/
theorem checkSetfld_error_iff {sel : Sel} {bits mask : Word24} {e : Err} :
    checkSetfld sel bits mask = .error e ↔
      e = .invalidRegister ∧
        ∀ g : ShadowReg, sel = .reg g.reg → 2 ^ g.width ≤ mask.toNat ∨ 2 ^ g.width ≤ bits.toNat := by
  cases hc : shadowedReg sel with
  | error e' =>
    obtain ⟨rfl, hne⟩ := shadowedReg_error_iff.1 hc
    simp [checkSetfld, hc, hne, eq_comm]
  | ok g =>
    obtain rfl := (shadowedReg_ok_iff sel g).1 hc
    rw [forall_shadow_iff (p := fun g => 2 ^ g.width ≤ mask.toNat ∨ 2 ^ g.width ≤ bits.toNat), ← fits_eq_false_iff,
      ← fits_eq_false_iff]
    cases hm : fits g mask with
    | false => simp [checkSetfld, hm, @eq_comm _ e]
    | true => cases hb : fits g bits <;> simp [checkSetfld, hm, hb, @eq_comm _ e]

/-- RDREG's checks refuse a reserved code, and Data with no context loaded (R191, R195). -/
theorem checkRdreg_error_iff {sel : Sel} {x : Ctx} {e : Err} :
    checkRdreg sel x = .error e ↔
      e = .invalidRegister ∧ (sel = .reservedLow ∨ sel = .reservedHigh) ∨
      e = .invalidContext ∧ sel = .reg .data ∧ x.valid = false := by
  cases sel with
  | reg r =>
    by_cases hr : r = .data ∧ x.valid = false
    · simp [checkRdreg, validReg, hr, @eq_comm _ e]
    · simp [checkRdreg, validReg, hr]
  | reservedLow => simp [checkRdreg, validReg, @eq_comm _ e]
  | reservedHigh => simp [checkRdreg, validReg, @eq_comm _ e]

/-- CONVERT's checks raise `InvalidContext` or `PrecisionViolation` (R194, R195). -/
theorem checkConvert_error {x : Ctx} {c : Nat} {e : Err} (h : checkConvert x c = .error e) :
    e = .invalidContext ∨ e = .precisionViolation := by
  unfold checkConvert at h
  split at h
  · cases h; exact .inl rfl
  · split at h
    · cases h; exact .inr rfl
    · cases h

/-- Checks 2 to 5 of R197 find an error in the operands of a host operation: the error that its rule raises before any
state change and any bus event. -/
inductive CheckFails (s : State) : Instr → Err → Prop where
  | encode {d : Dir} {sel : Sel} {e : Err} (h : validReg sel = .error e) : CheckFails s (.encode d sel) e
  | wrreg {sel : Sel} {v : Word24} {e : Err} (h : checkWrreg sel v = .error e) : CheckFails s (.wrreg sel v) e
  | rdreg {sel : Sel} {e : Err} (h : checkRdreg sel s.ctx = .error e) : CheckFails s (.rdreg sel) e
  | refresh {sel : Sel} {e : Err} (h : shadowedReg sel = .error e) : CheckFails s (.refresh sel) e
  | setfld {sel : Sel} {bits mask : Word24} {e : Err} (h : checkSetfld sel bits mask = .error e) :
      CheckFails s (.setfld sel bits mask) e
  | getshd {sel : Sel} {e : Err} (h : shadowedReg sel = .error e) : CheckFails s (.getshd sel) e
  | setctx {range : Word16} {pol : Polarity} {refMinus refPlus : Word16} {wl : WordLength}
      (h : ¬ contextOk s.cfg range refMinus refPlus = true) :
      CheckFails s (.setctx range pol refMinus refPlus wl) .invalidContext
  | convert {c : Nat} {e : Err} (h : checkConvert s.ctx c = .error e) : CheckFails s (.convert c) e
  | rdvolt (h : ¬ s.ctx.valid = true) : CheckFails s .rdvolt .invalidContext

/-- An operation that fails a check answers the check's error and does nothing else (R197). -/
theorem exec_of_checkFails {s : State} {i : Instr} {e : Err} (hs : s.seq = .idle) (h : CheckFails s i e) :
    exec i s = .next (respond (.error e) s) := by
  cases h with
  | encode h => exact exec_encode_error _ hs h
  | wrreg h => simp only [exec_wrreg, hostOp_idle _ _ hs, doWrreg, h, raise_eq_respond]
  | rdreg h => exact exec_rdreg_error hs h
  | refresh h => simp only [exec_refresh, hostOp_idle _ _ hs, doRefresh, h, raise_eq_respond]
  | setfld h => simp only [exec_setfld, hostOp_idle _ _ hs, doSetfld, h, raise_eq_respond]
  | getshd h => simp only [exec_getshd, hostOp_idle _ _ hs, doGetshd, h, raise_eq_respond]
  | setctx h => rw [exec_setctx, hostOp_idle _ _ hs, doSetctx, if_neg h, raise_eq_respond]
  | convert h => exact exec_convert_error hs h
  | rdvolt h => rw [exec_rdvolt, hostOp_idle _ _ hs, doRdvolt, if_neg h, raise_eq_respond]

/-- Why an instruction that takes an idle block from `s` to `t` may answer an error (R191 to R196): for `InvalidRegister` its
operands, for `BusError` the bus record, for the others the operations that raise it, which for `IllegalCommand` are none. -/
def ErrorCause (i : Instr) (s t : State) : Err → Prop
  | .invalidRegister => registerRefused i
  | .busError => t.trace ≠ s.trace
  | .timeout => ∃ n, i = .waitrdy n
  | .precisionViolation => ∃ c, i = .convert c
  | .invalidContext =>
    (∃ r p a b w, i = .setctx r p a b w) ∨ (∃ c, i = .convert c) ∨ i = .rdvolt ∨ i = .rdreg (.reg .data)
  | .illegalCommand => False

/-- An error that a check finds has its cause in the operation (R191, R194, R195). -/
theorem errorCause_of_checkFails {s : State} {i : Instr} {e : Err} (h : CheckFails s i e) (t : State) :
    ErrorCause i s t e := by
  cases h with
  | encode h => obtain ⟨rfl, hsel⟩ := validReg_error_iff.1 h; exact hsel
  | wrreg h => obtain ⟨rfl, hwide⟩ := checkWrreg_error_iff.1 h; exact hwide
  | rdreg h =>
    rcases checkRdreg_error_iff.1 h with ⟨rfl, hsel⟩ | ⟨rfl, rfl, -⟩
    · exact hsel
    · exact .inr (.inr (.inr rfl))
  | refresh h => obtain ⟨rfl, hsel⟩ := shadowedReg_error_iff.1 h; exact hsel
  | setfld h => obtain ⟨rfl, hwide⟩ := checkSetfld_error_iff.1 h; exact hwide
  | getshd h => obtain ⟨rfl, hsel⟩ := shadowedReg_error_iff.1 h; exact hsel
  | setctx h => exact .inl ⟨_, _, _, _, _, rfl⟩
  | convert h =>
    rcases checkConvert_error h with rfl | rfl
    · exact .inr (.inl ⟨_, rfl⟩)
    · exact ⟨_, rfl⟩
  | rdvolt h => exact .inr (.inr (.inl rfl))

/-- The operands of R191 fail a check. -/
theorem checkFails_of_registerRefused {i : Instr} (s : State) (h : registerRefused i) :
    CheckFails s i .invalidRegister := by
  cases i with
  | encode d sel => exact .encode (validReg_error_iff.2 ⟨rfl, h⟩)
  | wrreg sel v => exact .wrreg (checkWrreg_error_iff.2 ⟨rfl, h⟩)
  | rdreg sel => exact .rdreg (checkRdreg_error_iff.2 (.inl ⟨rfl, h⟩))
  | refresh sel => exact .refresh (shadowedReg_error_iff.2 ⟨rfl, h⟩)
  | setfld sel bits mask => exact .setfld (checkSetfld_error_iff.2 ⟨rfl, h⟩)
  | getshd sel => exact .getshd (shadowedReg_error_iff.2 ⟨rfl, h⟩)
  | _ => exact h.elim

/-! ### The completion of an operation -/

/-- What a host operation on an idle block `s` comes to: it answers OK; a check fails, and the error is all that changes; an
`Xfer` fails, and the bus record tells it; WAITRDY runs out of polls (R197, R198). None touches the host's events. -/
inductive Completes (i : Instr) (s : State) : State → Prop where
  | ok (v : Word64) {m : State} (hhost : m.hostIn = s.hostIn) : Completes i s (respond (.ok v) m)
  | checkFails {e : Err} (h : CheckFails s i e) : Completes i s (respond (.error e) s)
  | busError {m : State} (hhost : m.hostIn = s.hostIn) (htrace : m.trace ≠ s.trace) :
      Completes i s (respond (.error .busError) m)
  | timeout {n : Nat} {m : State} (hi : i = .waitrdy n) (hhost : m.hostIn = s.hostIn) :
      Completes i s (respond (.error .timeout) m)

/-- A transaction shows in the bus record (spec/20_memory.md R54, R62). -/
theorem trace_afterTransaction_ne {s u : State} (h : s.trace <+: u.trace) (bytes : List Byte) :
    (u.afterTransaction bytes).trace ≠ s.trace := fun heq => by
  have hlen := congrArg List.length heq
  have hle := h.length_le
  rw [afterTransaction_trace, List.length_append, List.cons_append, List.length_cons] at hlen
  omega

/-- A register written on the bus: OK, or the bus error of a transaction (R192). -/
theorem completes_storeRegister (i : Instr) (g : ShadowReg) (v : Word24) (payload : Word64) (s : State) :
    Completes i s (storeRegister g v payload s) := by
  simp only [storeRegister]
  rcases memWrite_cases g.reg (nbytes (writeShadow g v s).ctx g.reg) (readShadow g (writeShadow g v s))
    (writeShadow g v s) with ⟨-, h⟩ | ⟨k, -, -, h⟩ <;> rw [h]
  · exact .ok _ (by simp)
  · exact .busError (by simp) (trace_afterTransaction_ne (by simp) _)

/-- A register read on the bus, from a state `u` the operation has come to: the bus error of a transaction, or what follows
the value (R192). -/
theorem completes_loadRegister {i : Instr} {s u : State} (r : Reg) {k : Word24 → State → State}
    (hhost : u.hostIn = s.hostIn) (htrace : s.trace <+: u.trace)
    (hk : ∀ (acc : Word24) (w : State), w.hostIn = s.hostIn → s.trace <+: w.trace → Completes i s (k acc w)) :
    Completes i s (loadRegister r k u) := by
  rcases loadRegister_cases r k u with ⟨-, h⟩ | ⟨j, -, -, h⟩ <;> rw [h]
  · exact hk _ _ hhost (htrace.trans (List.prefix_append _ _))
  · exact .busError hhost (trace_afterTransaction_ne htrace _)

/-- A register read on the bus whose value is answered. -/
theorem completes_loadRegister_reply (i : Instr) (r : Reg) (payload : Word24 → State → Word64) (s : State) :
    Completes i s (loadRegister r (fun acc t => reply (payload acc t) t) s) :=
  completes_loadRegister r (k := fun acc t => reply (payload acc t) t) rfl List.prefix_rfl
    fun _ _ hhost _ => .ok _ hhost

/-- WAITRDY's polls: each reads Status, and with none left the answer is `Timeout` (R193). -/
theorem completes_pollLoop {n : Nat} {s u : State} (left polls : Nat) (hhost : u.hostIn = s.hostIn)
    (htrace : s.trace <+: u.trace) : Completes (.waitrdy n) s (pollLoop left polls u) := by
  induction left generalizing polls u with
  | zero => exact .timeout rfl hhost
  | succ left ih =>
    refine completes_loadRegister .status hhost htrace fun acc w hhost' htrace' => ?_
    split
    · exact .ok _ hhost'
    · exact ih _ hhost' htrace'

/-- CHIPRST's transaction (R192). -/
theorem completes_doChiprst (s : State) : Completes .chiprst s (doChiprst s) := by
  rcases allAnswered_or_failsAt s 4 with hall | ⟨k, hk, hfail⟩
  · rw [doChiprst_all hall]
    exact .ok 0 rfl
  · rw [doChiprst_fails hk hfail]
    exact .busError rfl (trace_afterTransaction_ne List.prefix_rfl _)

/-- Every host operation on an idle block completes: it fails a check, or goes on with operands that its checks let
through (R198, R199). -/
theorem exec_completes {i : Instr} {s : State} (hop : i.isHostOp = true) (hs : s.seq = .idle) :
    ∃ t, exec i s = .next t ∧ Completes i s t := by
  have hcheck : ∀ {e}, CheckFails s i e → ∃ t, exec i s = .next t ∧ Completes i s t :=
    fun h => ⟨_, exec_of_checkFails hs h, .checkFails h⟩
  cases i with
  | encode d sel =>
    cases hc : validReg sel with
    | error e => exact hcheck (.encode hc)
    | ok r => exact ⟨_, by rw [validReg_ok hc, exec_encode_reg d r hs], .ok _ rfl⟩
  | wrreg sel v =>
    cases hc : checkWrreg sel v with
    | error e => exact hcheck (.wrreg hc)
    | ok g =>
      obtain ⟨rfl, hv⟩ := checkWrreg_ok hc
      exact ⟨_, exec_wrreg_reg hs hv, completes_storeRegister _ g v 0 s⟩
  | rdreg sel =>
    cases hc : checkRdreg sel s.ctx with
    | error e => exact hcheck (.rdreg hc)
    | ok r =>
      refine ⟨_, hostOp_idle _ _ hs, ?_⟩
      simp only [doRdreg, hc]
      exact completes_loadRegister_reply _ r _ s
  | refresh sel =>
    cases hc : shadowedReg sel with
    | error e => exact hcheck (.refresh hc)
    | ok g =>
      obtain rfl := (shadowedReg_ok_iff sel g).1 hc
      exact ⟨_, exec_refresh_reg g hs, completes_loadRegister g.reg rfl List.prefix_rfl
        fun acc w hhost _ => .ok _ (by simpa using hhost)⟩
  | setfld sel bits mask =>
    cases hc : checkSetfld sel bits mask with
    | error e => exact hcheck (.setfld hc)
    | ok g =>
      obtain ⟨rfl, hm, hb⟩ := checkSetfld_ok hc
      refine ⟨_, hostOp_idle _ _ hs, ?_⟩
      rw [doSetfld_reg hm hb]
      exact completes_storeRegister _ g _ _ s
  | setmode m => exact ⟨_, exec_setmode_idle m hs, completes_storeRegister _ .mode _ _ s⟩
  | waitrdy n => exact ⟨_, hostOp_idle _ _ hs, completes_pollLoop n 0 rfl List.prefix_rfl⟩
  | rdstat => exact ⟨_, hostOp_idle _ _ hs, completes_loadRegister_reply _ .status _ s⟩
  | chiprst => exact ⟨_, hostOp_idle _ _ hs, completes_doChiprst s⟩
  | setctx range pol refMinus refPlus wl =>
    by_cases hc : contextOk s.cfg range refMinus refPlus = true
    · refine ⟨_, hostOp_idle _ _ hs, ?_⟩
      rw [doSetctx, if_pos hc]
      exact .ok 0 rfl
    · exact hcheck (.setctx hc)
  | convert c =>
    cases hc : checkConvert s.ctx c with
    | error e => exact hcheck (.convert hc)
    | ok _ =>
      refine ⟨_, hostOp_idle _ _ hs, ?_⟩
      simp only [doConvert, hc]
      exact .ok _ rfl
  | rdvolt =>
    by_cases hv : s.ctx.valid = true
    · exact ⟨_, exec_rdvolt_valid hs hv, completes_loadRegister_reply _ .data _ s⟩
    · exact hcheck (.rdvolt hv)
  | getshd sel =>
    cases hc : shadowedReg sel with
    | error e => exact hcheck (.getshd hc)
    | ok g =>
      obtain rfl := (shadowedReg_ok_iff sel g).1 hc
      exact ⟨_, exec_getshd_reg g hs, .ok _ rfl⟩
  | getmode => exact ⟨_, hostOp_idle _ _ hs, .ok _ rfl⟩
  | getctx => exact ⟨_, hostOp_idle _ _ hs, .ok _ rfl⟩
  | _ => cases hop

/-- Settles O15: in each of its four ways an operation responds and leaves the sequencer idle. -/
theorem hostOperationsComplete : Obligations.HostOperationsComplete := by
  unfold Obligations.HostOperationsComplete
  intro i s hop hs
  obtain ⟨t, ht, hcompletes⟩ := exec_completes hop hs
  cases hcompletes with
  | ok v hhost => exact ⟨_, _, ht, rfl, rfl, hhost⟩
  | checkFails h => exact ⟨_, _, ht, rfl, rfl, rfl⟩
  | busError hhost htrace => exact ⟨_, _, ht, rfl, rfl, hhost⟩
  | timeout hi hhost => exact ⟨_, _, ht, rfl, rfl, hhost⟩

/-! ### The errors -/

/-- What an instruction on an idle block comes to, where it has a next state. -/
theorem completes_of_exec {i : Instr} {s t : State} (hs : s.seq = .idle) (h : exec i s = .next t) : Completes i s t := by
  obtain ⟨t', ht', hcompletes⟩ := exec_completes (isHostOp_of_exec_idle hs h) hs
  rw [ht'] at h
  cases h
  exact hcompletes

/-- An error response on an idle block has its cause. -/
theorem errorCause_of_exec {i : Instr} {s t : State} {e : Err} (hs : s.seq = .idle) (h : exec i s = .next t)
    (hr : t.response = some (.error e)) : ErrorCause i s t e := by
  cases completes_of_exec hs h with
  | ok v hhost => cases hr
  | checkFails hcheck => cases hr; exact errorCause_of_checkFails hcheck _
  | busError hhost htrace => cases hr; exact htrace
  | timeout hi hhost => cases hr; exact ⟨_, hi⟩

/-- Settles O23: the operands of R191 fail a check, and nothing else answers `InvalidRegister`. -/
theorem invalidRegisterIsNoOp : Obligations.InvalidRegisterIsNoOp := by
  unfold Obligations.InvalidRegisterIsNoOp
  exact ⟨rfl, fun i s _ hs => ⟨fun h => exec_of_checkFails hs (checkFails_of_registerRefused s h),
    fun t h hr => errorCause_of_exec hs h hr⟩⟩

/-- Settles O59: each error with its cause. -/
theorem errorOrigins : Obligations.ErrorOrigins := by
  unfold Obligations.ErrorOrigins
  intro i s t hs h
  have hcause : ∀ e, t.response = some (.error e) → ErrorCause i s t e := fun e => errorCause_of_exec hs h
  exact ⟨hcause .timeout, hcause .precisionViolation, hcause .invalidContext, hcause .busError, hcause .illegalCommand⟩

/-- Settles O60: an error that is neither the bus's nor the polls' is that of a check, which answers it and no more. -/
theorem failedCheckChangesNothing : Obligations.FailedCheckChangesNothing := by
  unfold Obligations.FailedCheckChangesNothing
  intro i s t e hs h hr hbus htimeout
  cases completes_of_exec hs h with
  | ok v hhost => cases hr
  | checkFails hcheck => cases hr; exact respond_of_idle hs _
  | busError hhost htrace => cases hr; exact absurd rfl hbus
  | timeout hi hhost => cases hr; exact absurd rfl htimeout

end Sys2Proof.Machine
end

section
/-! PROOFS. From a good state a step has a next state or is refused for a second command (spec/60_exceptions.md R198, R199,
spec/70_reset_and_hazards.md R224). -/

namespace Sys2Proof.Machine

/-! ### The step of an idle block -/

/-- A command word spells host operations alone (R82). -/
theorem isHostOp_of_decodeHost {cfg : Cfg} {cw : Word64} {i : Instr} (h : decode cfg (.host cw) = .ok i) :
    i.isHostOp = true := by
  obtain ⟨n, -, -, rfl⟩ := decodeHost_ok h
  unfold operation
  split <;> rfl

/-- A command word served on an idle block has a next state, in either form: the byte form has one where the atomic form
has (R29). -/
theorem serve_next {s : State} (hs : s.seq = .idle) (hw : s.cfg.wf = true) (g : Grain) (cw : Word64) :
    ∃ t, (serve g cw s).outcome = .next t := by
  have hoperation : ∃ t, (serve .operation cw s).outcome = .next t := by
    cases hd : decode s.cfg (.host cw) with
    | error e => exact ⟨_, by rw [serve_error hd, Fetched.outcome_settled]⟩
    | ok i =>
      obtain ⟨t, ht, -⟩ := exec_completes (isHostOp_of_decodeHost hd) hs
      exact ⟨t, by rw [serve_operation hd, Fetched.outcome_instr, ht]⟩
  cases g with
  | operation => exact hoperation
  | byte =>
    obtain ⟨t, ht⟩ := hoperation
    obtain ⟨u, hu, -⟩ := serve_agrees hs hw ht
    exact ⟨u, hu⟩

/-- An idle block always has a next state (R199). -/
theorem step_idle_next {s : State} (hs : s.seq = .idle) (hw : s.cfg.wf = true) : ∃ t, step s = .next t := by
  rcases hh : s.hostIn with _ | ⟨e, rest⟩
  · exact ⟨_, step_idle_silent hs hh⟩
  · cases e with
    | reset => exact ⟨_, step_reset hh⟩
    | quiet => exact ⟨_, step_idle_quiet hs hh⟩
    | command g cw => rw [step_idle_command hs hh]; exact serve_next (s := { s with hostIn := rest }) hs hw g cw
    | intrude cw =>
      rw [step_idle_intrude hs hh]
      exact serve_next (s := { s with hostIn := rest }) hs hw .operation cw

/-! ### The next byte of an operation in progress -/

/-- A selector whose register has a command byte in a shadowed operation is shadowed (R110). -/
theorem shadowedReg_of_command {r : Reg} {c : Dir × Reg} {d : Dir}
    (h : ((shadowOf r).map fun _ => (d, r)) = some c) : ∃ g, shadowedReg (.reg r) = .ok g := by
  obtain ⟨g, hg, -⟩ := Option.map_eq_some_iff.1 h
  exact ⟨g, by simp [shadowedReg, hg]⟩

/-- An operation with a transaction completes after its last data byte (R28). -/
theorem complete_next {q : Run} (s : State) (hc : (commandOf q.op).isSome = true) (he : isEncode q.op = false) :
    ∃ t, complete q s = .next t := by
  obtain ⟨c, hc⟩ := Option.isSome_iff_exists.1 hc
  obtain ⟨op, phase, i, acc, polls⟩ := q
  cases op with
  | refresh sel | setfld sel bits mask =>
    cases sel with
    | reg r =>
      obtain ⟨g, hg⟩ := shadowedReg_of_command hc
      simp [complete, hg]
    | _ => cases hc
  | waitrdy n =>
    simp only [complete]
    split
    · exact ⟨_, rfl⟩
    · split <;> exact ⟨_, rfl⟩
  | wrreg | rdreg | setmode | rdstat | rdvolt => exact ⟨_, rfl⟩
  | encode => cases he
  | _ => cases hc

/-- After a data byte the operation goes on or completes (R28). -/
theorem afterByte_next {q : Run} (left : Nat) (s : State) (hc : (commandOf q.op).isSome = true)
    (he : isEncode q.op = false) : ∃ t, afterByte q left s = .next t := by
  cases left with
  | zero => exact complete_next (q := { q with i := 0 }) _ hc he
  | succ n => exact ⟨_, afterByte_succ q n s⟩

/-- A data byte moves, or the transaction ends, in every operation that has one left (R28, R54). -/
theorem advanceData_next {q : Run} (s : State) (hi : 1 ≤ q.i) (hc : (commandOf q.op).isSome = true)
    (he : isEncode q.op = false) : ∃ t, advanceData q s = .next t := by
  obtain ⟨left, hleft⟩ : ∃ left, q.i = left + 1 := ⟨q.i - 1, by omega⟩
  obtain ⟨⟨d, r⟩, hdr⟩ := Option.isSome_iff_exists.1 hc
  cases d with
  | write =>
    obtain ⟨g, rfl⟩ := (commandOf_write hdr).resolve_left (by simp [he])
    rcases advanceData_write q s left g hleft hdr with ⟨-, h⟩ | ⟨-, h⟩ <;> rw [h]
    · exact afterByte_next left _ hc he
    · exact ⟨_, rfl⟩
  | read =>
    rcases advanceData_read q s left r hleft hdr with ⟨-, h⟩ | ⟨-, h⟩ <;> rw [h]
    · exact afterByte_next (q := { q with acc := _ }) left _ hc he
    · exact ⟨_, rfl⟩

/-- In a good state the operation in progress has a next byte, in each of its phases (R28). -/
theorem runByte_next {s : State} {q : Run} (h : StateOk s = true) (hs : s.seq = .run q) : ∃ t, runByte q s = .next t := by
  obtain ⟨hblock, hrun, -⟩ := (stateOk_run_iff hs).1 h
  cases hp : q.phase with
  | cmd =>
    obtain ⟨-, -, hc, -⟩ := (runOk_cmd_iff hp).1 hrun
    obtain ⟨⟨d, r⟩, hdr⟩ := Option.isSome_iff_exists.1 hc
    exact ⟨_, runByte_command hs hp hdr hblock.wf⟩
  | data =>
    obtain ⟨-, -, hc, he, hi, -⟩ := (runOk_data_iff hp).1 hrun
    rw [runByte_data hp]
    exact advanceData_next s hi hc he
  | fill =>
    obtain ⟨-, -, hop, hi, -⟩ := (runOk_fill_iff hp).1 hrun
    exact ⟨_, runByte_fill (left := q.i - 1) hs hp hop (by omega)⟩

/-- Settles O52: an idle block serves what is presented, an operation in progress goes on to its next byte, and block reset
acts on both. -/
theorem stepNeverFaults : Obligations.StepNeverFaults := by
  unfold Obligations.StepNeverFaults
  intro s h
  cases hs : s.seq with
  | idle => exact .inl (step_idle_next hs (wf_of_stateOk h))
  | run q =>
    have hwaits : ∀ rest, HostWaits s { s with hostIn := rest } → ∃ t, step s = .next t := fun rest hw => by
      rw [step_running hs hw]
      exact runByte_next (stateOk_withHostIn h rest) hs
    rcases hh : s.hostIn with _ | ⟨e, rest⟩
    · exact .inl (hwaits s.hostIn (.silent hh))
    · cases e with
      | reset => exact .inl ⟨_, step_reset hh⟩
      | quiet => exact .inl (hwaits rest (.quiet rest hh))
      | command g cw => exact .inl (hwaits s.hostIn (.command g cw rest hh))
      | intrude cw =>
        exact .inr ⟨by rw [step_eq_outcome, fetch, hh, hs, Fetched.outcome_settled], ⟨q, rfl⟩, cw, rest, rfl⟩

end Sys2Proof.Machine
end

section
/-! PROOFS. Block reset, and a second command while an operation is in progress (spec/70_reset_and_hazards.md R210, R211,
R213, R224). -/

namespace Sys2Proof.Machine

/-! ### Block reset -/

/-- With no context loaded the operations that look at the context or need one answer 0 or `InvalidContext`, and nothing
else changes: CONVERT whatever its code, RDVOLT and RDREG Data without a bus event (R211). -/
theorem exec_of_noContext {s : State} (hs : s.seq = .idle) (hv : s.ctx.valid = false) :
    exec .getctx s = .next (respond (.ok 0) s) ∧
    (∀ c, exec (.convert c) s = .next (respond (.error .invalidContext) s)) ∧
    exec .rdvolt s = .next (respond (.error .invalidContext) s) ∧
    exec (.rdreg (.reg .data)) s = .next (respond (.error .invalidContext) s) := by
  have hctx : ¬ s.ctx.valid = true := by simp [hv]
  refine ⟨?_, fun c => (convertAnswersVoltage c s hs).1 hv, exec_of_checkFails hs (.rdvolt hctx),
    exec_of_checkFails hs (.rdreg (checkRdreg_error_iff.2 (.inr ⟨rfl, rfl, hv⟩)))⟩
  rw [getctxAnswersContext s hs, if_neg hctx]

/-- Settles O12: the step is `blockReset`, whose state is idle with no context. -/
theorem blockResetState : Obligations.BlockResetState := by
  unfold Obligations.BlockResetState
  intro s rest hh hw
  exact ⟨_, step_reset hh, rfl, rfl, rfl, rfl, rfl, rfl, modeState_resetMode hw, exec_of_noContext rfl rfl⟩

/-- Settles O13: `blockReset` keeps what is not the block's own, and starts with no response and no bus record. -/
theorem blockResetIsSilent : Obligations.BlockResetIsSilent := by
  unfold Obligations.BlockResetIsSilent
  intro s rest hh
  exact ⟨_, step_reset hh, blockReset_response _, blockReset_trace _, blockReset_cfg _, blockReset_xfers _,
    blockReset_answers _, blockReset_hostIn _⟩

/-! ### A second command -/

/-- Every host operation runs under `hostOp`, which looks at the sequencer before its body does. -/
theorem exists_exec_eq_hostOp {i : Instr} (hop : i.isHostOp = true) : ∃ body, ∀ s, exec i s = hostOp body s := by
  cases i with
  | encode dir sel => exact ⟨_, exec_encode dir sel⟩
  | wrreg sel value => exact ⟨_, exec_wrreg sel value⟩
  | rdreg sel => exact ⟨_, exec_rdreg sel⟩
  | refresh sel => exact ⟨_, exec_refresh sel⟩
  | setfld sel bits mask => exact ⟨_, exec_setfld sel bits mask⟩
  | setmode m => exact ⟨_, exec_setmode m⟩
  | waitrdy maxPolls => exact ⟨_, exec_waitrdy maxPolls⟩
  | rdstat => exact ⟨_, exec_rdstat⟩
  | chiprst => exact ⟨_, exec_chiprst⟩
  | setctx range pol refMinus refPlus wl => exact ⟨_, exec_setctx range pol refMinus refPlus wl⟩
  | convert rawCode => exact ⟨_, exec_convert rawCode⟩
  | rdvolt => exact ⟨_, exec_rdvolt⟩
  | getshd sel => exact ⟨_, exec_getshd sel⟩
  | getmode => exact ⟨_, exec_getmode⟩
  | getctx => exact ⟨_, exec_getctx⟩
  | _ => cases hop

/-- While an operation is in progress no other begins (R224). -/
theorem hostOp_running (body : State → State) {s : State} {q : Run} (hs : s.seq = .run q) :
    hostOp body s = .refused .commandWhileBusy := by
  rcases hostOp_cases body s with ⟨hidle, -⟩ | ⟨-, hbusy⟩
  · cases hs.symm.trans hidle
  · exact hbusy

/-- A command that does not wait for the operation in progress is refused by the step (R224). -/
theorem step_running_intrude {s : State} {q : Run} {cw : Word64} {rest : List HostEvent} (hs : s.seq = .run q)
    (hh : s.hostIn = .intrude cw :: rest) : step s = .refused .commandWhileBusy := by
  rw [step_eq_outcome, fetch, hh, hs, Fetched.outcome_settled]

/-- Settles O14: the fetch refuses the command, and `hostOp` every operation. -/
theorem secondCommandRefused : Obligations.SecondCommandRefused := by
  unfold Obligations.SecondCommandRefused
  intro s q hs
  refine ⟨fun cw rest hh => step_running_intrude hs hh, fun i hop => ?_⟩
  obtain ⟨body, hbody⟩ := exists_exec_eq_hostOp hop
  rw [hbody, hostOp_running body hs]

end Sys2Proof.Machine
end
